-- ==== Sys2Proof/Word.lean ====
section
/-! DEFINITION. The widths of spec/00_scope.md R5 ("widths fixed by the frame format") and the frame of R11:
four bytes, byte0 first on the wire (20_memory.md R62). -/

namespace Sys2Proof

/-- A byte of the serial link. -/
abbrev Byte := BitVec 8

/-- The 16-bit data word of a frame (R68). -/
abbrev Half := BitVec 16

/-- A command word, or a frame written as one number (R6). -/
abbrev Word := BitVec 32

/-- The checksum nibble. -/
abbrev Nibble := BitVec 4

/-- A frame, "exactly 4 bytes" (R11, R61); `b0` goes on the wire first (R62). -/
structure Frame where
  b0 : Byte
  b1 : Byte
  b2 : Byte
  b3 : Byte
  deriving DecidableEq, Repr

end Sys2Proof
end

