-- ==== Sys2Proof/Config.lean ====
section
/-! DEFINITION. The parameters of spec/00_scope.md R5 and 47_host_sequences.md R274. The printed values stand in
`Config.hardware`; a parameter the spec calls OPEN is an opaque constant, so nothing can be proved of its value. -/

namespace Sys2Proof

/-- What the spacing of filler bytes is measured from (R263 (c)): the byte being presented on the command port, or its
TXB having completed. -/
inductive GapOrigin where
  | presented
  | completed
  deriving DecidableEq, Repr, Inhabited

/-- R5: "A model takes each as a field of its configuration." The record is carried in the state, unchanged by
every step, so that a statement about every state speaks of every value of every parameter (log 5). -/
structure Config where
  /-- FRAME_LEN, length of every frame in both directions; the four bytes of `Frame` are its only legal value
  (`Config.Legal`, log 5). -/
  frameLen : Nat
  /-- T_RESP, per-frame response deadline in ticks. -/
  tResp : Nat
  /-- AEA_MAX, largest accepted extended-address byte count. -/
  aeaMax : Nat
  /-- AEA_REG, the extended-address register. -/
  aeaReg : Byte
  /-- NOP_REG, the no-op register. -/
  nopReg : Byte
  /-- TICK_MS, nominal period of `tick` in ms; no step depends on it. -/
  tickMs : Nat
  /-- RX_DEPTH, capacity of the receive FIFO; "must be at least 4". -/
  rxDepth : Nat
  /-- T_IB, inter-byte timeout of RXB in ticks; OPEN. -/
  tIb : Nat
  /-- POLL_MAX, most frames of one POLL; OPEN, "at least 1". -/
  pollMax : Nat
  /-- T_ARB, host: arbiter queue-wait bound in ms. -/
  tArb : Nat
  /-- BAUD_LADDER, host: negotiation ladder, ascending. -/
  baudLadder : List Nat
  /-- FILLER_MAX, host: most filler bytes per attempt. -/
  fillerMax : Nat
  /-- FILLER_GAP, host: spacing of filler bytes in ms ("~10 ms"). -/
  fillerGap : Nat
  /-- Host, R263 (c): what FILLER_GAP is measured from; OPEN (log 28). -/
  fillerGapFrom : GapOrigin
  /-- The rate the upgrade asks for, "a faster baud (115200)" (R268). -/
  fastBaud : Nat
  /-- Host, R263 (a): whether filler precedes the first rung too; OPEN. -/
  fillerFirst : Bool
  /-- Host, R275: whether the whole upgrade is one ticket; OPEN. -/
  upgradeOneTicket : Bool
  /-- DLDATA_REG (R274); OPEN. -/
  dldataReg : Byte
  /-- DLCFG_INITWRITE (R274); OPEN. -/
  dlcfgInitWrite : Half
  /-- DLCFG_DONE (R274); OPEN. -/
  dlcfgDone : Half
  /-- DLCFG_INITCHECK (R274); OPEN. -/
  dlcfgInitCheck : Half
  /-- DLCFG_RUN (R274); OPEN. -/
  dlcfgRun : Half
  /-- IOCAP_FAST (R274); OPEN. -/
  iocapFast : Half
  /-- IOCAP_ORIG (R274); OPEN. -/
  iocapOrig : Half
  /-- PAD_BYTE (R274); OPEN. -/
  padByte : Byte
  deriving DecidableEq, Repr

/-- T_IB: "any natural number including 0" (R5, 91_not_in_source.md N1). -/
opaque OpenParam.tIb : Nat

/-- POLL_MAX less 1: POLL_MAX is "at least 1" (R5, 91_not_in_source.md N2). -/
opaque OpenParam.pollMaxLessOne : Nat

/-- R263 (a), left open. -/
opaque OpenParam.fillerFirst : Bool

/-- R263 (c), left open. -/
opaque OpenParam.fillerGapFrom : GapOrigin

/-- R275 and 90_conflicts.md C17, left open. -/
opaque OpenParam.upgradeOneTicket : Bool

/-- R274: no source gives a value. -/
opaque OpenParam.dldataReg : Byte

/-- R274: no source gives a value. -/
opaque OpenParam.dlcfgInitWrite : Half

/-- R274: no source gives a value. -/
opaque OpenParam.dlcfgDone : Half

/-- R274: no source gives a value. -/
opaque OpenParam.dlcfgInitCheck : Half

/-- R274: no source gives a value. -/
opaque OpenParam.dlcfgRun : Half

/-- R274: no source gives a value. -/
opaque OpenParam.iocapFast : Half

/-- R274: no source gives a value. -/
opaque OpenParam.iocapOrig : Half

/-- R274: no source gives a value. -/
opaque OpenParam.padByte : Byte

/-- The values of this hardware (R5). -/
def Config.hardware : Config where
  frameLen := 4
  tResp := 250
  aeaMax := 100
  aeaReg := 0x0B#8
  nopReg := 0x00#8
  tickMs := 1
  rxDepth := 16
  tIb := OpenParam.tIb
  pollMax := OpenParam.pollMaxLessOne + 1
  tArb := 5000
  baudLadder := [4800, 9600, 19200, 38400, 57600, 115200]
  fillerMax := 5
  fillerGap := 10
  fillerGapFrom := OpenParam.fillerGapFrom
  fastBaud := 115200
  fillerFirst := OpenParam.fillerFirst
  upgradeOneTicket := OpenParam.upgradeOneTicket
  dldataReg := OpenParam.dldataReg
  dlcfgInitWrite := OpenParam.dlcfgInitWrite
  dlcfgDone := OpenParam.dlcfgDone
  dlcfgInitCheck := OpenParam.dlcfgInitCheck
  dlcfgRun := OpenParam.dlcfgRun
  iocapFast := OpenParam.iocapFast
  iocapOrig := OpenParam.iocapOrig
  padByte := OpenParam.padByte

end Sys2Proof
end

