-- ==== Sys2Proof/Syntax.lean ====
section
/-! DEFINITION. The instructions: one constructor per row of spec/opcode_table.json (30_encoding.md R112). -/

namespace Sys2Proof

/-- The encoding spaces of 30_encoding.md R90 and the column `space` of the opcode table. -/
inductive Space where
  /-- A frame the block sends. -/
  | wireRequest
  /-- A frame the block receives. -/
  | wireResponse
  /-- A word on the command port. -/
  | command
  /-- The codec's own ports: "wired to their own ports ... and have no opcode". -/
  | codecPort
  deriving DecidableEq, Repr

/-- One constructor per opcode-table row.

A command constructor carries every operand bit that the command latch loads at acceptance (41_byte_primitives.md
R168), including those its operation ignores, except where the rule forces the bit (`rw` of XRD and XWR, R190,
R191). Bits 27:25 of a command word are latched by nothing (R98) and are in no constructor. A frame constructor
carries every bit but the checksum nibble, which the other 28 bits determine (R106). -/
inductive Instr where
  /-- RDF: read request frame (R94). -/
  | rdf (reg : Byte) (data : Half)
  /-- WRF: write request frame (R94). -/
  | wrf (reg : Byte) (data : Half)
  /-- RSP.OK: response with status 0 (R95); `x` is byte0[3:2], which enters the checksum only (R93). -/
  | rspOk (x : BitVec 2) (reg : Byte) (data : Half)
  /-- RSP.XE: response with status 1 (R95). -/
  | rspXe (x : BitVec 2) (reg : Byte) (data : Half)
  /-- RSP.AEA: response with status 2 (R95). -/
  | rspAea (x : BitVec 2) (reg : Byte) (data : Half)
  /-- RSP.CP: response with status 3 (R95). -/
  | rspCp (x : BitVec 2) (reg : Byte) (data : Half)
  /-- XRD reg, data: register read transaction (R190). -/
  | xrd (reg : Byte) (data : Half)
  /-- XWR reg, data: register write transaction (R191). -/
  | xwr (reg : Byte) (data : Half)
  /-- SND rw, reg, data: send-only transaction (R192). -/
  | snd (rw : BitVec 1) (reg : Byte) (data : Half)
  /-- AEA n: extended-address read (R222); `rw` and `reg` are ignored but latched. -/
  | aea (rw : BitVec 1) (reg : Byte) (n : Half)
  /-- POLL (R225); all operands ignored but latched. -/
  | poll (rw : BitVec 1) (reg : Byte) (data : Half)
  /-- FLUSH (R165); all operands ignored but latched. -/
  | flush (rw : BitVec 1) (reg : Byte) (data : Half)
  /-- TXB byte (R163): `b` is cmd[7:0]; `hi` is cmd[15:8], ignored but latched. -/
  | txb (rw : BitVec 1) (reg : Byte) (hi : Byte) (b : Byte)
  /-- RXB (R164); all operands ignored but latched. -/
  | rxb (rw : BitVec 1) (reg : Byte) (data : Half)
  /-- ILL: op 0x8 to 0xF (R229); `sub` is cmd[30:28], so that op is 1 followed by `sub`. -/
  | ill (sub : BitVec 3) (rw : BitVec 1) (reg : Byte) (data : Half)
  /-- CSUM(b0, b1, b2, b3), on the decoder port (R130, R27). -/
  | csum (b0 b1 b2 b3 : Byte)
  /-- ENC(rw, reg, v), on the encoder port (R131); `v` is the integer operand that R96 folds. -/
  | enc (rw : BitVec 1) (reg : Byte) (v : Int)
  /-- DEC(b0, b1, b2, b3), on the decoder port (R132). -/
  | dec (b0 b1 b2 b3 : Byte)
  deriving DecidableEq, Repr

/-- The encoding space of an instruction (the table's column `space`). -/
def Instr.space : Instr → Space
  | .rdf _ _ => .wireRequest
  | .wrf _ _ => .wireRequest
  | .rspOk _ _ _ => .wireResponse
  | .rspXe _ _ _ => .wireResponse
  | .rspAea _ _ _ => .wireResponse
  | .rspCp _ _ _ => .wireResponse
  | .xrd _ _ => .command
  | .xwr _ _ => .command
  | .snd _ _ _ => .command
  | .aea _ _ _ => .command
  | .poll _ _ _ => .command
  | .flush _ _ _ => .command
  | .txb _ _ _ _ => .command
  | .rxb _ _ _ => .command
  | .ill _ _ _ _ => .command
  | .csum _ _ _ _ => .codecPort
  | .enc _ _ _ => .codecPort
  | .dec _ _ _ _ => .codecPort

end Sys2Proof
end

