-- ==== Sys2Proof/WellFormed.lean ====
section
/-! DEFINITION. Which instruction terms are instructions. Every other bound is in the operands' types. -/

namespace Sys2Proof

/-- The integer operand domain of 30_encoding.md R96: "This spec defines the integer-level operand domain as
−65536 ≤ v ≤ 65535". -/
def dataInDomain (v : Int) : Bool := decide (-65536 ≤ v) && decide (v ≤ 65535)

/-- An instruction is well formed when its integer operand, if it has one, is in the domain of R96: "An integer
outside that domain has no encoding and a model refuses it". -/
def Instr.wellFormed : Instr → Bool
  | .rdf _ _ => true
  | .wrf _ _ => true
  | .rspOk _ _ _ => true
  | .rspXe _ _ _ => true
  | .rspAea _ _ _ => true
  | .rspCp _ _ _ => true
  | .xrd _ _ => true
  | .xwr _ _ => true
  | .snd _ _ _ => true
  | .aea _ _ _ => true
  | .poll _ _ _ => true
  | .flush _ _ _ => true
  | .txb _ _ _ _ => true
  | .rxb _ _ _ => true
  | .ill _ _ _ _ => true
  | .csum _ _ _ _ => true
  | .enc _ _ v => dataInDomain v
  | .dec _ _ _ _ => true

end Sys2Proof
end

