-- ==== Sys2Proof/Machine/Operands.lean ====
section
/-! DEFINITION. Operand forms: the fields of a command word (30_encoding.md R98), the bytes and the data word of a
frame (R6, R96, R97), the fold of an integer operand (R96), and the register ids the spec names (20_memory.md R70). -/

namespace Sys2Proof

/-- A frame as one number: `F[31:24] = b0` (R6). -/
def Frame.toWord (f : Frame) : Word := f.b0 ++ f.b1 ++ f.b2 ++ f.b3

/-- The frame whose bytes stand in `w` as R6 numbers them. -/
def Frame.ofWord (w : Word) : Frame :=
  ⟨w.extractLsb' 24 8, w.extractLsb' 16 8, w.extractLsb' 8 8, w.extractLsb' 0 8⟩

/-- `byte2 = data / 256`, the slice d[15:8] (R96, R134). -/
def dataHi (d : Half) : Byte := d.extractLsb' 8 8

/-- `byte3 = data % 256`, the slice d[7:0] (R96, R134). -/
def dataLo (d : Half) : Byte := d.extractLsb' 0 8

/-- `data = byte2*256 + byte3`, big-endian (R63, R97). -/
def Frame.data (f : Frame) : Half := f.b2 ++ f.b3

/-- The bytes of a frame in wire order (R62). -/
def Frame.bytes (f : Frame) : List Byte := [f.b0, f.b1, f.b2, f.b3]

/-- Byte `i` of a frame, byte0 first (R25, R29). -/
def Frame.byte (f : Frame) (i : BitVec 2) : Byte :=
  if i = 0#2 then f.b0 else if i = 1#2 then f.b1 else if i = 2#2 then f.b2 else f.b3

/-- FF FF FF FF: what `rxbuf` shows after a response deadline (R30, R195). -/
def Frame.allOnes : Frame := ⟨0xFF#8, 0xFF#8, 0xFF#8, 0xFF#8⟩

/-- 00 00 00 00. -/
def Frame.zero : Frame := ⟨0#8, 0#8, 0#8, 0#8⟩

/-- R96: `d = v mod 65536` on the domain −65536 ≤ v ≤ 65535; outside it there is no encoding. -/
def foldData (v : Int) : Option Half :=
  if dataInDomain v then some (BitVec.ofInt 16 v) else none

/-- cmd[31:28] (R98). -/
def cmdOp (w : Word) : BitVec 4 := w.extractLsb' 28 4

/-- cmd[24] (R98). -/
def cmdRw (w : Word) : BitVec 1 := w.extractLsb' 24 1

/-- cmd[23:16] (R98). -/
def cmdReg (w : Word) : Byte := w.extractLsb' 16 8

/-- cmd[15:0] (R98). -/
def cmdData (w : Word) : Half := w.extractLsb' 0 16

/-- The word `op<<28 | rw<<24 | reg<<16 | data` with 000 in bits 27:25 (R98, R109). -/
def cmdWord (op : BitVec 4) (rw : BitVec 1) (reg : Byte) (data : Half) : Word :=
  op ++ 0#3 ++ rw ++ reg ++ data

/-- The device registers the document names (R70). The block treats all ids alike. -/
inductive DeviceReg where
  | noOp
  | serial
  | extendedAddress
  | ioCapability
  | downloadConfig
  | downloadStatus
  | power
  | outputEnable
  | frequencyTHz
  | frequency100MHz
  | mode
  | powerWave
  deriving DecidableEq, Repr

/-- The ids of R70 (0x32 and 0x90 as 90_conflicts.md C11 reads them). -/
def DeviceReg.id : DeviceReg → Byte
  | .noOp => 0x00#8
  | .serial => 0x04#8
  | .extendedAddress => 0x0B#8
  | .ioCapability => 0x0D#8
  | .downloadConfig => 0x14#8
  | .downloadStatus => 0x15#8
  | .power => 0x31#8
  | .outputEnable => 0x32#8
  | .frequencyTHz => 0x35#8
  | .frequency100MHz => 0x36#8
  | .mode => 0x90#8
  | .powerWave => 0xE0#8

end Sys2Proof
end

