-- ==== Sys2Proof/Machine/Flags.lean ====
section
/-! DEFINITION. The codec of spec/40_codec.md: the checksum nibble (CSUM), the packer (ENC), the validator and
unpacker (DEC). Every flag the spec computes comes from here: `ok` and the status field. -/

namespace Sys2Proof

/-- CSUM (R130), the document's formula: `bip8 = (b0 & 0x0F) ^ b1 ^ b2 ^ b3; bip4 = (bip8 >> 4) ^ (bip8 & 0x0F)`. -/
def csum (b0 b1 b2 b3 : Byte) : Nibble :=
  let bip8 : Byte := (b0 &&& 0x0F#8) ^^^ b1 ^^^ b2 ^^^ b3
  ((bip8 >>> 4) ^^^ (bip8 &&& 0x0F#8)).setWidth 4

/-- CSUM of the four bytes of a frame. -/
def Frame.csum (f : Frame) : Nibble := Sys2Proof.csum f.b0 f.b1 f.b2 f.b3

/-- The frame with low nibble `n` in byte0 and the checksum that fits (R106: "for each choice of the other 28 bits
one checksum nibble fits"). -/
def sealFrame (n : Nibble) (reg : Byte) (d : Half) : Frame :=
  let c := csum (n.setWidth 8) reg (dataHi d) (dataLo d)
  ⟨(c.setWidth 8 <<< 4) ||| n.setWidth 8, reg, dataHi d, dataLo d⟩

/-- ENC (R131): `b0 = (c << 4) | rw`, bits 3:1 are 0; `b1 = reg`, `b2 = d[15:8]`, `b3 = d[7:0]`. -/
def encFrame (rw : BitVec 1) (reg : Byte) (d : Half) : Frame := sealFrame (rw.setWidth 4) reg d

/-- A response frame with bits 3:2 of byte0 equal `x` and status `st` (R92), its checksum good. -/
def rspFrame (x : BitVec 2) (st : BitVec 2) (reg : Byte) (d : Half) : Frame := sealFrame (x ++ st) reg d

/-- The result of DEC (R132). -/
structure Decoded where
  ok : Bool
  status : BitVec 2
  reg : Byte
  data : Half
  deriving DecidableEq, Repr

/-- `ok = (CSUM(b0,b1,b2,b3) == (b0 >> 4))` (R132). -/
def Frame.ok (f : Frame) : Bool := decide (f.csum = f.b0.extractLsb' 4 4)

/-- `b0 & 0x03`, the status bits of a response (R92, R97). -/
def Frame.statusBits (f : Frame) : BitVec 2 := f.b0.extractLsb' 0 2

/-- Bits 3:2 of byte0 of a response, which enter the checksum only (R93). -/
def Frame.ignoredBits (f : Frame) : BitVec 2 := f.b0.extractLsb' 2 2

/-- DEC (R132): the status is forced to 0 when the checksum fails; `reg` and `data` are raw in any case. -/
def decFrame (f : Frame) : Decoded :=
  { ok := f.ok
    status := if f.ok then f.statusBits else 0#2
    reg := f.b1
    data := f.data }

/-- ENC on an integer operand (R96, R131): the fold first; refused outside the domain. -/
def encInt (rw : BitVec 1) (reg : Byte) (v : Int) : Option Frame := (foldData v).map (encFrame rw reg)

end Sys2Proof
end

