-- ==== Sys2Proof/Decode.lean ====
section
/-! DEFINITION. Decoding and encoding in the three spaces that have words: the command word (30_encoding.md R98 to
R100), the request frame (R91, R94) and the response frame (R92, R95). The codec functions have no opcode (R90). -/

namespace Sys2Proof

/-- Why a word is no instruction of its space. -/
inductive DecodeError where
  /-- Byte0's top nibble differs from the recomputed checksum (R106, R132). -/
  | badChecksum
  /-- Byte0[3:1] of a request is not 000 (R93, R94): no frame the block builds. -/
  | notARequest
  /-- The codec ports carry no opcode (R90). -/
  | noOpcode
  deriving DecidableEq, Repr

/-- A command word selects exactly one row of R99, by cmd[31:28] alone (R100): total. -/
def decodeCommand (w : Word) : Instr :=
  match cmdOp w with
  | 0x0#4 => .xrd (cmdReg w) (cmdData w)
  | 0x1#4 => .xwr (cmdReg w) (cmdData w)
  | 0x2#4 => .snd (cmdRw w) (cmdReg w) (cmdData w)
  | 0x3#4 => .aea (cmdRw w) (cmdReg w) (cmdData w)
  | 0x4#4 => .poll (cmdRw w) (cmdReg w) (cmdData w)
  | 0x5#4 => .flush (cmdRw w) (cmdReg w) (cmdData w)
  | 0x6#4 => .txb (cmdRw w) (cmdReg w) (dataHi (cmdData w)) (dataLo (cmdData w))
  | 0x7#4 => .rxb (cmdRw w) (cmdReg w) (cmdData w)
  | _ => .ill (w.extractLsb' 28 3) (cmdRw w) (cmdReg w) (cmdData w)

/-- The response kind of a status (R95). -/
def responseOf (st x : BitVec 2) (reg : Byte) (data : Half) : Instr :=
  if st = 0#2 then .rspOk x reg data
  else if st = 1#2 then .rspXe x reg data
  else if st = 2#2 then .rspAea x reg data
  else .rspCp x reg data

/-- A received frame with a good checksum is one of the four response kinds, by status (R95); with a bad one it is
no instruction (ChecksumError, R106). -/
def decodeResponse (f : Frame) : Except DecodeError Instr :=
  if f.ok then .ok (responseOf f.statusBits f.ignoredBits f.b1 f.data) else .error .badChecksum

/-- A request frame: byte0[3:0] is 0000 for RDF and 0001 for WRF (R94), with the checksum that fits (R91). -/
def decodeRequest (f : Frame) : Except DecodeError Instr :=
  match f.b0.extractLsb' 0 4 with
  | 0x0#4 => if f.ok then .ok (.rdf f.b1 f.data) else .error .badChecksum
  | 0x1#4 => if f.ok then .ok (.wrf f.b1 f.data) else .error .badChecksum
  | _ => .error .notARequest

/-- Decoding in a named space; total on all words, rejecting by name. -/
def decode : Space → Word → Except DecodeError Instr
  | .command, w => .ok (decodeCommand w)
  | .wireRequest, w => decodeRequest (Frame.ofWord w)
  | .wireResponse, w => decodeResponse (Frame.ofWord w)
  | .codecPort, _ => .error .noOpcode

/-- The word of an instruction in its space: R91 and R92 for frames, R98 and R99 for commands, bits 27:25 and the
bits an operation forces being 0 ("a host writes 000"). The codec functions have none (R90). -/
def encode : Instr → Option Word
  | .rdf reg d => some (encFrame 0#1 reg d).toWord
  | .wrf reg d => some (encFrame 1#1 reg d).toWord
  | .rspOk x reg d => some (rspFrame x 0#2 reg d).toWord
  | .rspXe x reg d => some (rspFrame x 1#2 reg d).toWord
  | .rspAea x reg d => some (rspFrame x 2#2 reg d).toWord
  | .rspCp x reg d => some (rspFrame x 3#2 reg d).toWord
  | .xrd reg d => some (cmdWord 0x0#4 0#1 reg d)
  | .xwr reg d => some (cmdWord 0x1#4 0#1 reg d)
  | .snd rw reg d => some (cmdWord 0x2#4 rw reg d)
  | .aea rw reg n => some (cmdWord 0x3#4 rw reg n)
  | .poll rw reg d => some (cmdWord 0x4#4 rw reg d)
  | .flush rw reg d => some (cmdWord 0x5#4 rw reg d)
  | .txb rw reg hi b => some (cmdWord 0x6#4 rw reg (hi ++ b))
  | .rxb rw reg d => some (cmdWord 0x7#4 rw reg d)
  | .ill sub rw reg d => some (cmdWord (1#1 ++ sub) rw reg d)
  | .csum _ _ _ _ => none
  | .enc _ _ _ => none
  | .dec _ _ _ _ => none

/-- The mask of an instruction's opcode-table row (R94, R95, R100); 0 for the codec functions, which have none. -/
def Instr.rowMask : Instr → Word
  | .rdf _ _ => 0x0F000000#32
  | .wrf _ _ => 0x0F000000#32
  | .rspOk _ _ _ => 0x03000000#32
  | .rspXe _ _ _ => 0x03000000#32
  | .rspAea _ _ _ => 0x03000000#32
  | .rspCp _ _ _ => 0x03000000#32
  | .xrd _ _ => 0xF0000000#32
  | .xwr _ _ => 0xF0000000#32
  | .snd _ _ _ => 0xF0000000#32
  | .aea _ _ _ => 0xF0000000#32
  | .poll _ _ _ => 0xF0000000#32
  | .flush _ _ _ => 0xF0000000#32
  | .txb _ _ _ _ => 0xF0000000#32
  | .rxb _ _ _ => 0xF0000000#32
  | .ill _ _ _ _ => 0x80000000#32
  | .csum _ _ _ _ => 0#32
  | .enc _ _ _ => 0#32
  | .dec _ _ _ _ => 0#32

/-- The match of an instruction's opcode-table row (R94, R95, R100). -/
def Instr.rowMatch : Instr → Word
  | .rdf _ _ => 0x00000000#32
  | .wrf _ _ => 0x01000000#32
  | .rspOk _ _ _ => 0x00000000#32
  | .rspXe _ _ _ => 0x01000000#32
  | .rspAea _ _ _ => 0x02000000#32
  | .rspCp _ _ _ => 0x03000000#32
  | .xrd _ _ => 0x00000000#32
  | .xwr _ _ => 0x10000000#32
  | .snd _ _ _ => 0x20000000#32
  | .aea _ _ _ => 0x30000000#32
  | .poll _ _ _ => 0x40000000#32
  | .flush _ _ _ => 0x50000000#32
  | .txb _ _ _ _ => 0x60000000#32
  | .rxb _ _ _ => 0x70000000#32
  | .ill _ _ _ _ => 0x80000000#32
  | .csum _ _ _ _ => 0#32
  | .enc _ _ _ => 0#32
  | .dec _ _ _ _ => 0#32

/-- The instruction the machine's fetch reads from a word: the command port's decoder, since the only word the
machine takes in as an instruction is the command word (R77, R90). A wire frame's word is read by `decode` in its own
space; a word alone does not name its space (log 6). Every row of the table has 32 bits; a longer word is none. -/
def decodeTableWord (nbits w : Nat) : Option Instr :=
  if nbits ≤ 32 then some (decodeCommand (BitVec.ofNat 32 w)) else none

end Sys2Proof
end

