-- ==== Sys2Proof/Machine/HostTypes.lean ====
section
/-! DEFINITION. The data of the host software around the block (spec/47_host_sequences.md): Connection, tickets, the
jobs that hold the transport, the outcomes returned to callers. What it does is in Machine/HostSide.lean. -/

namespace Sys2Proof.Machine

/-- ErrorCode, the outcome of a completed command; its numbers are `ErrorCode.code` (30_encoding.md R104). -/
inductive ErrorCode where
  | noError
  | executionError
  | extendedAddressError
  | commandPending
  | noResponse
  | checksumError
  | extendedAddressOverflow
  | pollTimeout
  | byteTimeout
  | illegalCommand
  deriving DecidableEq, Repr

/-- "current operating mode (normal vs. firmware-upgrade)" (R250); no rule reads or writes it (R312). -/
inductive OperatingMode where
  | normal
  | firmwareUpgrade
  deriving DecidableEq, Repr

/-- The caller-facing operations of R280 that go through the arbiter. Integer data operands are folded by R96. -/
inductive CallerOp where
  /-- `connect(port)`: open the port, then negotiate (R260 to R264). -/
  | connect
  /-- `read(Connection, register)`. -/
  | read (reg : Byte)
  /-- `write(Connection, register, value)`. -/
  | write (reg : Byte) (v : Int)
  /-- `transact(register, data, rw)`. -/
  | transact (reg : Byte) (v : Int) (rw : BitVec 1)
  /-- `read_extended(byte_count)`. -/
  | readExtended (n : Half)
  /-- `upgrade_firmware(Connection, image_bytes)`. -/
  | upgradeFirmware (image : List Byte)
  /-- `disconnect(Connection)`: "platform closes the port; no block command". -/
  | disconnect
  /-- Any one command word under a ticket (R252 "XRD, XWR, SND, and so on", R281 "any 32-bit command word"). -/
  | issue (w : Word)
  deriving DecidableEq, Repr

/-- The result type `u16|bytes` (R280): `value` when `kind = 0`, `aea_buf[0..aea_len-1]` when `kind = 1`. -/
inductive ResultData where
  | word (v : Half)
  | bytes (bs : List Byte)
  deriving DecidableEq, Repr

/-- The result ports as a host copies them before it releases its ticket (R24, R252, R257): the registers, and the valid bytes of
the AEA buffer. -/
structure ResultRegs where
  err : ErrorCode
  value : Half
  kind : BitVec 1
  status : BitVec 2
  rspReg : Byte
  rxbuf : Frame
  aea : List Byte
  rxCount : Nat
  rxOvf : Bool
  deriving DecidableEq, Repr

/-- The states of the upgrade (R266): Idle, six working states, Done and Failed. -/
inductive UpgradePhase where
  | idle
  | aborting
  | initiating
  | streaming
  | finalizing
  | verifying
  | restoring
  | done
  | failed
  deriving DecidableEq, Repr

/-- `Failed(<text>)`: the two texts the document gives, of Aborting and of Verifying, else the state the upgrade stopped in
(R273, R279). -/
inductive UpgradeFailure where
  /-- "pre-flight discrepancy" (R267). -/
  | preFlightDiscrepancy
  /-- "status invalid" (R271). -/
  | statusInvalid
  /-- A failure of another state, whose text is not given (91_not_in_source.md N24). -/
  | stoppedIn (p : UpgradePhase)
  deriving DecidableEq, Repr

/-- What a caller is told (R279, R280). -/
inductive HostOutcome where
  /-- `PortError` / `SerPortError`. -/
  | portError
  /-- `BaudError` / `SerBaudError`. -/
  | baudError
  /-- `ArbiterTimeout`. -/
  | arbiterTimeout
  /-- `connect` succeeded at this rate. -/
  | connected (baud : Nat)
  /-- A register operation completed with this result and ErrorCode (R280). -/
  | completed (r : ResultData) (e : ErrorCode)
  /-- An issued command word completed; all the result ports, since which of them a command writes depends on it (R252). -/
  | results (r : ResultRegs)
  /-- A reset abandoned the command; the link was recovered (R341). No rule names an outcome here (log 29). -/
  | commandAbandoned
  /-- `upgrade_firmware` reached Done. -/
  | upgradeDone
  /-- `upgrade_firmware` ended in Failed. -/
  | upgradeFailed (f : UpgradeFailure)
  /-- The port was closed. -/
  | disconnected
  /-- There is no Connection with an open transport, and no command was presented. No rule names an outcome here (log 23). -/
  | notConnected
  /-- The integer data operand is outside the domain of R96. -/
  | dataRefused
  deriving DecidableEq, Repr

/-- Where the writing of filler bytes stands, and the flush that ends it (R263). -/
inductive FillStage where
  /-- Write filler byte number `k` (from 0). -/
  | byte (k : Nat)
  /-- Wait about FILLER_GAP after filler byte `k`. -/
  | gap (k : Nat)
  /-- The flush that follows the filler bytes. -/
  | drain
  deriving DecidableEq, Repr

/-- Where one negotiation attempt stands (R261, R263). -/
inductive NegStage where
  /-- Open or re-open the transport at the rung's rate. -/
  | opening
  /-- The filler bytes of the attempt. -/
  | fill (f : FillStage)
  /-- "flush input". -/
  | flush
  /-- The no-op register read. -/
  | probe
  deriving DecidableEq, Repr

/-- Where the upgrade stands, one value per block command or platform action (R267 to R272; a FLUSH after each change of the
rate, R352, log 27). -/
inductive UpStage where
  | readSerial
  | writeAbort
  | writeIocapFast
  | reopenFast
  | flushFast
  | checkSerialFast
  | writeInit
  | stream
  | writeDone
  | pollDone
  | writeInitCheck
  | readStatus
  | writeRun
  | writeIocapOrig
  | reopenOrig
  | flushOrig
  | checkSerialOrig
  deriving DecidableEq, Repr

/-- What an upgrade remembers: the pre-flight serial number, the payload still to stream (R269 "mutated (shrunk) as
bytes are sent"), the rate to go back to. -/
structure UpgradeData where
  serial : ResultData
  payload : List Byte
  origBaud : Nat
  deriving DecidableEq, Repr

/-- What the owner of a ticket does with the transport. -/
inductive Job where
  /-- One block command. -/
  | command (i : Instr)
  /-- One block command, given as its word. -/
  | word (w : Word)
  /-- Baud negotiation at rung `rung` of the ladder. -/
  | negotiate (rung : Nat) (st : NegStage)
  /-- Firmware upgrade. -/
  | upgrade (st : UpStage) (u : UpgradeData)
  /-- Recovery after a reset abandoned a command, "the filler bytes of the negotiator ... and FLUSH" (R341); then `o` is the outcome. -/
  | recover (f : FillStage) (o : HostOutcome)
  /-- Close the port. -/
  | close
  /-- The outcome is known; it is returned and the ticket released. -/
  | finish (o : HostOutcome)
  deriving DecidableEq, Repr

/-- R251: "an opaque, strictly increasing integer identifying one caller's place in line". `created` is the host time
of its creation (R254); `caller` is the ticket number under which the caller waits for the outcome: `id` itself,
or the first ticket of an upgrade that takes one ticket per transaction (R275). -/
structure Ticket where
  id : Nat
  created : Nat
  caller : Nat
  job : Job
  deriving DecidableEq, Repr

/-- R250: "one opened link". The transport handle is held as whether it is open. `owner` is the caller whose `connect`
opened the link, from the successful `connect` to the explicit close (R250, log 23); `none` when there is no Connection. -/
structure Connection where
  owner : Option Nat
  transport : Bool
  baud : Nat
  mode : OperatingMode
  nextTicket : Nat
  queue : List Ticket
  deriving DecidableEq, Repr

/-- What the host software is doing for the head ticket. -/
inductive HostStage where
  /-- Nothing is under way; the next action of the head ticket's job may be taken. -/
  | ready
  /-- A command word is on the command port and not yet accepted. -/
  | presenting (w : Word)
  /-- The command was accepted; waiting for `done`. -/
  | waiting
  /-- `done` was seen; the result registers are still to be read. -/
  | seenDone
  /-- The ports showed that the command ended without a result: a reset abandoned it (R341). -/
  | abandoned
  /-- The platform was asked to (re-)open the transport at this rate. -/
  | opening (baud : Nat)
  /-- Waiting until this host time. -/
  | pausing (till : Nat)
  deriving DecidableEq, Repr

/-- The host software's state. `presentedAt` is the host time at which the last command word was put on the port (R263 (c));
`outcomes` is what callers were told, oldest first, by caller number. -/
structure HostSide where
  conn : Connection
  now : Nat
  presentedAt : Nat
  stage : HostStage
  outcomes : List (Nat × HostOutcome)
  deriving DecidableEq, Repr

/-- One step of the host software or of the platform under it. Which of them falls on which clock is the
environment's choice (R9). -/
inductive HostEvent where
  /-- A caller submits an operation (R252). -/
  | submit (op : CallerOp)
  /-- One millisecond passed for the host. -/
  | msPassed
  /-- The host software takes its next action for the head ticket. -/
  | act
  /-- The platform answers an open request. -/
  | portReply (opened : Bool)
  deriving DecidableEq, Repr

/-- No Connection is open, nobody waits (log 17). -/
def HostSide.initial : HostSide :=
  { conn := { owner := none, transport := false, baud := 0, mode := .normal, nextTicket := 0, queue := [] }
    now := 0
    presentedAt := 0
    stage := .ready
    outcomes := [] }

end Sys2Proof.Machine
end

