-- ==== Sys2Proof/Machine/Memory.lean ====
section
/-! DEFINITION. The AEA buffer space (spec/10_state.md R41, R45) as a list of (address, byte) cells in one canonical
form: addresses strictly rising, and no cell equal to what an unlisted address reads as. -/

namespace Sys2Proof.Machine

/-- The bytes of the AEA buffer that differ from the reset contents. -/
abbrev Memory := List Host.Cell

/-- What an unlisted address reads as: the reset contents, "every `aea_buf[i]` = 0x00" (R41, R47). -/
def Memory.blank : Byte := 0x00#8

/-- The canonical form. -/
abbrev Memory.wf (m : Memory) : Prop :=
  m.Pairwise (fun p q => p.1 < q.1) ∧ ∀ c ∈ m, c.2 ≠ Memory.blank

/-- Every listed address is below `n`. -/
abbrev Memory.below (m : Memory) (n : Nat) : Prop := ∀ c ∈ m, c.1 < n

/-- The byte at an address. -/
def Memory.read : Memory → Nat → Byte
  | [], _ => Memory.blank
  | (k, v) :: m, a => if k = a then v else Memory.read m a

/-- One cell, or none where its value is what an unlisted address reads as. -/
def Memory.cell (a : Nat) (b : Byte) : Memory := if b = Memory.blank then [] else [(a, b)]

/-- Store one byte, keeping the canonical form. -/
def Memory.write : Memory → Nat → Byte → Memory
  | [], a, b => Memory.cell a b
  | (k, v) :: m, a, b =>
    if a < k then Memory.cell a b ++ (k, v) :: m
    else if a = k then Memory.cell a b ++ m
    else (k, v) :: Memory.write m a b

/-- The addresses that exist are 0 to 99 (R41, R45). -/
def Memory.size : Nat := 100

end Sys2Proof.Machine
end

