-- ==== Sys2Proof/Machine/State.lean ====
section
/-! DEFINITION. The state of the machine (spec/10_state.md), its reset, and the reasons a step can stop. -/

namespace Sys2Proof.Machine

/-- The five phases of the sequencer (R31). -/
inductive Phase where
  /-- IDLE: no command in progress. -/
  | idle
  /-- SEND: offering byte `txi` of a request frame. -/
  | send
  /-- WAIT: waiting for four response bytes or the deadline. -/
  | wait
  /-- BSEND: offering the single byte of TXB. -/
  | bsend
  /-- BWAIT: RXB waiting for one byte or the inter-byte timeout. -/
  | bwait
  deriving DecidableEq, Repr

/-- What the frame in flight is (R32). -/
inductive Ctx where
  /-- MAIN: the first frame of an XRD, XWR or SND. -/
  | main
  /-- AEA: an extended-address continuation read. -/
  | aea
  /-- POLL: a no-op status poll. -/
  | poll
  deriving DecidableEq, Repr

/-- The values on the input pins during one clock (R21 to R27), and the host-software event of that clock, if any. -/
structure Pins where
  /-- Reset (R21). -/
  rst : Bool
  /-- Time base (R22). -/
  tick : Bool
  /-- Command port (R23). -/
  cmdValid : Bool
  /-- Command port: the word (R23). -/
  cmd : Word
  /-- Transmit byte port (R25). -/
  txReady : Bool
  /-- Receive byte port (R26). -/
  rxValid : Bool
  /-- Receive byte port: the byte (R26). -/
  rxData : Byte
  /-- AEA buffer read port (R24). -/
  aeaAddr : BitVec 7
  /-- Encoder port (R27). -/
  encRw : BitVec 1
  /-- Encoder port (R27). -/
  encReg : Byte
  /-- Encoder port (R27). -/
  encData : Half
  /-- Decoder port (R27), `dec_frame[31:24]` being byte0. -/
  decFrame : Frame
  /-- A step of the host software around the block (47_host_sequences.md); no pin of the block. -/
  host : Option HostEvent
  deriving DecidableEq, Repr

/-- All inputs inactive: what the environment does when it does nothing (log 1). -/
def Pins.quiet : Pins :=
  { rst := false, tick := false, cmdValid := false, cmd := 0#32, txReady := false, rxValid := false, rxData := 0#8
    aeaAddr := 0#7, encRw := 0#1, encReg := 0#8, encData := 0#16, decFrame := Frame.zero, host := none }

/-- Everything the spec gives the machine, the parameters, and the environment's part. -/
structure State where
  /-- The parameters (R5); no step changes them. -/
  cfg : Config
  /-- R31. -/
  phase : Phase
  /-- R32. -/
  ctx : Ctx
  /-- Command latch (R28). -/
  op : BitVec 4
  /-- Command latch (R28). -/
  rw : BitVec 1
  /-- Command latch (R28). -/
  reg : Byte
  /-- Command latch (R28). -/
  data : Half
  /-- Transmit frame register (R29). -/
  txbuf : Frame
  /-- Index of the byte offered next (R29). -/
  txi : BitVec 2
  /-- Receive frame register (R30). -/
  rxbuf : Frame
  /-- Tick counter (R33). -/
  timer : Nat
  /-- Payload bytes still to fetch (R32). -/
  rem : BitVec 7
  /-- Busy poll replies so far (R32). -/
  iter : Nat
  /-- Receive FIFO, head oldest (R34). -/
  rxfifo : List Byte
  /-- Sticky overflow flag (R35). -/
  rxOvf : Bool
  /-- ErrorCode of the last completed command (R36). -/
  err : ErrorCode
  /-- The 16-bit result (R37). -/
  value : Half
  /-- 0: the result is `value`; 1: it is the byte buffer (R38). -/
  kind : BitVec 1
  /-- Status field of the last first or poll reply (R39). -/
  status : BitVec 2
  /-- Byte1 of that reply (R40). -/
  rspReg : Byte
  /-- AEA buffer, addresses 0 to 99 (R41). -/
  aeaBuf : Memory
  /-- Number of valid AEA buffer bytes (R41). -/
  aeaLen : BitVec 7
  /-- The completion pulse (R42), held for the one clock it lasts. -/
  done : Bool
  /-- Ghost: every byte transferred on the transmit port (R43). -/
  txlog : List Byte
  /-- Ghost: every byte delivered by an RX step (R43). -/
  rxlog : List Byte
  /-- The pin values sampled at the coming clock edge. -/
  pins : Pins
  /-- The pin values of the clocks after it; when used up, `Pins.quiet` (log 1). -/
  inputs : List Pins
  /-- The host software around the block (47_host_sequences.md). -/
  host : HostSide
  deriving DecidableEq, Repr

/-- Why a step stops. The spec has no trap (R300) and nothing undefined inside the block (R358). -/
inductive Fault where
  /-- Raised by the Got-handler of an extended-address continuation when it would store at an AEA buffer address
  of 100 or more, which does not exist (R41, R45). Safe: the model stops. No state that meets the
  invariant of Safety.lean raises it (log 10). -/
  | aeaBufferOverrun
  deriving DecidableEq, Repr

/-- Why an instruction is refused. -/
inductive Refusal where
  /-- Raised by an arm of `exec` that has no meaning yet. Safe: the model stops. -/
  | notModelled (mnemonic : String)
  /-- Raised by ENC for an integer operand outside −65536 to 65535: "An integer outside that domain has no encoding
  and a model refuses it" (R96). Safe: the model stops. -/
  | dataOutsideDomain
  deriving DecidableEq, Repr

/-- The outcome of an instruction or a step. -/
abbrev Result := Host.Outcome State Fault Refusal

/-- The machine right after reset: every register at the value of R47 (log 1, 4, 5 and 17 for the fields the spec does
not give the block: pins, inputs, ghost logs at power-on, parameters, host software). -/
def State.reset : State :=
  { cfg := Config.hardware
    phase := .idle, ctx := .main
    op := 0#4, rw := 0#1, reg := 0#8, data := 0#16
    txbuf := Frame.zero, txi := 0#2, rxbuf := Frame.zero
    timer := 0, rem := 0#7, iter := 0
    rxfifo := [], rxOvf := false
    err := .noError, value := 0#16, kind := 0#1, status := 0#2, rspReg := 0#8
    aeaBuf := [], aeaLen := 0#7
    done := false
    txlog := [], rxlog := []
    pins := Pins.quiet, inputs := []
    host := HostSide.initial }

end Sys2Proof.Machine
end

