-- ==== Sys2Proof/Machine/Ports.lean ====
section
/-! DEFINITION. The output ports, views of the registers and of the input pins (spec/10_state.md R23 to R27, R42).
While `rst = 1` the ports `cmd_ready`, `tx_valid` and `done` read 0 (R340, log 3). -/

namespace Sys2Proof.Machine

/-- The number of an ErrorCode (30_encoding.md R104). -/
def ErrorCode.code : ErrorCode → BitVec 4
  | .noError => 0#4
  | .executionError => 1#4
  | .extendedAddressError => 2#4
  | .commandPending => 3#4
  | .noResponse => 4#4
  | .checksumError => 5#4
  | .extendedAddressOverflow => 6#4
  | .pollTimeout => 7#4
  | .byteTimeout => 8#4
  | .illegalCommand => 15#4

/-- The ErrorCode a status field is reported as (R103, R104). -/
def ErrorCode.ofStatus (st : BitVec 2) : ErrorCode :=
  if st = 0#2 then .noError
  else if st = 1#2 then .executionError
  else if st = 2#2 then .extendedAddressError
  else .commandPending

/-- `busy = (phase ≠ IDLE)` (R42). -/
def State.busy (s : State) : Bool := decide (s.phase ≠ .idle)

/-- "`cmd_ready = 1` exactly when `phase = IDLE` and `rst = 0`" (R23). -/
def State.cmdReady (s : State) : Bool := decide (s.phase = .idle) && !s.pins.rst

/-- `tx_valid` (R25, R340). -/
def State.txValid (s : State) : Bool := (decide (s.phase = .send) || decide (s.phase = .bsend)) && !s.pins.rst

/-- `tx_data` while a byte is offered: `txbuf[txi]` in SEND, `txbuf[0]` in BSEND (R25). The spec gives the port no value in
other phases. -/
def State.txData (s : State) : Option Byte :=
  match s.phase with
  | .send => some (s.txbuf.byte s.txi)
  | .bsend => some s.txbuf.b0
  | _ => none

/-- The `done` port (R24, R340). -/
def State.donePort (s : State) : Bool := s.done && !s.pins.rst

/-- `err[3:0]` (R24, R36). -/
def State.errPort (s : State) : BitVec 4 := s.err.code

/-- `rxbuf[31:0] = rxbuf[0] ‖ rxbuf[1] ‖ rxbuf[2] ‖ rxbuf[3]` (R24). -/
def State.rxbufPort (s : State) : Word := s.rxbuf.toWord

/-- `rx_count` (R34). -/
def State.rxCount (s : State) : Nat := s.rxfifo.length

/-- The width of the port `rx_count`, `ceil(log2(RX_DEPTH+1))` (R24), written with the floor: `floor(log2(RX_DEPTH)) + 1`. -/
def rxCountWidth (c : Config) : Nat := Nat.log2 c.rxDepth + 1

/-- The port `rx_count` (R24). -/
def State.rxCountPort (s : State) : BitVec (rxCountWidth s.cfg) := BitVec.ofNat _ s.rxCount

/-- One byte of the AEA buffer. -/
def State.aeaByte (s : State) (a : Nat) : Byte := s.aeaBuf.read a

/-- `aea_rdata`: `aea_buf[aea_addr]` for `aea_addr < 100`, 0x00 for 100 to 127 (R24). -/
def State.aeaRdata (s : State) : Byte :=
  if s.pins.aeaAddr.toNat < Memory.size then s.aeaByte s.pins.aeaAddr.toNat else 0x00#8

/-- `enc_frame[31:0]` (R27, R131). -/
def State.encFrame (s : State) : Frame := Sys2Proof.encFrame s.pins.encRw s.pins.encReg s.pins.encData

/-- `dec_ok`, `dec_status`, `dec_reg`, `dec_data` (R27, R132). -/
def State.decoded (s : State) : Decoded := decFrame s.pins.decFrame

/-- `dec_csum[3:0]` (R27, R130). -/
def State.decCsum (s : State) : Nibble := s.pins.decFrame.csum

/-- The result of the last command as the host reads it (R38, R280): `value` when `kind = 0`, else the valid bytes of the
AEA buffer. -/
def State.result (s : State) : ResultData :=
  if s.kind = 0#1 then .word s.value else .bytes ((List.range s.aeaLen.toNat).map s.aeaByte)

/-- All the result ports (R24), whatever `kind` is: TXB and RXB leave `kind` as it was (R37, R38), and RXB answers in `value`. -/
def State.resultRegs (s : State) : ResultRegs :=
  { err := s.err, value := s.value, kind := s.kind, status := s.status, rspReg := s.rspReg, rxbuf := s.rxbuf
    aea := (List.range s.aeaLen.toNat).map s.aeaByte, rxCount := s.rxCount, rxOvf := s.rxOvf }

end Sys2Proof.Machine
end

