-- ==== Sys2Proof/Machine/Ops.lean ====
section
/-! DEFINITION. The named operations the meanings share: the command latch, SENDF, the completion step `complete` (the
block's counterpart of taking an exception, spec/60_exceptions.md R305; there is no return, R308), the receive FIFO,
the timer, the AEA buffer. -/

namespace Sys2Proof.Machine

/-- Sequencing of outcomes. -/
def andThen (r : Result) (k : State → Result) : Result :=
  match r with
  | .next s => k s
  | .fault f => .fault f
  | .refused f => .refused f

/-- Command latch: `op`, `rw`, `reg`, `data` are loaded at acceptance (R28, R168). -/
def latch (op : BitVec 4) (rw : BitVec 1) (reg : Byte) (data : Half) (s : State) : State :=
  { s with op := op, rw := rw, reg := reg, data := data }

/-- SENDF(f), the starting step: `txbuf <- f; txi <- 0; phase <- SEND` (R160). -/
def sendf (f : Frame) (s : State) : State := { s with txbuf := f, txi := 0#2, phase := .send }

/-- `complete(err = e)` (R305): `err <- e; phase <- IDLE; done <- 1`; nothing else changes. The named result registers
are written by the caller before it, in the same step. -/
def complete (e : ErrorCode) (s : State) : State := { s with err := e, phase := .idle, done := true }

/-- A command is accepted only when `cmd_ready = 1` (R23, R168); "a word offered while busy is ignored" (R281, log 8). -/
def whenReady (accept : State → State) (s : State) : Result :=
  if s.cmdReady then .next (accept s) else .next s

/-- A response frame is acted on only in `WAIT` (R161, R169, log 9). -/
def whenWaiting (handler : State → Result) (s : State) : Result :=
  if s.phase = .wait then handler s else .next s

/-- `RX(b)` (R34): pushed while there is room, else dropped and `rx_ovf <- 1`. -/
def receive (b : Byte) (s : State) : State :=
  if s.rxCount < s.cfg.rxDepth then { s with rxfifo := s.rxfifo ++ [b], rxlog := s.rxlog ++ [b] }
  else { s with rxOvf := true, rxlog := s.rxlog ++ [b] }

/-- The value at which the timer saturates (R33). -/
def timerTop (c : Config) : Nat := max c.tResp c.tIb

/-- `TICK` (R33, R166): counts in WAIT and BWAIT only, saturating. -/
def tick (s : State) : State :=
  if s.phase = .wait ∨ s.phase = .bwait then { s with timer := min (s.timer + 1) (timerTop s.cfg) } else s

/-- The four oldest bytes of the FIFO as a frame, and the rest (R161: f0 is the oldest). -/
def popFrame : List Byte → Option (Frame × List Byte)
  | b0 :: b1 :: b2 :: b3 :: rest => some (⟨b0, b1, b2, b3⟩, rest)
  | _ => none

/-- `aea_buf[aea_len] <- b; aea_len <- aea_len + 1` (R221); an address of 100 or more does not exist (R41). -/
def aeaAppend (b : Byte) (s : State) : Result :=
  if s.aeaLen.toNat < Memory.size then
    .next { s with aeaBuf := s.aeaBuf.write s.aeaLen.toNat b, aeaLen := s.aeaLen + 1#7 }
  else .fault .aeaBufferOverrun

/-- Reset (R47, R340): every register at its reset value; `txlog` (R43), the parameters, the pins and the host software
stay. The command in progress is abandoned without completion and without `done` (R310). -/
def resetBlock (s : State) : State :=
  { s with
    phase := .idle, ctx := .main
    op := 0#4, rw := 0#1, reg := 0#8, data := 0#16
    txbuf := Frame.zero, txi := 0#2, rxbuf := Frame.zero
    timer := 0, rem := 0#7, iter := 0
    rxfifo := [], rxOvf := false
    err := .noError, value := 0#16, kind := 0#1, status := 0#2, rspReg := 0#8
    aeaBuf := [], aeaLen := 0#7
    done := false }

end Sys2Proof.Machine
end

