-- ==== Sys2Proof/Machine/ByteLevel.lean ====
section
/-! DEFINITION. The byte-level family (spec/41_byte_primitives.md): TXB, RXB, FLUSH, the transport's acceptance of a byte,
and the two engine steps of RXB. -/

namespace Sys2Proof.Machine

/-- TXACK (R160, R163): in SEND the byte `txbuf[txi]` joins `txlog`, and after byte3 the response timer starts; in BSEND
the byte `txbuf[0]` joins `txlog` and the command completes. No other phase offers a byte. -/
def txAck (s : State) : State :=
  match s.phase with
  | .send =>
    if s.txi = 3#2 then { s with txlog := s.txlog ++ [s.txbuf.byte s.txi], timer := 0, phase := .wait }
    else { s with txlog := s.txlog ++ [s.txbuf.byte s.txi], txi := s.txi + 1#2 }
  | .bsend => complete .noError { s with txlog := s.txlog ++ [s.txbuf.b0] }
  | _ => s

/-- TXB (R163): `txbuf[0] <- b; phase <- BSEND`. -/
def execTxb (rw : BitVec 1) (reg : Byte) (hi b : Byte) (s : State) : Result :=
  whenReady (fun s => { latch 0x6#4 rw reg (hi ++ b) s with txbuf := { s.txbuf with b0 := b }, phase := .bsend }) s

/-- RXB (R164): `timer <- 0; phase <- BWAIT`. -/
def execRxb (rw : BitVec 1) (reg : Byte) (data : Half) (s : State) : Result :=
  whenReady (fun s => { latch 0x7#4 rw reg data s with timer := 0, phase := .bwait }) s

/-- FLUSH (R165): the FIFO is emptied, `rx_ovf` cleared, the command completes. -/
def execFlush (rw : BitVec 1) (reg : Byte) (data : Half) (s : State) : Result :=
  whenReady (fun s => complete .noError { latch 0x5#4 rw reg data s with rxfifo := [], rxOvf := false }) s

/-- BGOT (R164): `b <- pop(); complete(err = 0, value = 0x00 ‖ b)`. -/
def byteGot (s : State) : State :=
  match s.rxfifo with
  | b :: rest => complete .noError { s with rxfifo := rest, value := 0x00#8 ++ b }
  | [] => s

/-- BTIMEOUT (R164): `complete(err = 8 (ByteTimeout), value = 0xFFFF)`. -/
def byteTimeout (s : State) : State := complete .byteTimeout { s with value := 0xFFFF#16 }

end Sys2Proof.Machine
end

