-- ==== Sys2Proof/Machine/CodecPorts.lean ====
section
/-! DEFINITION. The codec functions, "wired to their own ports" (spec/30_encoding.md R90, 10_state.md R27): presenting the
operands on the port is the whole effect, and the results are the combinational outputs `State.encFrame`,
`State.decoded` and `State.decCsum`. The codec "reads only its inputs, writes no register, takes no step of its own"
(40_codec.md), so no register changes (log 12). -/

namespace Sys2Proof.Machine

/-- The operands on the encoder port. -/
def driveEncoder (rw : BitVec 1) (reg : Byte) (d : Half) (s : State) : State :=
  { s with pins := { s.pins with encRw := rw, encReg := reg, encData := d } }

/-- The operand on the decoder port, which serves DEC and CSUM alike (R27). -/
def driveDecoder (f : Frame) (s : State) : State := { s with pins := { s.pins with decFrame := f } }

/-- CSUM (R130): the result is `dec_csum`. -/
def execCsum (b0 b1 b2 b3 : Byte) (s : State) : Result := .next (driveDecoder ⟨b0, b1, b2, b3⟩ s)

/-- ENC (R131): the integer operand is folded (R96), refused outside its domain; the result is `enc_frame`. -/
def execEnc (rw : BitVec 1) (reg : Byte) (v : Int) (s : State) : Result :=
  match foldData v with
  | some d => .next (driveEncoder rw reg d s)
  | none => .refused .dataOutsideDomain

/-- DEC (R132): the results are `dec_ok`, `dec_status`, `dec_reg`, `dec_data`. -/
def execDec (b0 b1 b2 b3 : Byte) (s : State) : Result := .next (driveDecoder ⟨b0, b1, b2, b3⟩ s)

end Sys2Proof.Machine
end

