-- ==== Sys2Proof/Machine/Extended.lean ====
section
/-! DEFINITION. The multi-frame family (spec/43_extended_and_poll.md): the extended-address procedure, POLL, ILL. -/

namespace Sys2Proof.Machine

/-- The continuation read, `ENC(0, 0x0B, 0x0000)` = B0 0B 00 00 (R105, R221). -/
def continuationFrame (c : Config) : Frame := encFrame 0#1 c.aeaReg 0#16

/-- The poll read, `ENC(0, 0x00, 0x0000)` = 00 00 00 00 (R105, R225). -/
def pollFrame (c : Config) : Frame := encFrame 0#1 c.nopReg 0#16

/-- AEA-entry(n) (R220): overflow is tested first, then the empty payload, else the first continuation read. -/
def aeaEntry (n : Half) (s : State) : State :=
  let s := { s with kind := 1#1, aeaLen := 0#7 }
  if s.cfg.aeaMax < n.toNat then complete .extendedAddressOverflow s
  else if n = 0#16 then complete .noError s
  else sendf (continuationFrame s.cfg) { s with rem := n.setWidth 7, ctx := .aea }

/-- AEA n (R222): `value <- n; status <- 0; rsp_reg <- 0x0B`, then AEA-entry(n). -/
def execAea (rw : BitVec 1) (reg : Byte) (n : Half) (s : State) : Result :=
  whenReady (fun s =>
    aeaEntry n { latch 0x3#4 rw reg n s with value := n, status := 0#2, rspReg := s.cfg.aeaReg }) s

/-- The end of a successful continuation frame (R221): the command completes when nothing remains, else the next
continuation read is sent. -/
def aeaContinue (s : State) : State :=
  if s.rem = 0#7 then complete .noError s else sendf (continuationFrame s.cfg) s

/-- The payload of a successful continuation frame (R221): two bytes are stored and `rem` falls by 2 while two or more
remain; the last byte of an odd count comes from byte2 and byte3 is dropped. -/
def aeaPayload (f : Frame) (s : State) : Result :=
  andThen (aeaAppend f.b2 s) fun s =>
    if 2 ≤ s.rem.toNat then
      andThen (aeaAppend f.b3 s) fun s => .next (aeaContinue { s with rem := s.rem - 2#7 })
    else .next (aeaContinue { s with rem := 0#7 })

/-- GOT with `ctx = AEA` on a good frame (R221): the first unsuccessful frame ends the command with its status. -/
def gotAea (f : Frame) (st : BitVec 2) (s : State) : Result :=
  let s := { s with rxbuf := f }
  if st = 0#2 then aeaPayload f s else .next (complete (.ofStatus st) s)

/-- POLL (R225): `iter <- 0; ctx <- POLL; SENDF(00 00 00 00)`. -/
def execPoll (rw : BitVec 1) (reg : Byte) (data : Half) (s : State) : Result :=
  whenReady (fun s => sendf (pollFrame s.cfg) { latch 0x4#4 rw reg data s with iter := 0, ctx := .poll }) s

/-- GOT with `ctx = POLL` on a good frame (R225): a nonzero status ends the poll; a clear high byte ends it with
NoError; else the busy reply is counted, and at POLL_MAX the command ends with PollTimeout. -/
def gotPoll (f : Frame) (st : BitVec 2) (s : State) : State :=
  let s := { s with rxbuf := f, rspReg := f.b1, value := f.data, kind := 0#1, status := st }
  if st ≠ 0#2 then complete (.ofStatus st) s
  else if f.b2 = 0#8 then complete .noError s
  else
    let s := { s with iter := s.iter + 1 }
    if s.cfg.pollMax ≤ s.iter then complete .pollTimeout s else sendf (pollFrame s.cfg) s

/-- ILL (R229): `complete(err = 15)`; the latch is still loaded, every other result register keeps its value. -/
def execIll (sub : BitVec 3) (rw : BitVec 1) (reg : Byte) (data : Half) (s : State) : Result :=
  whenReady (fun s => complete .illegalCommand (latch (1#1 ++ sub) rw reg data s)) s

end Sys2Proof.Machine
end

