-- ==== Sys2Proof/Machine/Transactions.lean ====
section
/-! DEFINITION. The transaction family (spec/42_transactions.md): XRD, XWR, SND, and the engine's GOT and TIMEOUT handlers,
which the command in flight selects. -/

namespace Sys2Proof.Machine

/-- XRD reg, data (R190): `rw <- 0; ctx <- MAIN; SENDF(ENC(0, reg, data))`. -/
def execXrd (reg : Byte) (data : Half) (s : State) : Result :=
  whenReady (fun s => sendf (encFrame 0#1 reg data) { latch 0x0#4 0#1 reg data s with ctx := .main }) s

/-- XWR reg, data (R191): `rw <- 1; ctx <- MAIN; SENDF(ENC(1, reg, data))`. -/
def execXwr (reg : Byte) (data : Half) (s : State) : Result :=
  whenReady (fun s => sendf (encFrame 1#1 reg data) { latch 0x1#4 1#1 reg data s with ctx := .main }) s

/-- SND rw, reg, data (R192): `ctx <- MAIN; SENDF(ENC(rw, reg, data))`. -/
def execSnd (rw : BitVec 1) (reg : Byte) (data : Half) (s : State) : Result :=
  whenReady (fun s => sendf (encFrame rw reg data) { latch 0x2#4 rw reg data s with ctx := .main }) s

/-- The command in flight is a SND: its reply is "drained and discarded rather than decoded" (R192). -/
def State.drains (s : State) : Bool := decide (s.ctx = .main) && decide (s.op = 0x2#4)

/-- GOT with op = SND (R192): `complete(err = 0, value = 0x0000, kind = 0, status = 0)`; `rxbuf` is not written. -/
def gotDrained (s : State) : State :=
  complete .noError { s with value := 0x0000#16, kind := 0#1, status := 0#2 }

/-- Got-handler MAIN on a good frame (R193): status 2 answered to a read starts the extended-address procedure, in the same
step; every other status is reported. -/
def gotMain (f : Frame) (st : BitVec 2) (s : State) : State :=
  let s := { s with rxbuf := f, rspReg := f.b1, value := f.data, kind := 0#1, status := st }
  if st = 2#2 ∧ s.rw = 0#1 then aeaEntry f.data s else complete (.ofStatus st) s

/-- GOT on a popped frame whose checksum is good and whose status is `st`. -/
def gotGood (f : Frame) (st : BitVec 2) (s : State) : Result :=
  if s.drains then .next (gotDrained s)
  else
    match s.ctx with
    | .main => .next (gotMain f st s)
    | .aea => gotAea f st s
    | .poll => .next (gotPoll f st s)

/-- GOT on a popped frame whose checksum fails (R193, R194, R221, R225): ChecksumError, the raw bytes kept; the status bits are
not looked at (R307). A SND discards it like any reply. -/
def gotBad (f : Frame) (s : State) : State :=
  if s.drains then gotDrained s
  else
    match s.ctx with
    | .aea => complete .checksumError { s with rxbuf := f }
    | _ => complete .checksumError { s with rxbuf := f, rspReg := f.b1, value := f.data, kind := 0#1, status := 0#2 }

/-- TIMEOUT (R192, R195, R221, R225): NoResponse. Nothing is popped (R161). -/
def gotTimeout (s : State) : State :=
  if s.drains then complete .noResponse { s with value := 0xFFFF#16, kind := 0#1, status := 0#2 }
  else
    match s.ctx with
    | .aea => complete .noResponse { s with rxbuf := Frame.allOnes }
    | _ =>
      complete .noResponse
        { s with rxbuf := Frame.allOnes, value := 0xFFFF#16, rspReg := 0xFF#8, status := 0#2, kind := 0#1 }

end Sys2Proof.Machine
end

