-- ==== Sys2Proof/Machine/Frames.lean ====
section
/-! DEFINITION. The frame rows of the opcode table. A request frame's effect in the block is SENDF of that frame
(spec/41_byte_primitives.md R160, log 13). A response frame's effect is the engine's GOT step on it (R161, R193, R221, R225, R192):
the fetch has popped its four bytes, and the handler of the command in flight runs (log 9). -/

namespace Sys2Proof.Machine

/-- RDF (R94, R131, R160): the block starts to send the read request `ENC(0, reg, data)`. -/
def execRdf (reg : Byte) (data : Half) (s : State) : Result := .next (sendf (encFrame 0#1 reg data) s)

/-- WRF (R94, R131, R160): the block starts to send the write request `ENC(1, reg, data)`. -/
def execWrf (reg : Byte) (data : Half) (s : State) : Result := .next (sendf (encFrame 1#1 reg data) s)

/-- RSP.OK (R95): a popped good frame with status 0 (NoError). -/
def execRspOk (x : BitVec 2) (reg : Byte) (data : Half) (s : State) : Result :=
  whenWaiting (gotGood (rspFrame x 0#2 reg data) 0#2) s

/-- RSP.XE (R95): a popped good frame with status 1 (ExecutionError). -/
def execRspXe (x : BitVec 2) (reg : Byte) (data : Half) (s : State) : Result :=
  whenWaiting (gotGood (rspFrame x 1#2 reg data) 1#2) s

/-- RSP.AEA (R95): a popped good frame with status 2 (ExtendedAddressError; byte count on the first reply to a read). -/
def execRspAea (x : BitVec 2) (reg : Byte) (data : Half) (s : State) : Result :=
  whenWaiting (gotGood (rspFrame x 2#2 reg data) 2#2) s

/-- RSP.CP (R95): a popped good frame with status 3 (CommandPending). -/
def execRspCp (x : BitVec 2) (reg : Byte) (data : Half) (s : State) : Result :=
  whenWaiting (gotGood (rspFrame x 3#2 reg data) 3#2) s

end Sys2Proof.Machine
end

