-- ==== Sys2Proof/Machine/Dispatch.lean ====
section
/-! DEFINITION. One arm per constructor of `Instr`, each one call of the instruction's meaning. -/

namespace Sys2Proof.Machine

def exec (i : Instr) (s : State) : Host.Outcome State Fault Refusal :=
  match i with
  | .rdf reg data => Sys2Proof.Machine.execRdf reg data s
  | .wrf reg data => Sys2Proof.Machine.execWrf reg data s
  | .rspOk x reg data => Sys2Proof.Machine.execRspOk x reg data s
  | .rspXe x reg data => Sys2Proof.Machine.execRspXe x reg data s
  | .rspAea x reg data => Sys2Proof.Machine.execRspAea x reg data s
  | .rspCp x reg data => Sys2Proof.Machine.execRspCp x reg data s
  | .xrd reg data => Sys2Proof.Machine.execXrd reg data s
  | .xwr reg data => Sys2Proof.Machine.execXwr reg data s
  | .snd rw reg data => Sys2Proof.Machine.execSnd rw reg data s
  | .aea rw reg n => Sys2Proof.Machine.execAea rw reg n s
  | .poll rw reg data => Sys2Proof.Machine.execPoll rw reg data s
  | .flush rw reg data => Sys2Proof.Machine.execFlush rw reg data s
  | .txb rw reg hi b => Sys2Proof.Machine.execTxb rw reg hi b s
  | .rxb rw reg data => Sys2Proof.Machine.execRxb rw reg data s
  | .ill sub rw reg data => Sys2Proof.Machine.execIll sub rw reg data s
  | .csum b0 b1 b2 b3 => Sys2Proof.Machine.execCsum b0 b1 b2 b3 s
  | .enc rw reg v => Sys2Proof.Machine.execEnc rw reg v s
  | .dec b0 b1 b2 b3 => Sys2Proof.Machine.execDec b0 b1 b2 b3 s

end Sys2Proof.Machine
end

