-- ==== Sys2Proof/Machine/Agents.lean ====
section
/-! DEFINITION. The atomic steps of the five agents and of reset (spec/00_scope.md R9, 41_byte_primitives.md R160 to R169),
and which of them fall on one clock edge, in which order (log 2). -/

namespace Sys2Proof.Machine

/-- The atomic steps; the rows of R169, with TICK (R166), RX (R167) and reset. -/
inductive AgentStep where
  /-- Host: CMD(w) (R168). -/
  | cmd (w : Word)
  /-- Transport-TX: TXACK (R160, R163). -/
  | txAck
  /-- Device / Transport-RX: RX(b) (R167). -/
  | rx (b : Byte)
  /-- Time base: TICK (R166). -/
  | tick
  /-- Engine: GOT (R161). -/
  | got
  /-- Engine: TIMEOUT (R161). -/
  | timeout
  /-- Engine: BGOT (R164). -/
  | bgot
  /-- Engine: BTIMEOUT (R164). -/
  | btimeout
  /-- `rst = 1` (R310). -/
  | reset
  deriving DecidableEq, Repr

/-- When a step may be taken (R160, R161, R164, R166 to R169). -/
def enabled : AgentStep → State → Bool
  | .cmd _, s => s.cmdReady
  | .txAck, s => decide (s.phase = .send) || decide (s.phase = .bsend)
  | .rx _, _ => true
  | .tick, _ => true
  | .got, s => decide (s.phase = .wait) && decide (4 ≤ s.rxCount)
  | .timeout, s => decide (s.phase = .wait) && decide (s.rxCount < 4) && decide (s.cfg.tResp ≤ s.timer)
  | .bgot, s => decide (s.phase = .bwait) && decide (1 ≤ s.rxCount)
  | .btimeout, s => decide (s.phase = .bwait) && decide (s.rxCount = 0) && decide (s.cfg.tIb ≤ s.timer)
  | .reset, s => s.pins.rst

/-- GOT (R161): four bytes are popped, oldest first, and read as one frame; a good one is a response instruction and runs as
such, a bad one is ChecksumError. -/
def got (s : State) : Result :=
  match popFrame s.rxfifo with
  | none => .next s
  | some (f, rest) =>
    match decodeResponse f with
    | .ok i => exec i { s with rxfifo := rest }
    | .error _ => .next (gotBad f { s with rxfifo := rest })

/-- Take a step; a step that is not enabled does nothing. -/
def perform (a : AgentStep) (s : State) : Result :=
  if enabled a s then
    match a with
    | .cmd w => exec (decodeCommand w) s
    | .txAck => .next (txAck s)
    | .rx b => .next (receive b s)
    | .tick => .next (tick s)
    | .got => got s
    | .timeout => .next (gotTimeout s)
    | .bgot => .next (byteGot s)
    | .btimeout => .next (byteTimeout s)
    | .reset => .next (resetBlock s)
  else .next s

/-- Steps one after the other, stopping at the first fault or refusal. -/
def performAll : List AgentStep → State → Result
  | [], s => .next s
  | a :: rest, s => andThen (perform a s) (performAll rest)

/-- The RX step of this clock, if a byte is presented (R26). -/
def rxSteps (p : Pins) : List AgentStep := if p.rxValid then [.rx p.rxData] else []

/-- The TICK step of this clock, if `tick` is pulsed (R22). -/
def tickSteps (p : Pins) : List AgentStep := if p.tick then [.tick] else []

/-- The engine step of WAIT, judged on the registers before the edge: GOT before TIMEOUT (R161, R307). -/
def waitSteps (s : State) : List AgentStep :=
  if 4 ≤ s.rxCount then [.got] else if s.cfg.tResp ≤ s.timer then [.timeout] else []

/-- The engine step of BWAIT, judged on the registers before the edge: BGOT before BTIMEOUT (R164, R307). -/
def byteWaitSteps (s : State) : List AgentStep :=
  if 1 ≤ s.rxCount then [.bgot] else if s.cfg.tIb ≤ s.timer then [.btimeout] else []

/-- The agent steps that fall on the coming clock edge, in their order. Reset wins over all (R310). A byte delivered on the edge
that accepts a FLUSH counts as before it (R165), so RX stands before CMD; a pop and a push on one edge both take effect,
the pop first (R34), so the engine's step stands before RX. TICK stands first and counts by the phase before the edge,
so an edge that enters WAIT or BWAIT counts no tick (R166). The engine is eager (R9). -/
def edgeSteps (s : State) : List AgentStep :=
  if s.pins.rst then [.reset]
  else
    tickSteps s.pins ++
      match s.phase with
      | .idle => rxSteps s.pins ++ (if s.pins.cmdValid then [.cmd s.pins.cmd] else [])
      | .send => rxSteps s.pins ++ (if s.pins.txReady then [.txAck] else [])
      | .bsend => rxSteps s.pins ++ (if s.pins.txReady then [.txAck] else [])
      | .wait => waitSteps s ++ rxSteps s.pins
      | .bwait => byteWaitSteps s ++ rxSteps s.pins

end Sys2Proof.Machine
end

