-- ==== Sys2Proof/Machine/Assembler.lean ====
section
/-! DEFINITION. The command syntax of spec/30_encoding.md R109, the pseudo-instructions of R110 and the environment script lines
of R111, as data. -/

namespace Sys2Proof.Machine

/-- A source line (R109, R110). Data operands are integers, folded by R96. -/
inductive AsmLine where
  | xrd (reg : Byte) (data : Int)
  | xwr (reg : Byte) (data : Int)
  | snd (rw : BitVec 1) (reg : Byte) (data : Int)
  | aea (n : Half)
  | poll
  | flush
  | txb (b : Byte)
  | rxb
  /-- `RD reg` = `XRD reg, 0`. -/
  | rd (reg : Byte)
  /-- `WR reg, v` = `XWR reg, v`. -/
  | wr (reg : Byte) (v : Int)
  /-- `NOPRD` = `XRD 0x00, 0`. -/
  | noprd
  /-- `STREAM word` = `SND 1, DLDATA_REG, word`. -/
  | stream (v : Int)
  deriving DecidableEq, Repr

/-- The instruction a line stands for, absent fields 0 (R109, R110); none for an integer outside the domain of R96. -/
def assemble (c : Config) : AsmLine → Option Instr
  | .xrd reg v => (foldData v).map (.xrd reg)
  | .xwr reg v => (foldData v).map (.xwr reg)
  | .snd rw reg v => (foldData v).map (.snd rw reg)
  | .aea n => some (.aea 0#1 0#8 n)
  | .poll => some (.poll 0#1 0#8 0#16)
  | .flush => some (.flush 0#1 0#8 0#16)
  | .txb b => some (.txb 0#1 0#8 0#8 b)
  | .rxb => some (.rxb 0#1 0#8 0#16)
  | .rd reg => some (.xrd reg 0#16)
  | .wr reg v => (foldData v).map (.xwr reg)
  | .noprd => some (.xrd 0x00#8 0#16)
  | .stream v => (foldData v).map (.snd 1#1 c.dldataReg)

/-- The word of a line: `op<<28 | rw<<24 | reg<<16 | data` (R109). -/
def assembleWord (c : Config) (l : AsmLine) : Option Word := (assemble c l).bind encode

/-- A clock in which the host presents `w` (R23). -/
def Pins.command (w : Word) : Pins := { Pins.quiet with cmdValid := true, cmd := w }

/-- A clock in which the transport accepts a byte (R25). -/
def Pins.accept : Pins := { Pins.quiet with txReady := true }

/-- A clock in which one byte arrives (R26). -/
def Pins.deliver (b : Byte) : Pins := { Pins.quiet with rxValid := true, rxData := b }

/-- A clock with a `tick` (R22). -/
def Pins.ticking : Pins := { Pins.quiet with tick := true }

/-- `tx:` the four bytes of a frame are accepted (R111). -/
def txScript : List Pins := List.replicate 4 Pins.accept

/-- `rx:` the bytes of a reply arrive (R111). -/
def rxScript (f : Frame) : List Pins := f.bytes.map Pins.deliver

/-- One exchange after the request was started: the request goes out, the reply `f` comes in, and one more clock in which the
engine pops it. -/
def exchangeScript (f : Frame) : List Pins := txScript ++ rxScript f ++ [Pins.quiet]

/-- `silence` after the request went out: T_RESP ticks and the clock of the TIMEOUT step (R111). -/
def silenceScript (c : Config) : List Pins := txScript ++ List.replicate c.tResp Pins.ticking ++ [Pins.quiet]

end Sys2Proof.Machine
end

