-- ==== Sys2Proof/Machine/HostSide.lean ====
section
/-! DEFINITION. What the host software around the block does (spec/47_host_sequences.md): the Request Arbiter (R251 to R258), the
Baud Negotiator (R260 to R265), the Firmware Upgrade State Machine (R266 to R275), the caller operations (R280). It
acts on the block only through the command port and reads only the result ports (R252). -/

namespace Sys2Proof.Machine

/-- The host software's next action for the owner of the transport. -/
inductive HostAct where
  /-- Present a command (R252). -/
  | present (i : Instr)
  /-- Present a command word as it stands (R252, R281). -/
  | offer (w : Word)
  /-- Have the platform (re-)open the transport at a rate (R261, R262). -/
  | reopen (baud : Nat)
  /-- Wait (R263). -/
  | pause (ms : Nat)
  /-- Have the platform close the port (R280). -/
  | close
  /-- Return the outcome to the caller and release the ticket (R257). -/
  | deliver (o : HostOutcome)
  deriving DecidableEq, Repr

/-! ## Filler bytes -/

/-- The filler bytes, "up to 5", and the flush after them (R263). -/
def startFiller (c : Config) : FillStage := if 0 < c.fillerMax then .byte 0 else .drain

/-- The action of each stage of the filler: `TXB 0x00`, the wait of about FILLER_GAP, `FLUSH` (R263). -/
def fillAct (c : Config) : FillStage → HostAct
  | .byte _ => .present (.txb 0#1 0#8 0#8 0#8)
  | .gap _ => .pause c.fillerGap
  | .drain => .present (.flush 0#1 0#8 0#16)

/-- What follows when the stage's command has completed; none after the flush. -/
def fillDone : FillStage → Option FillStage
  | .byte k => some (.gap k)
  | .gap k => some (.gap k)
  | .drain => none

/-- The gap after filler byte `k` is over: "stop as soon as `rx_count ≥ 4` or five have been sent" (R263). -/
def fillPaused (s : State) : FillStage → FillStage
  | .gap k => if 4 ≤ s.rxCount ∨ s.cfg.fillerMax ≤ k + 1 then .drain else .byte (k + 1)
  | f => f

/-! ## Baud Negotiator -/

/-- An attempt failed: the next rung, preceded by filler, or BaudError when the ladder is exhausted (R261, R263, R264). What
becomes of the port then is the model's choice: it is closed (`Connection.after`, log 23). -/
def nextRung (c : Config) (rung : Nat) : Job :=
  if rung + 1 < c.baudLadder.length then .negotiate (rung + 1) (.fill (startFiller c)) else .finish .baudError

/-- The action of each stage of an attempt (R261, R263). -/
def negotiateAct (c : Config) (rung : Nat) : NegStage → HostAct
  | .opening =>
    match c.baudLadder[rung]? with
    | some b => .reopen b
    | none => .deliver .baudError
  | .fill f => fillAct c f
  | .flush => .present (.flush 0#1 0#8 0#16)
  | .probe => .present (.xrd c.nopReg 0#16)

/-- What follows when the attempt's command has completed: "If the transaction returns NoError, that baud is selected and
negotiation stops"; "If it errors ..., advance to the next rate" (R261). The filler's flush is followed by the rate change, but on
the first rung, where the transport is open already (log 18). -/
def negotiateDone (s : State) (rung : Nat) : NegStage → Job
  | .fill f =>
    match fillDone f with
    | some f' => .negotiate rung (.fill f')
    | none => .negotiate rung (if rung = 0 then .flush else .opening)
  | .flush => .negotiate rung .probe
  | .probe => if s.err = .noError then .finish (.connected s.host.conn.baud) else nextRung s.cfg rung
  | .opening => .negotiate rung .opening

/-! ## Firmware Upgrade State Machine -/

/-- "pad the payload to even length" (R269). -/
def padPayload (c : Config) (image : List Byte) : List Byte :=
  if image.length % 2 = 0 then image else image ++ [c.padByte]

/-- The next two payload bytes as a big-endian word (R269). -/
def streamWord : List Byte → Half
  | p :: q :: _ => p ++ q
  | [p] => p ++ 0x00#8
  | [] => 0#16

/-- The working state of R266 a stage belongs to (R267 to R272). -/
def UpStage.phase : UpStage → UpgradePhase
  | .readSerial => .aborting
  | .writeAbort => .aborting
  | .writeIocapFast => .initiating
  | .reopenFast => .initiating
  | .flushFast => .initiating
  | .checkSerialFast => .initiating
  | .writeInit => .initiating
  | .stream => .streaming
  | .writeDone => .finalizing
  | .pollDone => .finalizing
  | .writeInitCheck => .verifying
  | .readStatus => .verifying
  | .writeRun => .restoring
  | .writeIocapOrig => .restoring
  | .reopenOrig => .restoring
  | .flushOrig => .restoring
  | .checkSerialOrig => .restoring

/-- The state of R266 a job is in: Idle when it is no upgrade. -/
def Job.upgradePhase : Job → UpgradePhase
  | .upgrade st _ => st.phase
  | .finish .upgradeDone => .done
  | .finish (.upgradeFailed _) => .failed
  | .recover _ (.upgradeFailed _) => .failed
  | _ => .idle

/-- The command or platform action of each stage (R267 to R272). The abort flag is "value 2". FLUSH stands "after the change and
before the next frame command" (R352, R281). -/
def upgradeAct (c : Config) (u : UpgradeData) : UpStage → HostAct
  | .readSerial => .present (.xrd DeviceReg.serial.id 0#16)
  | .writeAbort => .present (.xwr DeviceReg.downloadConfig.id 2#16)
  | .writeIocapFast => .present (.xwr DeviceReg.ioCapability.id c.iocapFast)
  | .reopenFast => .reopen c.fastBaud
  | .flushFast => .present (.flush 0#1 0#8 0#16)
  | .checkSerialFast => .present (.xrd DeviceReg.serial.id 0#16)
  | .writeInit => .present (.xwr DeviceReg.downloadConfig.id c.dlcfgInitWrite)
  | .stream => .present (.snd 1#1 c.dldataReg (streamWord u.payload))
  | .writeDone => .present (.xwr DeviceReg.downloadConfig.id c.dlcfgDone)
  | .pollDone => .present (.poll 0#1 0#8 0#16)
  | .writeInitCheck => .present (.xwr DeviceReg.downloadConfig.id c.dlcfgInitCheck)
  | .readStatus => .present (.xrd DeviceReg.downloadStatus.id 0#16)
  | .writeRun => .present (.xwr DeviceReg.downloadConfig.id c.dlcfgRun)
  | .writeIocapOrig => .present (.xwr DeviceReg.ioCapability.id c.iocapOrig)
  | .reopenOrig => .reopen u.origBaud
  | .flushOrig => .present (.flush 0#1 0#8 0#16)
  | .checkSerialOrig => .present (.xrd DeviceReg.serial.id 0#16)

/-- The descriptive failure of a stage, "that state's" (R267, R271, R273, R279). -/
def UpStage.failure (st : UpStage) : UpgradeFailure :=
  match st.phase with
  | .aborting => .preFlightDiscrepancy
  | .verifying => .statusInvalid
  | p => .stoppedIn p

/-- The upgrade ends in Failed. -/
def upgradeFail (st : UpStage) : Job := .finish (.upgradeFailed st.failure)

/-- Go to a stage when the command returned NoError: "any ErrorCode other than NoError aborts the whole upgrade" (R273). -/
def upgradeIfOk (s : State) (st next : UpStage) (u : UpgradeData) : Job :=
  if s.err = .noError then .upgrade next u else upgradeFail st

/-- The stage that streams what is left, or the end of Streaming: "until payload is empty" (R269). -/
def streamOrDone (u : UpgradeData) : Job := if u.payload = [] then .upgrade .writeDone u else .upgrade .stream u

/-- What follows when the stage's command has completed (R267 to R273; the write of the done bit may be answered
CommandPending, R270). The reply to an I/O-capability write may be lost at the rate change; R352 calls what a host then does
a gap of the document, and the model follows the policy of R273, which makes it Failed (log 25). -/
def upgradeDone (s : State) (u : UpgradeData) (st : UpStage) : Job :=
  match st with
  | .readSerial => upgradeIfOk s st .writeAbort { u with serial := s.result, origBaud := s.host.conn.baud }
  | .writeAbort => upgradeIfOk s st .writeIocapFast u
  | .writeIocapFast => upgradeIfOk s st .reopenFast u
  | .reopenFast => .upgrade .reopenFast u
  | .flushFast => upgradeIfOk s st .checkSerialFast u
  | .checkSerialFast => if s.result = u.serial then upgradeIfOk s st .writeInit u else upgradeFail st
  | .writeInit => if s.err = .noError then streamOrDone u else upgradeFail st
  | .stream => if s.err = .noError then streamOrDone { u with payload := u.payload.drop 2 } else upgradeFail st
  | .writeDone => if s.err = .commandPending then .upgrade .pollDone u else upgradeIfOk s st .writeInitCheck u
  | .pollDone => upgradeIfOk s st .writeInitCheck u
  | .writeInitCheck => upgradeIfOk s st .readStatus u
  | .readStatus => if s.value.getLsbD 0 then upgradeIfOk s st .writeRun u else upgradeFail st
  | .writeRun => upgradeIfOk s st .writeIocapOrig u
  | .writeIocapOrig => upgradeIfOk s st .reopenOrig u
  | .reopenOrig => .upgrade .reopenOrig u
  | .flushOrig => upgradeIfOk s st .checkSerialOrig u
  | .checkSerialOrig =>
    if s.err = .noError ∧ s.result = u.serial then .finish .upgradeDone else upgradeFail st

/-! ## Jobs -/

/-- The job an operation becomes (R280). Integer operands are folded by R96. That `disconnect` takes a ticket like the others, waits
its turn and can be evicted, is the model's choice: R280 names a ticket for `read` and `write` only (log 23). -/
def jobOf (c : Config) : CallerOp → Job
  | .connect => .negotiate 0 .opening
  | .read reg => .command (.xrd reg 0#16)
  | .write reg v =>
    match foldData v with
    | some d => .command (.xwr reg d)
    | none => .finish .dataRefused
  | .transact reg v rw =>
    match foldData v with
    | some d => if rw = 0#1 then .command (.xrd reg d) else .command (.xwr reg d)
    | none => .finish .dataRefused
  | .readExtended n => .command (.aea 0#1 0#8 n)
  | .upgradeFirmware image =>
    .upgrade .readSerial { serial := .word 0#16, payload := padPayload c image, origBaud := 0 }
  | .disconnect => .close
  | .issue w => .word w

/-- The next action of a job. -/
def jobAct (c : Config) : Job → HostAct
  | .command i => .present i
  | .word w => .offer w
  | .negotiate rung st => negotiateAct c rung st
  | .upgrade st u => upgradeAct c u st
  | .recover f _ => fillAct c f
  | .close => .close
  | .finish o => .deliver o

/-- The job after its block command has completed; the block's state holds the results. A register operation returns the result type
of R280; an issued word returns every result port. -/
def jobDone (s : State) : Job → Job
  | .command _ => .finish (.completed s.result s.err)
  | .word _ => .finish (.results s.resultRegs)
  | .negotiate rung st => negotiateDone s rung st
  | .upgrade st u => upgradeDone s u st
  | .recover f o =>
    match fillDone f with
    | some f' => .recover f' o
    | none => .finish o
  | .close => .close
  | .finish o => .finish o

/-- The job after a reset abandoned its command (R341, "Recovery is the host's"): filler bytes and a flush under the same ticket, then
the outcome; a negotiation goes to its next attempt, which begins with them. What the callers are told, and that the host
recovers by itself, is the model's choice (log 29); so is that the recovery neither opens the port nor negotiates again (R342,
log 30). -/
def jobAbandoned (c : Config) : Job → Job
  | .command _ => .recover (startFiller c) .commandAbandoned
  | .word _ => .recover (startFiller c) .commandAbandoned
  | .negotiate rung _ => nextRung c rung
  | .upgrade st _ => .recover (startFiller c) (.upgradeFailed st.failure)
  | .recover _ o => .recover (startFiller c) o
  | .close => .close
  | .finish o => .finish o

/-- The job after the platform answered an open request. A failed open is PortError, "fatal, no retry" (R264, log 18); in an
upgrade it ends the upgrade. -/
def jobOpened (c : Config) (opened : Bool) : Job → Job
  | .negotiate rung .opening =>
    if opened then .negotiate rung (if rung = 0 ∧ c.fillerFirst then .fill (startFiller c) else .flush)
    else .finish .portError
  | .upgrade .reopenFast u => if opened then .upgrade .flushFast u else upgradeFail .reopenFast
  | .upgrade .reopenOrig u => if opened then .upgrade .flushOrig u else upgradeFail .reopenOrig
  | j => j

/-- The job after its pause. -/
def jobPaused (s : State) : Job → Job
  | .negotiate rung (.fill f) => .negotiate rung (.fill (fillPaused s f))
  | .recover f o => .recover (fillPaused s f) o
  | j => j

/-- An upgrade that takes one ticket per transaction (R275) goes back to the end of the queue between transactions. A negotiation
never does: that the whole ladder runs under the ticket of its `connect` is the model's choice, 90_conflicts.md C17 leaving
the scope of that ticket open (R265, log 22). -/
def Job.requeues (c : Config) : Job → Bool
  | .upgrade _ _ => !c.upgradeOneTicket
  | _ => false

/-! ## Request Arbiter -/

/-- `submit(op) -> ticket` (R252): a new, strictly larger ticket at the end of the queue (R251, R253). -/
def submitOp (c : Config) (op : CallerOp) (h : HostSide) : HostSide :=
  let t : Ticket := { id := h.conn.nextTicket, created := h.now, caller := h.conn.nextTicket, job := jobOf c op }
  { h with conn := { h.conn with nextTicket := h.conn.nextTicket + 1, queue := h.conn.queue ++ [t] } }

/-- A waiting ticket has exceeded the hard wait bound, "measured from ticket creation" (R254, log 18). -/
def Ticket.expired (c : Config) (now : Nat) (t : Ticket) : Bool := decide (c.tArb < now - t.created)

/-- What the caller of a ticket is told when the ticket ends without its command, for the reason `o`. The caller of an upgrade
whose earlier tickets did reach the command port is told Failed with the state's failure in place of `o`, since "any non-NoError
outcome" is "fatal to the upgrade" (R273) and ArbiterTimeout means that the caller never reached the port (R317, log 24). -/
def Ticket.abandoned (o : HostOutcome) (t : Ticket) : HostOutcome :=
  match t.job with
  | .upgrade st _ => if t.caller = t.id then o else .upgradeFailed st.failure
  | _ => o

/-- Eviction (R255): a ticket not at the head whose bound is exceeded is removed, wherever it sits, and its call fails with
ArbiterTimeout (a later ticket of an upgrade: log 24); the head and the remaining waiters keep their order. -/
def evict (c : Config) (h : HostSide) : HostSide :=
  match h.conn.queue with
  | [] => h
  | t :: rest =>
    { h with
      conn := { h.conn with queue := t :: rest.filter (fun w => !w.expired c h.now) }
      outcomes := h.outcomes ++ (rest.filter (fun w => w.expired c h.now)).map fun w => (w.caller, w.abandoned .arbiterTimeout) }

/-- What an outcome does to the Connection, which "lives from successful connect to explicit close" (R250): a successful `connect`
gives it its owner; a close, and a `connect` that failed, leave no Connection and no open port. That the port is closed
after BaudError (R264), and that the ticket counter goes on counting over a close, are the model's choices (log 23). -/
def Connection.after (caller : Nat) (c : Connection) : HostOutcome → Connection
  | .connected _ => { c with owner := some caller }
  | .portError => { c with owner := none, transport := false }
  | .baudError => { c with owner := none, transport := false }
  | .disconnected => { c with owner := none, transport := false }
  | _ => c

/-- Release (R257): the head ticket is popped and its caller told the outcome. -/
def release (o : HostOutcome) (h : HostSide) : HostSide :=
  match h.conn.queue with
  | [] => h
  | t :: rest =>
    { h with
      conn := { h.conn.after t.caller o with queue := rest }
      stage := .ready
      outcomes := h.outcomes ++ [(t.caller, o)] }

/-- The head ticket goes on with job `j`. -/
def continueJob (j : Job) (h : HostSide) : HostSide :=
  match h.conn.queue with
  | [] => h
  | t :: rest => { h with conn := { h.conn with queue := { t with job := j } :: rest }, stage := .ready }

/-- The head ticket's transaction is over: the job goes on under the same ticket, or, for an upgrade with one ticket per
transaction (R275), under a new one at the end of the queue. -/
def advanceJob (c : Config) (j : Job) (h : HostSide) : HostSide :=
  if j.requeues c then
    match h.conn.queue with
    | [] => h
    | t :: rest =>
      let t' : Ticket := { id := h.conn.nextTicket, created := h.now, caller := t.caller, job := j }
      { h with conn := { h.conn with nextTicket := h.conn.nextTicket + 1, queue := rest ++ [t'] }, stage := .ready }
  else continueJob j h

/-- A Connection whose transport is open (R250): only then are commands of an operation on it presented. -/
def Connection.usable (c : Connection) : Bool := c.owner.isSome && c.transport

/-- The operations on a Connection (R280); `connect` makes one, and closing needs none. -/
def Job.needsConnection : Job → Bool
  | .command _ => true
  | .word _ => true
  | .upgrade _ _ => true
  | .negotiate _ _ => false
  | .recover _ _ => false
  | .close => false
  | .finish _ => false

/-- The action for the head ticket. An operation on a Connection that is not there, before `connect` has succeeded, after
BaudError or PortError, or after the close that a waiting ticket outlived, is answered without a command; what a host does
there is the model's choice (R280, R342, log 23). A Connection that lived through a reset of the block is one that is there: the next
command needs no new open and negotiation, which is the model's choice as well (R342, log 30). -/
def headAct (c : Config) (conn : Connection) (t : Ticket) : HostAct :=
  if t.job.needsConnection && !conn.usable then .deliver (t.abandoned .notConnected) else jobAct c t.job

/-- A command word goes on the port; the host notes when (R263 (c)). -/
def presentWord (w : Word) (h : HostSide) : HostSide := { h with stage := .presenting w, presentedAt := h.now }

/-- The end of a pause of `ms`, measured from where the parameter says (R263 (c), log 28). -/
def pauseEnd (c : Config) (ms : Nat) (h : HostSide) : Nat :=
  match c.fillerGapFrom with
  | .presented => h.presentedAt + ms
  | .completed => h.now + ms

/-- The host software takes an action for the head ticket. It presents nothing and changes no rate while `busy = 1` (R281,
R352). Closing the port leaves the waiting tickets in the queue (the model's choice, log 23). -/
def startAct (s : State) (act : HostAct) (h : HostSide) : HostSide :=
  match act with
  | .present i =>
    match encode i with
    | some w => if s.busy then h else presentWord w h
    | none => h
  | .offer w => if s.busy then h else presentWord w h
  | .reopen b => if s.busy then h else { h with stage := .opening b, conn := { h.conn with transport := false } }
  | .pause ms => { h with stage := .pausing (pauseEnd s.cfg ms h) }
  | .close => release .disconnected h
  | .deliver o => release o h

/-- The action of the head ticket's owner, by what it is doing. The result ports are used only while `busy = 0` (R281, R343). -/
def headStep (s : State) (t : Ticket) (h : HostSide) : HostSide :=
  match h.stage with
  | .ready => startAct s (headAct s.cfg h.conn t) h
  | .seenDone => if s.busy then h else advanceJob s.cfg (jobDone s t.job) h
  | .abandoned => continueJob (jobAbandoned s.cfg t.job) h
  | .pausing till => if till ≤ h.now then continueJob (jobPaused s t.job) h else h
  | .presenting _ => h
  | .waiting => h
  | .opening _ => h

/-- The platform's answer to an open request of the head ticket's owner. -/
def portAnswer (c : Config) (opened : Bool) (t : Ticket) (h : HostSide) : HostSide :=
  match h.stage with
  | .opening b =>
    continueJob (jobOpened c opened t.job)
      { h with conn := { h.conn with transport := opened, baud := if opened then b else h.conn.baud } }
  | _ => h

/-- One host event. `s` is the block after the clock edge. "only the ticket at the head of the queue may use the
transport" (R251). -/
def hostEvent (s : State) (e : HostEvent) (h : HostSide) : HostSide :=
  match e with
  | .submit op => submitOp s.cfg op h
  | .msPassed => evict s.cfg { h with now := h.now + 1 }
  | .act =>
    match h.conn.queue with
    | [] => h
    | t :: _ => headStep s t h
  | .portReply opened =>
    match h.conn.queue with
    | [] => h
    | t :: _ => portAnswer s.cfg opened t h

/-- What the host's side of the command port sees at a clock edge, on the ports of the clock that the edge ends: its word is
accepted when `cmd_ready = 1` (R23), and the port `done` tells it that the command has completed (R24, R252, R257). That port reads
0 while `rst = 1` (R340), so a completion whose clock has `rst = 1` is not seen (log 26). Only a reset ends a command without
`done` (R305, R310): `busy = 0` while the host still waits, or `cmd_ready = 0` and `busy = 0` before it has read the results, tell it
that the command is abandoned (R340, R341, log 29). A reset leaves a live Connection as it is: that it calls for no new open and
negotiation (R342) is the model's choice (log 30). -/
def hostObserve (pre : State) (h : HostSide) : HostSide :=
  match h.stage with
  | .presenting w =>
    if pre.cmdReady ∧ pre.pins.cmdValid ∧ pre.pins.cmd = w then { h with stage := .waiting } else h
  | .waiting =>
    if pre.donePort then { h with stage := .seenDone }
    else if pre.busy then h else { h with stage := .abandoned }
  | .seenDone => if pre.busy || pre.cmdReady then h else { h with stage := .abandoned }
  | _ => h

/-- The host side at one clock edge. -/
def hostEdge (pre post : State) : HostSide :=
  let h := hostObserve pre post.host
  match pre.pins.host with
  | some e => hostEvent post e h
  | none => h

/-- The arbiter has the command port from the first ticket on, and as long as a Connection lives or a ticket is in the queue
(R256, log 21). -/
def HostSide.hasPort (h : HostSide) : Bool := h.conn.owner.isSome || !h.conn.queue.isEmpty

/-- The command port of the next clock. It carries the word the host software presents (R252); while the arbiter has the port
and presents nothing, no command is offered, "no operation bypasses it" (R256); else the environment drives it (log 21). -/
def hostDrive (h : HostSide) (p : Pins) : Pins :=
  match h.stage with
  | .presenting w => { p with cmdValid := true, cmd := w }
  | _ => if h.hasPort then { p with cmdValid := false } else p

end Sys2Proof.Machine
end

