-- ==== Sys2Proof/Machine/Step.lean ====
section
/-! DEFINITION. One step of the machine: one rising clock edge (spec/10_state.md R21, 00_scope.md R9). -/

namespace Sys2Proof.Machine

/-- `done` lasts one clock (R42): every edge ends it, and a completion on that edge sets it again. -/
def endPulse (s : State) : State := { s with done := false }

/-- The clock goes on: the host software's step of this clock is taken, and the input pins take their next values, idle when the
environment's list is used up (log 1), the command port carrying the host software's word if it presents one. -/
def nextClock (pre post : State) : State :=
  let h := hostEdge pre post
  { post with host := h, pins := hostDrive h (post.inputs.headD Pins.quiet), inputs := post.inputs.tail }

/-- One rising clock edge: the agent steps that fall on it, in order, then the next clock. -/
def step (s : State) : Host.Outcome State Fault Refusal :=
  andThen (performAll (edgeSteps s) (endPulse s)) fun t => .next (nextClock s t)

/-- `s` with the word `w` on the command port, the engine idle and `rst` low, so that the very next step accepts it
(R23, log 7). -/
def State.withFetchWord (s : State) (nbits w : Nat) : State :=
  { s with
    phase := .idle
    pins := { s.pins with rst := false, cmdValid := true, cmd := BitVec.ofNat 32 (w % 2 ^ nbits) } }

end Sys2Proof.Machine
end

