-- ==== Sys2Proof/Safety.lean ====
section
/-! DEFINITION. What counts as a safe run: the invariant of the block, the order of the host's ticket queue, and a step that
does not stop. -/

namespace Sys2Proof.Machine

/-- The limits the spec puts on the parameters (00_scope.md R5): RX_DEPTH "must be at least 4", POLL_MAX "at least 1";
AEA_MAX no larger than the AEA buffer (R41, R221); FRAME_LEN is the length of a `Frame`. -/
structure Config.Legal (c : Config) : Prop where
  frameLen : c.frameLen = 4
  rxDepth : 4 ≤ c.rxDepth
  pollMax : 1 ≤ c.pollMax
  aeaMax : c.aeaMax ≤ Memory.size

/-- The frame that the command in flight sends (R168, R220, R221, R225). -/
def State.frameInFlight (s : State) : Frame :=
  match s.ctx with
  | .main => Sys2Proof.encFrame s.rw s.reg s.data
  | .aea => continuationFrame s.cfg
  | .poll => pollFrame s.cfg

/-- What the latch and the counters hold while a frame is in flight, by context (R32, R168, R220, R225). -/
def State.FlightOk (s : State) : Prop :=
  match s.ctx with
  | .main => (s.op = 0x0#4 ∧ s.rw = 0#1) ∨ (s.op = 0x1#4 ∧ s.rw = 1#1) ∨ s.op = 0x2#4
  | .aea =>
    (s.op = 0x0#4 ∨ s.op = 0x3#4) ∧ s.kind = 1#1 ∧ 1 ≤ s.rem.toNat ∧ s.aeaLen.toNat + s.rem.toNat ≤ Memory.size
  | .poll => s.op = 0x4#4 ∧ s.iter < s.cfg.pollMax

/-- The invariant of the block: it holds at reset, and every step keeps it. -/
structure Inv (s : State) : Prop where
  /-- The parameters are legal (R5). -/
  cfg : Config.Legal s.cfg
  /-- `rx_count` is 0 to RX_DEPTH (R34). -/
  fifo : s.rxCount ≤ s.cfg.rxDepth
  /-- The timer saturates (R33). -/
  timer : s.timer ≤ timerTop s.cfg
  /-- The AEA buffer is in canonical form. -/
  mem : s.aeaBuf.wf
  /-- No write goes outside `aea_buf` (R221). -/
  memBelow : s.aeaBuf.below Memory.size
  /-- `aea_len` is 0 to 100 (R41). -/
  len : s.aeaLen.toNat ≤ Memory.size
  /-- `rem` is 0 to 100 (R32). -/
  rem : s.rem.toNat ≤ Memory.size
  /-- `iter` never exceeds POLL_MAX (R225). -/
  iter : s.iter ≤ s.cfg.pollMax
  /-- In SEND and WAIT the frame register holds the frame of the command in flight, whose latch and counters fit. -/
  flight : s.phase = .send ∨ s.phase = .wait → s.txbuf = s.frameInFlight ∧ s.FlightOk
  /-- BSEND belongs to TXB (R163). -/
  bsend : s.phase = .bsend → s.op = 0x6#4
  /-- BWAIT belongs to RXB (R164). -/
  bwait : s.phase = .bwait → s.op = 0x7#4
  /-- `done` is seen in IDLE only (R305). -/
  done : s.done = true → s.phase = .idle

/-- The host's queue is in ticket order, and every ticket is older than the counter (R251, R253). -/
structure HostSide.Ordered (h : HostSide) : Prop where
  rising : h.conn.queue.Pairwise (fun a b => a.id < b.id)
  issued : ∀ t ∈ h.conn.queue, t.id < h.conn.nextTicket

/-- What a negotiation's stage says of the rate of the link (R261): from the flush before the probe on it is the rung's; on the first
rung, which is opened before its filler, from the filler on. -/
def NegStage.RateOk (c : Config) (rung baud : Nat) : NegStage → Prop
  | .opening => True
  | .flush => c.baudLadder[rung]? = some baud
  | .probe => c.baudLadder[rung]? = some baud
  | .fill _ => rung = 0 → c.baudLadder[rung]? = some baud

/-- The Connection's rate during a negotiation (R261): the rate being opened is the rung's, the rate of a running attempt is the
rung's, and a waiting ticket has not begun its negotiation. -/
structure HostSide.RateKnown (c : Config) (h : HostSide) : Prop where
  /-- While the platform opens the transport, the head negotiation waits for it, at its rung's rate. -/
  opening : ∀ t rest rung st b, h.conn.queue = t :: rest → t.job = .negotiate rung st → h.stage = .opening b →
    st = .opening ∧ c.baudLadder[rung]? = some b
  /-- With an empty queue nobody waits for the platform. -/
  nobody : ∀ b, h.conn.queue = [] → h.stage ≠ .opening b
  /-- The head negotiation's stage fits the rate. -/
  head : ∀ t rest rung st, h.conn.queue = t :: rest → t.job = .negotiate rung st → st.RateOk c rung h.conn.baud
  /-- A waiting negotiation is at its beginning. -/
  waiting : ∀ t rest w rung st, h.conn.queue = t :: rest → w ∈ rest → w.job = .negotiate rung st → st = .opening

/-- A step that does not stop. -/
def State.Runs (s : State) : Prop := ∃ t, step s = .next t

end Sys2Proof.Machine
end

