-- ==== Sys2Proof/Certificates/Slice0/Obligations.lean ====
section
/-! DEFINITION. The statements for the provers, from the numbered rules of spec/. A next state is written out in full as an update of
the state before, so each result statement is also a completion statement and a frame. -/

open Sys2Proof Sys2Proof.Machine

/-! ## Codec -/

/-- R130: CSUM is the exclusive or of the seven nibbles below byte0's top nibble, equal to the document's formula, and it is
what the port `dec_csum` shows when CSUM's operands are presented; no register changes. That CSUM puts its operands on the port and
does nothing else is log 12. -/
def Obligations.CsumIsXorOfSevenNibbles : Prop :=
  (∀ (b0 b1 b2 b3 : Byte) (s : State),
    exec (.csum b0 b1 b2 b3) s = .next { s with pins := { s.pins with decFrame := ⟨b0, b1, b2, b3⟩ } } ∧
    State.decCsum { s with pins := { s.pins with decFrame := ⟨b0, b1, b2, b3⟩ } } =
      b0.extractLsb' 0 4 ^^^ b1.extractLsb' 4 4 ^^^ b1.extractLsb' 0 4 ^^^ b2.extractLsb' 4 4 ^^^ b2.extractLsb' 0 4 ^^^
        b3.extractLsb' 4 4 ^^^ b3.extractLsb' 0 4 ∧
    State.decCsum { s with pins := { s.pins with decFrame := ⟨b0, b1, b2, b3⟩ } } =
      ((((b0 &&& 0x0F#8) ^^^ b1 ^^^ b2 ^^^ b3) >>> 4) ^^^ (((b0 &&& 0x0F#8) ^^^ b1 ^^^ b2 ^^^ b3) &&& 0x0F#8)).setWidth 4) ∧
  csum 0x00#8 0x00#8 0x00#8 0x00#8 = 0x0#4 ∧ csum 0xFF#8 0xFF#8 0xFF#8 0xFF#8 = 0xF#4 ∧
  csum 0x00#8 0x31#8 0x00#8 0x00#8 = 0x2#4

/-- R131: ENC on its port: the four bytes field by field, the fold of the integer operand, the refusal outside its domain, and
injectivity, with the rule's worked frames. That ENC puts its operands on the port and does nothing else is log 12. -/
def Obligations.EncPacksRequestFrame : Prop :=
  (∀ (rw : BitVec 1) (reg : Byte) (v : Int) (s : State), -65536 ≤ v → v ≤ 65535 →
    ∃ t : State, exec (.enc rw reg v) s = .next t ∧
      t = { s with pins := { s.pins with encRw := rw, encReg := reg, encData := BitVec.ofInt 16 v } } ∧
      t.encFrame.b1 = reg ∧
      (t.encFrame.b2.toNat : Int) = v % 65536 / 256 ∧
      (t.encFrame.b3.toNat : Int) = v % 65536 % 256 ∧
      t.encFrame.b0.extractLsb' 4 4 = csum (0#7 ++ rw) t.encFrame.b1 t.encFrame.b2 t.encFrame.b3 ∧
      t.encFrame.b0.extractLsb' 1 3 = 0#3 ∧
      t.encFrame.b0.extractLsb' 0 1 = rw) ∧
  (∀ (rw : BitVec 1) (reg : Byte) (v : Int) (s : State), v < -65536 ∨ 65535 < v →
    exec (.enc rw reg v) s = .refused .dataOutsideDomain) ∧
  (∀ (rw rw' : BitVec 1) (reg reg' : Byte) (d d' : Half), encFrame rw reg d = encFrame rw' reg' d' →
    rw = rw' ∧ reg = reg' ∧ d = d') ∧
  encFrame 0#1 0x00#8 0x0000#16 = ⟨0x00#8, 0x00#8, 0x00#8, 0x00#8⟩ ∧
  encFrame 1#1 0xFF#8 0xFFFF#16 = ⟨0x11#8, 0xFF#8, 0xFF#8, 0xFF#8⟩ ∧
  encInt 1#1 0x36#8 (-1) = some ⟨0x41#8, 0x36#8, 0xFF#8, 0xFF#8⟩ ∧
  encInt 1#1 0x36#8 (-65536) = some ⟨0x41#8, 0x36#8, 0x00#8, 0x00#8⟩ ∧
  encInt 1#1 0x36#8 (-32768) = some ⟨0xC1#8, 0x36#8, 0x80#8, 0x00#8⟩ ∧
  encFrame 1#1 0x32#8 0x0008#16 = ⟨0x81#8, 0x32#8, 0x00#8, 0x08#8⟩

/-- R132: DEC on its port: `ok` exactly when the recomputed checksum equals byte0's top nibble, register and data raw in any case,
the status forced to 0 when the checksum fails; no register changes; with the rule's corner cases. That DEC puts its operands on
the port and does nothing else is log 12. -/
def Obligations.DecValidatesAndUnpacks : Prop :=
  (∀ (b0 b1 b2 b3 : Byte) (s : State), ∃ t : State, exec (.dec b0 b1 b2 b3) s = .next t ∧
    t = { s with pins := { s.pins with decFrame := ⟨b0, b1, b2, b3⟩ } } ∧
    (t.decoded.ok = true ↔ csum b0 b1 b2 b3 = b0.extractLsb' 4 4) ∧
    t.decoded.reg = b1 ∧
    t.decoded.data.toNat = b2.toNat * 256 + b3.toNat ∧
    (t.decoded.ok = true → t.decoded.status = (b0 &&& 0x03#8).setWidth 2) ∧
    (t.decoded.ok = false → t.decoded.status = 0#2)) ∧
  decFrame ⟨0x00#8, 0x00#8, 0x00#8, 0x00#8⟩ = ⟨true, 0#2, 0x00#8, 0x0000#16⟩ ∧
  decFrame ⟨0xFF#8, 0xFF#8, 0xFF#8, 0xFF#8⟩ = ⟨true, 3#2, 0xFF#8, 0xFFFF#16⟩ ∧
  decFrame ⟨0x22#8, 0x04#8, 0x00#8, 0x05#8⟩ = ⟨false, 0#2, 0x04#8, 0x0005#16⟩ ∧
  decFrame ⟨0x70#8, 0x31#8, 0x03#8, 0xE8#8⟩ = ⟨true, 0#2, 0x31#8, 0x03E8#16⟩

/-- R133: the round trip on the integer domain, and which good frames are the image of an ENC. -/
def Obligations.CodecRoundTrip : Prop :=
  (∀ (rw : BitVec 1) (reg : Byte) (v : Int), -65536 ≤ v → v ≤ 65535 →
    ∃ f, encInt rw reg v = some f ∧ (decFrame f).ok = true ∧ (decFrame f).status.toNat = rw.toNat ∧
      (decFrame f).reg = reg ∧ ((decFrame f).data.toNat : Int) = v % 65536) ∧
  (∀ f : Frame, f.ok = true →
    ((∃ rw reg d, encFrame rw reg d = f) ↔ f.b0.extractLsb' 1 3 = 0#3))

/-- R136 (a), (c), (d): every single-bit error of a good frame is detected; exchanging byte1, byte2 and byte3 is not; two errors
at one bit position of two different nibbles are not. -/
def Obligations.ChecksumDetectsSingleBitErrors : Prop :=
  (∀ (f : Frame) (i : Fin 32), f.ok = true → (Frame.ofWord (f.toWord ^^^ (1#32 <<< i.val))).ok = false) ∧
  (∀ b0 b1 b2 b3 : Byte, csum b0 b2 b1 b3 = csum b0 b1 b2 b3 ∧ csum b0 b1 b3 b2 = csum b0 b1 b2 b3) ∧
  (∀ (f : Frame) (i j : Fin 32), i.val % 4 = j.val % 4 → i ≠ j → f.ok = true →
    (Frame.ofWord (f.toWord ^^^ (1#32 <<< i.val) ^^^ (1#32 <<< j.val))).ok = true)

/-- R106: a group of four bytes is ChecksumError exactly when the recomputed nibble differs, every other group is an
instruction, and for each choice of the other 28 bits exactly one checksum nibble fits. -/
def Obligations.EveryByteGroupIsClassified : Prop :=
  (∀ f : Frame, decodeResponse f = .error .badChecksum ↔ csum f.b0 f.b1 f.b2 f.b3 ≠ f.b0.extractLsb' 4 4) ∧
  (∀ f : Frame, csum f.b0 f.b1 f.b2 f.b3 = f.b0.extractLsb' 4 4 → ∃ i, decodeResponse f = .ok i) ∧
  (∀ (n : Nibble) (b1 b2 b3 : Byte), ∃! c : Nibble, csum (c ++ n) b1 b2 b3 = (c ++ n : Byte).extractLsb' 4 4)

/-- R95: the four response kinds by mask and match, valid only with a good checksum, and the two request kinds looped back. -/
def Obligations.ResponseKindsAndLoopback : Prop :=
  (∀ f : Frame, f.ok = true →
    (decodeResponse f = .ok (.rspOk f.ignoredBits f.b1 f.data) ↔ f.toWord &&& 0x03000000#32 = 0x00000000#32) ∧
    (decodeResponse f = .ok (.rspXe f.ignoredBits f.b1 f.data) ↔ f.toWord &&& 0x03000000#32 = 0x01000000#32) ∧
    (decodeResponse f = .ok (.rspAea f.ignoredBits f.b1 f.data) ↔ f.toWord &&& 0x03000000#32 = 0x02000000#32) ∧
    (decodeResponse f = .ok (.rspCp f.ignoredBits f.b1 f.data) ↔ f.toWord &&& 0x03000000#32 = 0x03000000#32)) ∧
  (∀ f : Frame, f.ok = false → ∀ i, decodeResponse f ≠ .ok i) ∧
  (∀ (reg : Byte) (d : Half),
    decodeResponse (encFrame 0#1 reg d) = .ok (.rspOk 0#2 reg d) ∧
    decodeResponse (encFrame 1#1 reg d) = .ok (.rspXe 0#2 reg d))

/-! ## Encoding -/

/-- Decode and encode agree on every instruction that has a word: in its own space the word decodes to the instruction, with every
operand. -/
def Obligations.DecodeOfEncodeIsIdentity : Prop :=
  ∀ (i : Instr) (w : Word), i.wellFormed = true → encode i = some w → decode i.space w = .ok i

/-- The other direction for command words: encoding the decoded word gives it back with its ignored bits cleared: bits 27:25
always, bit 24 for XRD and XWR. -/
def Obligations.CommandWordReencodes : Prop :=
  ∀ w : Word, encode (decodeCommand w) =
    some (if w.extractLsb' 29 3 = 0#3 then w &&& 0xF0FFFFFF#32 else w &&& 0xF1FFFFFF#32)

/-- The other direction for frames: a frame that decodes in a wire space is the frame of what it decodes to. -/
def Obligations.WireFrameReencodes : Prop :=
  ∀ (f : Frame) (i : Instr), decodeResponse f = .ok i ∨ decodeRequest f = .ok i → encode i = some f.toWord

/-- R99, R100: a command word selects its row by cmd[31:28] alone, every word selects one, and no reserved bit changes it. -/
def Obligations.CommandDecodeByOpcode : Prop :=
  (∀ w : Word,
    (w.extractLsb' 28 4 = 0x0#4 → decodeCommand w = .xrd (w.extractLsb' 16 8) (w.extractLsb' 0 16)) ∧
    (w.extractLsb' 28 4 = 0x1#4 → decodeCommand w = .xwr (w.extractLsb' 16 8) (w.extractLsb' 0 16)) ∧
    (w.extractLsb' 28 4 = 0x2#4 → decodeCommand w = .snd (w.extractLsb' 24 1) (w.extractLsb' 16 8) (w.extractLsb' 0 16)) ∧
    (w.extractLsb' 28 4 = 0x3#4 → decodeCommand w = .aea (w.extractLsb' 24 1) (w.extractLsb' 16 8) (w.extractLsb' 0 16)) ∧
    (w.extractLsb' 28 4 = 0x4#4 → decodeCommand w = .poll (w.extractLsb' 24 1) (w.extractLsb' 16 8) (w.extractLsb' 0 16)) ∧
    (w.extractLsb' 28 4 = 0x5#4 → decodeCommand w = .flush (w.extractLsb' 24 1) (w.extractLsb' 16 8) (w.extractLsb' 0 16)) ∧
    (w.extractLsb' 28 4 = 0x6#4 →
      decodeCommand w = .txb (w.extractLsb' 24 1) (w.extractLsb' 16 8) (w.extractLsb' 8 8) (w.extractLsb' 0 8)) ∧
    (w.extractLsb' 28 4 = 0x7#4 → decodeCommand w = .rxb (w.extractLsb' 24 1) (w.extractLsb' 16 8) (w.extractLsb' 0 16)) ∧
    (w.extractLsb' 31 1 = 1#1 →
      decodeCommand w = .ill (w.extractLsb' 28 3) (w.extractLsb' 24 1) (w.extractLsb' 16 8) (w.extractLsb' 0 16))) ∧
  (∀ w w' : Word, w ||| 0x0E000000#32 = w' ||| 0x0E000000#32 → decodeCommand w = decodeCommand w') ∧
  (∀ w w' : Word, w.extractLsb' 29 3 = 0#3 → w ||| 0x0F000000#32 = w' ||| 0x0F000000#32 → decodeCommand w = decodeCommand w')

/-- A few words written out from the spec's encodings (R94, R95, R99 and the vectors of 95_test_vectors.md); that
`decodeTableWord` reads a word as the command port does is log 6. -/
def Obligations.SampleWordsDecode : Prop :=
  decode .command 0x00310000#32 = .ok (.xrd 0x31#8 0#16) ∧
  decode .command 0x10320008#32 = .ok (.xwr 0x32#8 8#16) ∧
  decode .command 0x2120ABCD#32 = .ok (.snd 1#1 0x20#8 0xABCD#16) ∧
  decode .command 0x30000096#32 = .ok (.aea 0#1 0#8 150#16) ∧
  decode .command 0x6FFFFFA5#32 = .ok (.txb 1#1 0xFF#8 0xFF#8 0xA5#8) ∧
  decode .command 0x90000000#32 = .ok (.ill 1#3 0#1 0#8 0#16) ∧
  decode .wireResponse 0xF83103E8#32 = .ok (.rspOk 2#2 0x31#8 0x03E8#16) ∧
  decode .wireResponse 0x23140004#32 = .ok (.rspCp 0#2 0x14#8 4#16) ∧
  decode .wireResponse 0x22040005#32 = .error .badChecksum ∧
  decode .wireRequest 0xB00B0000#32 = .ok (.rdf 0x0B#8 0#16) ∧
  decode .wireRequest 0x61140002#32 = .ok (.wrf 0x14#8 2#16) ∧
  decodeTableWord 32 0x40000000 = some (.poll 0#1 0#8 0#16)

/-- R109, R110: a line assembles to `op<<28 | rw<<24 | reg<<16 | data`, an integer operand folded, none outside its domain. -/
def Obligations.AssembledWordLayout : Prop :=
  ∀ (c : Config) (reg : Byte) (v : Int) (rw : BitVec 1) (n : Half) (b : Byte),
    (-65536 ≤ v → v ≤ 65535 →
      (assembleWord c (.xrd reg v)).map BitVec.toNat = some (reg.toNat * 2 ^ 16 + (v % 65536).toNat) ∧
      (assembleWord c (.xwr reg v)).map BitVec.toNat = some (2 ^ 28 + reg.toNat * 2 ^ 16 + (v % 65536).toNat) ∧
      (assembleWord c (.snd rw reg v)).map BitVec.toNat =
        some (2 * 2 ^ 28 + rw.toNat * 2 ^ 24 + reg.toNat * 2 ^ 16 + (v % 65536).toNat) ∧
      assembleWord c (.wr reg v) = assembleWord c (.xwr reg v) ∧
      assembleWord c (.stream v) = assembleWord c (.snd 1#1 c.dldataReg v)) ∧
    (v < -65536 ∨ 65535 < v →
      assembleWord c (.xrd reg v) = none ∧ assembleWord c (.xwr reg v) = none ∧ assembleWord c (.snd rw reg v) = none) ∧
    (assembleWord c (.aea n)).map BitVec.toNat = some (3 * 2 ^ 28 + n.toNat) ∧
    assembleWord c .poll = some 0x40000000#32 ∧
    assembleWord c .flush = some 0x50000000#32 ∧
    (assembleWord c (.txb b)).map BitVec.toNat = some (6 * 2 ^ 28 + b.toNat) ∧
    assembleWord c .rxb = some 0x70000000#32 ∧
    assembleWord c (.rd reg) = assembleWord c (.xrd reg 0) ∧
    assembleWord c .noprd = some 0x00000000#32

/-! ## Commands -/

/-- R168, R190 to R192, acceptance of XRD, XWR and SND when `cmd_ready = 1`: the latch, the context, and the request frame at its first
byte; nothing else changes. -/
def Obligations.TransactionsAccepted : Prop :=
  ∀ (s : State) (rw : BitVec 1) (reg : Byte) (data : Half), s.cmdReady = true →
    exec (.xrd reg data) s = .next { s with
      op := 0x0#4, rw := 0#1, reg := reg, data := data, ctx := .main
      txbuf := encFrame 0#1 reg data, txi := 0#2, phase := .send } ∧
    exec (.xwr reg data) s = .next { s with
      op := 0x1#4, rw := 1#1, reg := reg, data := data, ctx := .main
      txbuf := encFrame 1#1 reg data, txi := 0#2, phase := .send } ∧
    exec (.snd rw reg data) s = .next { s with
      op := 0x2#4, rw := rw, reg := reg, data := data, ctx := .main
      txbuf := encFrame rw reg data, txi := 0#2, phase := .send }

/-- R220 and the acceptance of AEA (R222): AEA-entry(n) from the AEA command and from a good status 2 reply to a read: overflow above
AEA_MAX, an empty payload for 0, else the first continuation read, with `rem` the number n. AEA_MAX is at most the size of the AEA
buffer (R41), where the spec gives the width of `rem`. -/
def Obligations.AeaEntryRule : Prop :=
  (∀ (s : State) (rw : BitVec 1) (reg : Byte) (n : Half), s.cfg.aeaMax ≤ Memory.size → s.cmdReady = true →
    (s.cfg.aeaMax < n.toNat →
      exec (.aea rw reg n) s = .next { s with
        op := 0x3#4, rw := rw, reg := reg, data := n, value := n, status := 0#2, rspReg := s.cfg.aeaReg
        kind := 1#1, aeaLen := 0#7, err := .extendedAddressOverflow, phase := .idle, done := true }) ∧
    (n = 0#16 → n.toNat ≤ s.cfg.aeaMax →
      exec (.aea rw reg n) s = .next { s with
        op := 0x3#4, rw := rw, reg := reg, data := n, value := n, status := 0#2, rspReg := s.cfg.aeaReg
        kind := 1#1, aeaLen := 0#7, err := .noError, phase := .idle, done := true }) ∧
    (n ≠ 0#16 → n.toNat ≤ s.cfg.aeaMax →
      exec (.aea rw reg n) s = .next { s with
        op := 0x3#4, rw := rw, reg := reg, data := n, value := n, status := 0#2, rspReg := s.cfg.aeaReg
        kind := 1#1, aeaLen := 0#7, rem := n.setWidth 7, ctx := .aea
        txbuf := encFrame 0#1 s.cfg.aeaReg 0#16, txi := 0#2, phase := .send } ∧
      (n.setWidth 7).toNat = n.toNat)) ∧
  (∀ (s : State) (f : Frame) (rest : List Byte), s.cfg.aeaMax ≤ Memory.size →
    s.phase = .wait → s.ctx = .main → s.op ≠ 0x2#4 → s.rw = 0#1 → s.rxfifo = f.bytes ++ rest → f.ok = true →
    f.statusBits = 2#2 →
    (s.cfg.aeaMax < f.data.toNat →
      perform .got s = .next { s with
        rxfifo := rest, rxbuf := f, rspReg := f.b1, value := f.data, status := 2#2
        kind := 1#1, aeaLen := 0#7, err := .extendedAddressOverflow, phase := .idle, done := true }) ∧
    (f.data = 0#16 → f.data.toNat ≤ s.cfg.aeaMax →
      perform .got s = .next { s with
        rxfifo := rest, rxbuf := f, rspReg := f.b1, value := f.data, status := 2#2
        kind := 1#1, aeaLen := 0#7, err := .noError, phase := .idle, done := true }) ∧
    (f.data ≠ 0#16 → f.data.toNat ≤ s.cfg.aeaMax →
      perform .got s = .next { s with
        rxfifo := rest, rxbuf := f, rspReg := f.b1, value := f.data, status := 2#2
        kind := 1#1, aeaLen := 0#7, rem := f.data.setWidth 7, ctx := .aea
        txbuf := encFrame 0#1 s.cfg.aeaReg 0#16, txi := 0#2, phase := .send } ∧
      (f.data.setWidth 7).toNat = f.data.toNat))

/-- R165: FLUSH empties the FIFO and clears `rx_ovf`, completes with NoError and changes no other result register; a byte
arriving on the accepting edge is discarded too. -/
def Obligations.FlushDiscardsPendingInput : Prop :=
  (∀ (s : State) (rw : BitVec 1) (reg : Byte) (data : Half), s.cmdReady = true →
    exec (.flush rw reg data) s = .next { s with
      op := 0x5#4, rw := rw, reg := reg, data := data, rxfifo := [], rxOvf := false
      err := .noError, phase := .idle, done := true }) ∧
  (∀ s : State, s.cmdReady = true → s.pins.cmdValid = true → s.pins.cmd.extractLsb' 28 4 = 0x5#4 →
    ∃ t, step s = .next t ∧ t.rxfifo = [] ∧ t.rxOvf = false ∧ t.err = .noError ∧ t.txlog = s.txlog)

/-- R163: TXB is accepted, offers one byte, and completes when the transport takes it; `rxfifo` and the timer are not touched. -/
def Obligations.RawByteWrite : Prop :=
  (∀ (s : State) (rw : BitVec 1) (reg hi b : Byte), s.cmdReady = true →
    exec (.txb rw reg hi b) s = .next { s with
      op := 0x6#4, rw := rw, reg := reg, data := hi ++ b, txbuf := { s.txbuf with b0 := b }, phase := .bsend }) ∧
  (∀ s : State, s.phase = .bsend →
    perform .txAck s = .next { s with
      txlog := s.txlog ++ [s.txbuf.b0], err := .noError, phase := .idle, done := true })

/-- R164: RXB clears the timer and waits; a byte present completes it, the timeout completes it when there is none; at a clock edge
the byte has priority. -/
def Obligations.ByteReadWithTimeout : Prop :=
  (∀ (s : State) (rw : BitVec 1) (reg : Byte) (data : Half), s.cmdReady = true →
    exec (.rxb rw reg data) s = .next { s with
      op := 0x7#4, rw := rw, reg := reg, data := data, timer := 0, phase := .bwait }) ∧
  (∀ (s : State) (b : Byte) (rest : List Byte), s.phase = .bwait → s.rxfifo = b :: rest →
    perform .bgot s = .next { s with
      rxfifo := rest, value := 0x00#8 ++ b, err := .noError, phase := .idle, done := true } ∧
    enabled .btimeout s = false ∧
    (s.pins.rst = false → .bgot ∈ edgeSteps s ∧ .btimeout ∉ edgeSteps s)) ∧
  (∀ s : State, s.phase = .bwait → s.rxfifo = [] → s.cfg.tIb ≤ s.timer →
    perform .btimeout s = .next { s with value := 0xFFFF#16, err := .byteTimeout, phase := .idle, done := true } ∧
    (s.pins.rst = false → .btimeout ∈ edgeSteps s)) ∧
  (∀ s : State, s.phase = .bwait → s.rxfifo = [] → s.timer < s.cfg.tIb →
    enabled .bgot s = false ∧ enabled .btimeout s = false ∧
    (s.pins.rst = false → .bgot ∉ edgeSteps s ∧ .btimeout ∉ edgeSteps s))

/-- R229: a command word with cmd[31] = 1 completes at once with IllegalCommand; the latch is loaded, every other register keeps
its value. -/
def Obligations.IllegalCommandCompletes : Prop :=
  ∀ (s : State) (w : Word), s.cmdReady = true → w.extractLsb' 31 1 = 1#1 →
    exec (decodeCommand w) s = .next { s with
      op := w.extractLsb' 28 4, rw := w.extractLsb' 24 1, reg := w.extractLsb' 16 8, data := w.extractLsb' 0 16
      err := .illegalCommand, phase := .idle, done := true }

/-- The constructor-level completion of ILL (R229). -/
def Obligations.IllegalInstructionCompletes : Prop :=
  ∀ (s : State) (sub : BitVec 3) (rw : BitVec 1) (reg : Byte) (data : Half), s.cmdReady = true →
    exec (.ill sub rw reg data) s = .next { s with
      op := 1#1 ++ sub, rw := rw, reg := reg, data := data, err := .illegalCommand, phase := .idle, done := true }

/-- R23, R281: `exec` of a command while `cmd_ready = 0` takes nothing, whichever command it is (log 8). -/
def Obligations.BusyPortTakesNoCommand : Prop :=
  ∀ (i : Instr) (s : State), i.space = .command → s.cmdReady = false → exec i s = .next s

/-- U16, R100: the operand bits an operation ignores reach the command latch and nothing else. -/
def Obligations.IgnoredOperandsReachOnlyTheLatch : Prop :=
  ∀ (s t t' : State) (rw rw' : BitVec 1) (reg reg' hi hi' b : Byte) (d d' : Half),
    (exec (.aea rw reg d) s = .next t → exec (.aea rw' reg' d) s = .next t' →
      { t' with rw := t.rw, reg := t.reg } = t) ∧
    (exec (.poll rw reg d) s = .next t → exec (.poll rw' reg' d') s = .next t' →
      { t' with rw := t.rw, reg := t.reg, data := t.data } = t) ∧
    (exec (.flush rw reg d) s = .next t → exec (.flush rw' reg' d') s = .next t' →
      { t' with rw := t.rw, reg := t.reg, data := t.data } = t) ∧
    (exec (.txb rw reg hi b) s = .next t → exec (.txb rw' reg' hi' b) s = .next t' →
      { t' with rw := t.rw, reg := t.reg, data := t.data } = t) ∧
    (exec (.rxb rw reg d) s = .next t → exec (.rxb rw' reg' d') s = .next t' →
      { t' with rw := t.rw, reg := t.reg, data := t.data } = t)

/-! ## Frames sent and received -/

/-- The request rows RDF and WRF start the sending of their frame; that this is their meaning is read from R94, R131 and R160
(log 13). -/
def Obligations.RequestRowsStartSending : Prop :=
  ∀ (s : State) (reg : Byte) (data : Half),
    exec (.rdf reg data) s = .next { s with txbuf := encFrame 0#1 reg data, txi := 0#2, phase := .send } ∧
    exec (.wrf reg data) s = .next { s with txbuf := encFrame 1#1 reg data, txi := 0#2, phase := .send }

/-- R160: SENDF, its starting step, the offer of each byte, the transport's acceptance of the bytes one by one in the order of the
frame; the timer starts with byte3. -/
def Obligations.SendFrameByteByByte : Prop :=
  (∀ (s : State) (f : Frame), sendf f s = { s with txbuf := f, txi := 0#2, phase := .send }) ∧
  (∀ s : State, s.phase = .send →
    s.txData = some (s.txbuf.byte s.txi) ∧ (s.pins.rst = false → s.txValid = true) ∧ enabled .txAck s = true ∧
    (s.txi ≠ 3#2 →
      perform .txAck s = .next { s with txlog := s.txlog ++ [s.txbuf.byte s.txi], txi := s.txi + 1#2 }) ∧
    (s.txi = 3#2 →
      perform .txAck s = .next { s with txlog := s.txlog ++ [s.txbuf.b3], timer := 0, phase := .wait })) ∧
  (∀ s : State, s.phase = .send → s.txi = 0#2 →
    performAll [.txAck, .txAck, .txAck, .txAck] s = .next { s with
      txlog := s.txlog ++ [s.txbuf.b0, s.txbuf.b1, s.txbuf.b2, s.txbuf.b3], txi := 3#2, timer := 0, phase := .wait })

/-- R161: in WAIT, four bytes present are popped, oldest first, whatever the timer says; the deadline counts only with fewer than four,
and pops nothing; which of the two falls on a clock edge. -/
def Obligations.ReceiveFrameUnderDeadline : Prop :=
  (∀ s : State, s.phase = .wait → s.pins.rst = false →
    (.got ∈ edgeSteps s ↔ 4 ≤ s.rxCount) ∧
    (.timeout ∈ edgeSteps s ↔ s.rxCount < 4 ∧ s.cfg.tResp ≤ s.timer)) ∧
  (∀ (s t : State) (b0 b1 b2 b3 : Byte) (rest : List Byte), s.phase = .wait → s.rxfifo = b0 :: b1 :: b2 :: b3 :: rest →
    enabled .timeout s = false ∧
    (perform .got s = .next t → t.rxfifo = rest) ∧
    (s.op ≠ 0x2#4 → perform .got s = .next t → t.rxbuf = ⟨b0, b1, b2, b3⟩)) ∧
  (∀ s : State, s.phase = .wait → s.rxCount < 4 → s.cfg.tResp ≤ s.timer →
    ∃ t, perform .timeout s = .next t ∧ t.rxfifo = s.rxfifo ∧ t.err = .noResponse ∧ t.phase = .idle)

/-- R193 (and R194): the Got-handler MAIN of XRD and XWR on the popped frame, checksum first, then the continuation on a read, else the
status as the error. -/
def Obligations.MainGotHandler : Prop :=
  ∀ (s : State) (f : Frame) (rest : List Byte), s.phase = .wait → s.ctx = .main → s.op ≠ 0x2#4 → s.rxfifo = f.bytes ++ rest →
    (f.ok = false →
      perform .got s = .next { s with
        rxfifo := rest, rxbuf := f, rspReg := f.b1, value := f.b2 ++ f.b3, kind := 0#1, status := 0#2
        err := .checksumError, phase := .idle, done := true }) ∧
    (f.ok = true → (f.statusBits ≠ 2#2 ∨ s.rw ≠ 0#1) →
      perform .got s = .next { s with
        rxfifo := rest, rxbuf := f, rspReg := f.b1, value := f.b2 ++ f.b3, kind := 0#1, status := f.statusBits
        err := .ofStatus f.statusBits, phase := .idle, done := true }) ∧
    (f.ok = true → f.statusBits = 2#2 → s.rw = 0#1 →
      perform .got s = .next (aeaEntry (f.b2 ++ f.b3) { s with
        rxfifo := rest, rxbuf := f, rspReg := f.b1, value := f.b2 ++ f.b3, kind := 0#1, status := 2#2 }))

/-- R103, R104: the number of each ErrorCode, and which ErrorCode a status is reported as. -/
def Obligations.ErrorCodeNumbers : Prop :=
  (∀ st : BitVec 2, (ErrorCode.ofStatus st).code = st.setWidth 4) ∧
  ErrorCode.code .noError = 0#4 ∧ ErrorCode.code .executionError = 1#4 ∧ ErrorCode.code .extendedAddressError = 2#4 ∧
  ErrorCode.code .commandPending = 3#4 ∧ ErrorCode.code .noResponse = 4#4 ∧ ErrorCode.code .checksumError = 5#4 ∧
  ErrorCode.code .extendedAddressOverflow = 6#4 ∧ ErrorCode.code .pollTimeout = 7#4 ∧ ErrorCode.code .byteTimeout = 8#4 ∧
  ErrorCode.code .illegalCommand = 15#4 ∧
  (∀ e : ErrorCode, e.code.toNat < 9 ∨ e.code = 15#4)

/-- R95, R193, R196: the four response kinds answered to an XRD or XWR, where no continuation starts; that a response row means the
engine's GOT step on it is log 9. -/
def Obligations.ResponsesInMain : Prop :=
  ∀ (s : State) (x : BitVec 2) (reg : Byte) (data : Half), s.phase = .wait → s.ctx = .main → s.op ≠ 0x2#4 →
    exec (.rspOk x reg data) s = .next { s with
      rxbuf := rspFrame x 0#2 reg data, rspReg := reg, value := data, kind := 0#1, status := 0#2
      err := .noError, phase := .idle, done := true } ∧
    exec (.rspXe x reg data) s = .next { s with
      rxbuf := rspFrame x 1#2 reg data, rspReg := reg, value := data, kind := 0#1, status := 1#2
      err := .executionError, phase := .idle, done := true } ∧
    (s.rw ≠ 0#1 → exec (.rspAea x reg data) s = .next { s with
      rxbuf := rspFrame x 2#2 reg data, rspReg := reg, value := data, kind := 0#1, status := 2#2
      err := .extendedAddressError, phase := .idle, done := true }) ∧
    exec (.rspCp x reg data) s = .next { s with
      rxbuf := rspFrame x 3#2 reg data, rspReg := reg, value := data, kind := 0#1, status := 3#2
      err := .commandPending, phase := .idle, done := true }

/-- R221: the extended-address loop. A successful frame stores byte2 at `aea_len` and, while two or more bytes remain, byte3 after it;
the command completes when nothing remains, else the next continuation read starts; the first unsuccessful frame or the
deadline ends it with its error. The rows are the engine's GOT step on the popped frame (log 9). -/
def Obligations.ExtendedAddressLoop : Prop :=
  (∀ (s : State) (x : BitVec 2) (reg hi lo : Byte), s.phase = .wait → s.ctx = .aea →
    (2 < s.rem.toNat → s.aeaLen.toNat + 2 ≤ 100 →
      exec (.rspOk x reg (hi ++ lo)) s = .next { s with
        rxbuf := rspFrame x 0#2 reg (hi ++ lo)
        aeaBuf := (s.aeaBuf.write s.aeaLen.toNat hi).write (s.aeaLen.toNat + 1) lo
        aeaLen := s.aeaLen + 2#7, rem := s.rem - 2#7
        txbuf := encFrame 0#1 s.cfg.aeaReg 0#16, txi := 0#2, phase := .send }) ∧
    (s.rem = 2#7 → s.aeaLen.toNat + 2 ≤ 100 →
      exec (.rspOk x reg (hi ++ lo)) s = .next { s with
        rxbuf := rspFrame x 0#2 reg (hi ++ lo)
        aeaBuf := (s.aeaBuf.write s.aeaLen.toNat hi).write (s.aeaLen.toNat + 1) lo
        aeaLen := s.aeaLen + 2#7, rem := 0#7, err := .noError, phase := .idle, done := true }) ∧
    (s.rem.toNat < 2 → s.aeaLen.toNat + 1 ≤ 100 →
      exec (.rspOk x reg (hi ++ lo)) s = .next { s with
        rxbuf := rspFrame x 0#2 reg (hi ++ lo)
        aeaBuf := s.aeaBuf.write s.aeaLen.toNat hi
        aeaLen := s.aeaLen + 1#7, rem := 0#7, err := .noError, phase := .idle, done := true }) ∧
    exec (.rspXe x reg (hi ++ lo)) s = .next { s with
      rxbuf := rspFrame x 1#2 reg (hi ++ lo), err := .executionError, phase := .idle, done := true } ∧
    exec (.rspAea x reg (hi ++ lo)) s = .next { s with
      rxbuf := rspFrame x 2#2 reg (hi ++ lo), err := .extendedAddressError, phase := .idle, done := true } ∧
    exec (.rspCp x reg (hi ++ lo)) s = .next { s with
      rxbuf := rspFrame x 3#2 reg (hi ++ lo), err := .commandPending, phase := .idle, done := true }) ∧
  (∀ (s : State) (f : Frame) (rest : List Byte), s.phase = .wait → s.ctx = .aea → s.rxfifo = f.bytes ++ rest → f.ok = false →
    perform .got s = .next { s with
      rxfifo := rest, rxbuf := f, err := .checksumError, phase := .idle, done := true }) ∧
  (∀ s : State, s.phase = .wait → s.ctx = .aea → s.rxCount < 4 → s.cfg.tResp ≤ s.timer →
    perform .timeout s = .next { s with
      rxbuf := ⟨0xFF#8, 0xFF#8, 0xFF#8, 0xFF#8⟩, err := .noResponse, phase := .idle, done := true })

/-- R225: POLL: acceptance, every kind of reply, a bad checksum, the deadline. -/
def Obligations.PollCommand : Prop :=
  (∀ (s : State) (rw : BitVec 1) (reg : Byte) (data : Half), s.cmdReady = true →
    exec (.poll rw reg data) s = .next { s with
      op := 0x4#4, rw := rw, reg := reg, data := data, iter := 0, ctx := .poll
      txbuf := encFrame 0#1 s.cfg.nopReg 0#16, txi := 0#2, phase := .send }) ∧
  (∀ (s : State) (f : Frame) (rest : List Byte), s.phase = .wait → s.ctx = .poll → s.rxfifo = f.bytes ++ rest → f.ok = true →
    (f.statusBits ≠ 0#2 →
      perform .got s = .next { s with
        rxfifo := rest, rxbuf := f, rspReg := f.b1, value := f.b2 ++ f.b3, kind := 0#1, status := f.statusBits
        err := .ofStatus f.statusBits, phase := .idle, done := true }) ∧
    (f.statusBits = 0#2 → f.b2 = 0#8 →
      perform .got s = .next { s with
        rxfifo := rest, rxbuf := f, rspReg := f.b1, value := f.b2 ++ f.b3, kind := 0#1, status := 0#2
        err := .noError, phase := .idle, done := true }) ∧
    (f.statusBits = 0#2 → f.b2 ≠ 0#8 → s.cfg.pollMax ≤ s.iter + 1 →
      perform .got s = .next { s with
        rxfifo := rest, rxbuf := f, rspReg := f.b1, value := f.b2 ++ f.b3, kind := 0#1, status := 0#2
        iter := s.iter + 1, err := .pollTimeout, phase := .idle, done := true }) ∧
    (f.statusBits = 0#2 → f.b2 ≠ 0#8 → s.iter + 1 < s.cfg.pollMax →
      perform .got s = .next { s with
        rxfifo := rest, rxbuf := f, rspReg := f.b1, value := f.b2 ++ f.b3, kind := 0#1, status := 0#2
        iter := s.iter + 1, txbuf := encFrame 0#1 s.cfg.nopReg 0#16, txi := 0#2, phase := .send })) ∧
  (∀ (s : State) (f : Frame) (rest : List Byte), s.phase = .wait → s.ctx = .poll → s.rxfifo = f.bytes ++ rest → f.ok = false →
    perform .got s = .next { s with
      rxfifo := rest, rxbuf := f, rspReg := f.b1, value := f.b2 ++ f.b3, kind := 0#1, status := 0#2
      err := .checksumError, phase := .idle, done := true }) ∧
  (∀ s : State, s.phase = .wait → s.ctx = .poll → s.rxCount < 4 → s.cfg.tResp ≤ s.timer →
    perform .timeout s = .next { s with
      rxbuf := ⟨0xFF#8, 0xFF#8, 0xFF#8, 0xFF#8⟩, value := 0xFFFF#16, rspReg := 0xFF#8, status := 0#2, kind := 0#1
      err := .noResponse, phase := .idle, done := true })

/-- R192: SND: acceptance; any four bytes, good or bad, are popped and thrown away; the deadline. -/
def Obligations.SendOnlyTransaction : Prop :=
  (∀ (s : State) (rw : BitVec 1) (reg : Byte) (data : Half), s.cmdReady = true →
    exec (.snd rw reg data) s = .next { s with
      op := 0x2#4, rw := rw, reg := reg, data := data, ctx := .main
      txbuf := encFrame rw reg data, txi := 0#2, phase := .send }) ∧
  (∀ (s : State) (b0 b1 b2 b3 : Byte) (rest : List Byte), s.phase = .wait → s.ctx = .main → s.op = 0x2#4 →
    s.rxfifo = b0 :: b1 :: b2 :: b3 :: rest →
    perform .got s = .next { s with
      rxfifo := rest, value := 0x0000#16, kind := 0#1, status := 0#2, err := .noError, phase := .idle, done := true }) ∧
  (∀ s : State, s.phase = .wait → s.ctx = .main → s.op = 0x2#4 → s.rxCount < 4 → s.cfg.tResp ≤ s.timer →
    perform .timeout s = .next { s with
      value := 0xFFFF#16, kind := 0#1, status := 0#2, err := .noResponse, phase := .idle, done := true })

/-- R195: the Timeout-handler MAIN of XRD and XWR; nothing is popped. The values it writes to `rxbuf`, `value` and `rsp_reg` are, in
the words of R195, "this spec's choice". -/
def Obligations.MainTimeoutHandler : Prop :=
  ∀ s : State, s.phase = .wait → s.ctx = .main → s.op ≠ 0x2#4 → s.rxCount < 4 → s.cfg.tResp ≤ s.timer →
    perform .timeout s = .next { s with
      rxbuf := ⟨0xFF#8, 0xFF#8, 0xFF#8, 0xFF#8⟩, value := 0xFFFF#16, rspReg := 0xFF#8, status := 0#2, kind := 0#1
      err := .noResponse, phase := .idle, done := true }

/-- R34: the receive FIFO: a byte is pushed while there is room, else dropped and flagged; a pop and a push on one clock edge both take
effect, the pop first, also when the FIFO is full. -/
def Obligations.ReceiveFifo : Prop :=
  (∀ (s : State) (b : Byte),
    (s.rxfifo.length < s.cfg.rxDepth →
      perform (.rx b) s = .next { s with rxfifo := s.rxfifo ++ [b], rxlog := s.rxlog ++ [b] }) ∧
    (s.cfg.rxDepth ≤ s.rxfifo.length →
      perform (.rx b) s = .next { s with rxOvf := true, rxlog := s.rxlog ++ [b] })) ∧
  (∀ (s t : State) (f : Frame) (rest : List Byte), s.phase = .wait → s.pins.rst = false → s.pins.rxValid = true →
    s.rxfifo = f.bytes ++ rest → s.rxfifo.length ≤ s.cfg.rxDepth → step s = .next t →
    t.rxfifo = rest ++ [s.pins.rxData] ∧ t.rxOvf = s.rxOvf) ∧
  (∀ (s : State) (b : Byte) (rest : List Byte), s.phase = .bwait → s.pins.rst = false → s.pins.rxValid = true →
    s.rxfifo = b :: rest → s.rxfifo.length ≤ s.cfg.rxDepth →
    ∃ t, step s = .next t ∧ t.rxfifo = rest ++ [s.pins.rxData] ∧ t.rxOvf = s.rxOvf ∧ t.value = 0x00#8 ++ b) ∧
  State.reset.rxfifo = []

/-- R33: the timer: set to 0 on entry to WAIT and BWAIT, counted up to its top by ticks in those phases, and changed by nothing else
but reset: a step that does not enter WAIT or BWAIT leaves it alone, whatever phase it goes to (R305). -/
def Obligations.TimerCountsTicksWhileWaiting : Prop :=
  (∀ s : State, s.phase = .wait ∨ s.phase = .bwait →
    perform .tick s = .next { s with timer := min (s.timer + 1) (max s.cfg.tResp s.cfg.tIb) }) ∧
  (∀ s : State, s.phase ≠ .wait → s.phase ≠ .bwait → perform .tick s = .next s) ∧
  (∀ (a : AgentStep) (s t : State), perform a s = .next t → s.phase ≠ .wait → t.phase = .wait → t.timer = 0) ∧
  (∀ (a : AgentStep) (s t : State), perform a s = .next t → s.phase ≠ .bwait → t.phase = .bwait → t.timer = 0) ∧
  (∀ (a : AgentStep) (s t : State), perform a s = .next t → a ≠ .tick → a ≠ .reset →
    (t.phase = s.phase ∨ (t.phase ≠ .wait ∧ t.phase ≠ .bwait)) → t.timer = s.timer) ∧
  State.reset.timer = 0

/-! ## Frames of the instructions -/

/-- What a command's acceptance leaves unchanged: every register but those its rule names, the ghost logs, and every byte of the AEA
buffer. -/
def Obligations.CommandFrame : Prop :=
  ∀ (i : Instr) (s t : State), i.space = .command → exec i s = .next t →
    (∀ a, t.aeaByte a = s.aeaByte a) ∧ t.rxbuf = s.rxbuf ∧ t.txlog = s.txlog ∧ t.rxlog = s.rxlog ∧
    t.cfg = s.cfg ∧ t.pins = s.pins ∧ t.inputs = s.inputs ∧ t.host = s.host ∧
    ((∃ rw reg d, i = .flush rw reg d) ∨ (t.rxfifo = s.rxfifo ∧ t.rxOvf = s.rxOvf)) ∧
    ((∃ rw reg n, i = .aea rw reg n) ∨
      (t.value = s.value ∧ t.kind = s.kind ∧ t.status = s.status ∧ t.rspReg = s.rspReg ∧ t.aeaLen = s.aeaLen ∧
        t.rem = s.rem)) ∧
    ((∃ rw reg d, i = .poll rw reg d) ∨ t.iter = s.iter) ∧
    ((∃ rw reg d, i = .rxb rw reg d) ∨ t.timer = s.timer) ∧
    (t.phase ≠ .idle → t.err = s.err ∧ t.done = s.done) ∧
    (t.phase = .idle → t.txbuf = s.txbuf ∧ t.txi = s.txi ∧ t.ctx = s.ctx)

/-- What a response frame's handler (log 9) leaves unchanged: the command latch, the FIFO, the ghost logs, the timer, and every byte of the AEA
buffer except, for a successful continuation frame, the one at `aea_len` and, while two or more remain, the one after it. -/
def Obligations.ResponseFrame : Prop :=
  ∀ (i : Instr) (s t : State), i.space = .wireResponse → exec i s = .next t →
    t.op = s.op ∧ t.rw = s.rw ∧ t.reg = s.reg ∧ t.data = s.data ∧ t.rxfifo = s.rxfifo ∧ t.rxOvf = s.rxOvf ∧
    t.txlog = s.txlog ∧ t.rxlog = s.rxlog ∧ t.timer = s.timer ∧
    t.cfg = s.cfg ∧ t.pins = s.pins ∧ t.inputs = s.inputs ∧ t.host = s.host ∧
    (s.phase ≠ .wait → t = s) ∧
    (s.ctx ≠ .poll → t.iter = s.iter) ∧
    (s.ctx = .aea → t.value = s.value ∧ t.kind = s.kind ∧ t.status = s.status ∧ t.rspReg = s.rspReg) ∧
    (s.ctx = .poll → t.aeaLen = s.aeaLen ∧ t.rem = s.rem) ∧
    (s.ctx = .main → s.op = 0x2#4 → t.rxbuf = s.rxbuf ∧ t.rspReg = s.rspReg ∧ t.aeaLen = s.aeaLen ∧ t.rem = s.rem) ∧
    (t.phase ≠ .idle → t.err = s.err ∧ t.done = s.done) ∧
    (t.phase ≠ .send → t.txbuf = s.txbuf ∧ t.txi = s.txi ∧ t.ctx = s.ctx) ∧
    (∀ a, (s.phase = .wait ∧ s.ctx = .aea ∧ ∃ x reg d, i = .rspOk x reg d) →
      a ≠ s.aeaLen.toNat → (2 ≤ s.rem.toNat → a ≠ s.aeaLen.toNat + 1) → t.aeaByte a = s.aeaByte a) ∧
    (¬ (s.phase = .wait ∧ s.ctx = .aea ∧ ∃ x reg d, i = .rspOk x reg d) → ∀ a, t.aeaByte a = s.aeaByte a)

/-! ## The whole machine -/

/-- The invariant holds at reset. -/
def Obligations.InvAtReset : Prop := Inv State.reset

/-- Every step keeps the invariant, from every state that meets it: the FIFO within its depth, the AEA buffer canonical and inside its
addresses, the counters within their bounds, the frame in flight the one its command sends, `done` only in IDLE. -/
def Obligations.StepKeepsInv : Prop := ∀ s t : State, Inv s → step s = .next t → Inv t

/-- No state that meets the invariant stops: nothing inside the block is undefined (R358). -/
def Obligations.InvStatesNeverStop : Prop := ∀ s : State, Inv s → s.Runs

/-- R169: the complete transition relation of `phase`: every row with its condition, and no other transition. -/
def Obligations.PhaseTransitionRelation : Prop :=
  (∀ (w : Word) (s t : State), enabled (.cmd w) s = true → perform (.cmd w) s = .next t →
    s.phase = .idle ∧
    (t.phase = .send ↔ w.extractLsb' 28 4 = 0x0#4 ∨ w.extractLsb' 28 4 = 0x1#4 ∨ w.extractLsb' 28 4 = 0x2#4 ∨
      w.extractLsb' 28 4 = 0x4#4 ∨
      (w.extractLsb' 28 4 = 0x3#4 ∧ 1 ≤ (w.extractLsb' 0 16).toNat ∧ (w.extractLsb' 0 16).toNat ≤ s.cfg.aeaMax)) ∧
    (t.phase = .bsend ↔ w.extractLsb' 28 4 = 0x6#4) ∧
    (t.phase = .bwait ↔ w.extractLsb' 28 4 = 0x7#4) ∧
    t.phase ≠ .wait ∧
    (t.phase = .idle → t.done = true)) ∧
  (∀ s t : State, enabled .txAck s = true → perform .txAck s = .next t →
    (s.phase = .send ∧ s.txi.toNat < 3 ∧ t.phase = .send) ∨ (s.phase = .send ∧ s.txi = 3#2 ∧ t.phase = .wait) ∨
    (s.phase = .bsend ∧ t.phase = .idle ∧ t.done = true)) ∧
  (∀ (s t : State) (f : Frame) (rest : List Byte), s.rxfifo = f.bytes ++ rest → enabled .got s = true →
    perform .got s = .next t →
    s.phase = .wait ∧
    (t.phase = .send ∨ (t.phase = .idle ∧ t.done = true)) ∧
    (t.phase = .send ↔ f.ok = true ∧
      ((s.ctx = .main ∧ s.op ≠ 0x2#4 ∧ f.statusBits = 2#2 ∧ s.rw = 0#1 ∧ 1 ≤ f.data.toNat ∧ f.data.toNat ≤ s.cfg.aeaMax) ∨
       (s.ctx = .aea ∧ f.statusBits = 0#2 ∧ 2 < s.rem.toNat) ∨
       (s.ctx = .poll ∧ f.statusBits = 0#2 ∧ f.b2 ≠ 0#8 ∧ s.iter + 1 < s.cfg.pollMax)))) ∧
  (∀ s t : State, enabled .timeout s = true → perform .timeout s = .next t →
    s.phase = .wait ∧ s.rxCount < 4 ∧ s.cfg.tResp ≤ s.timer ∧ t.phase = .idle ∧ t.done = true ∧ t.err = .noResponse) ∧
  (∀ s t : State, enabled .bgot s = true → perform .bgot s = .next t →
    s.phase = .bwait ∧ 1 ≤ s.rxCount ∧ t.phase = .idle ∧ t.done = true) ∧
  (∀ s t : State, enabled .btimeout s = true → perform .btimeout s = .next t →
    s.phase = .bwait ∧ s.rxCount = 0 ∧ s.cfg.tIb ≤ s.timer ∧ t.phase = .idle ∧ t.done = true ∧ t.err = .byteTimeout) ∧
  (∀ s t : State, enabled .reset s = true → perform .reset s = .next t → t.phase = .idle ∧ t.done = false) ∧
  (∀ (b : Byte) (s t : State), perform .tick s = .next t ∨ perform (.rx b) s = .next t → t.phase = s.phase) ∧
  (∀ (a : AgentStep) (s : State), enabled a s = false → perform a s = .next s)

/-- R23: while the block is busy the command port has no influence on a step at all. -/
def Obligations.BusyStepIgnoresCommandPort : Prop :=
  ∀ (s : State) (v : Bool) (w : Word), s.phase ≠ .idle →
    step { s with pins := { s.pins with cmdValid := v, cmd := w } } = step s

/-- R47, R340, R310: a clock edge with `rst = 1` gives every register its reset value, whatever else is presented; the command in
progress ends without `done`; the ghost logs and the parameters stay; no port says ready, valid or done while `rst = 1`. -/
def Obligations.ResetWinsOverEveryStep : Prop :=
  ∀ s : State, s.pins.rst = true →
    s.cmdReady = false ∧ s.txValid = false ∧ s.donePort = false ∧
    ∃ t, step s = .next t ∧
      t.phase = .idle ∧ t.ctx = .main ∧ t.op = 0#4 ∧ t.rw = 0#1 ∧ t.reg = 0#8 ∧ t.data = 0#16 ∧
      t.txbuf = ⟨0#8, 0#8, 0#8, 0#8⟩ ∧ t.txi = 0#2 ∧ t.rxbuf = ⟨0#8, 0#8, 0#8, 0#8⟩ ∧ t.timer = 0 ∧ t.rem = 0#7 ∧
      t.iter = 0 ∧ t.busy = false ∧ t.done = false ∧ t.txValid = false ∧ t.errPort = 0#4 ∧ t.value = 0#16 ∧ t.kind = 0#1 ∧
      t.status = 0#2 ∧ t.rspReg = 0#8 ∧ t.aeaLen = 0#7 ∧ (∀ a, t.aeaByte a = 0#8) ∧ t.rxfifo = [] ∧ t.rxCount = 0 ∧
      t.rxOvf = false ∧ t.txlog = s.txlog ∧ t.cfg = s.cfg ∧ (t.pins.rst = false → t.cmdReady = true)

/-- R36, R305, R306: `err` is written at completions and by reset only, and no command ends without a completion, neither one in
progress nor one that ends at its acceptance. -/
def Obligations.ErrChangesOnlyAtCompletion : Prop :=
  ∀ s t : State, step s = .next t → s.pins.rst = false →
    (t.done = false → t.err = s.err) ∧
    (s.phase ≠ .idle → t.phase = .idle → t.done = true) ∧
    (s.phase = .idle → s.pins.cmdValid = true → t.phase = .idle → t.done = true) ∧
    (t.done = true → t.phase = .idle)

/-- R42, R72 (c), R306: in IDLE with no command presented, `done` ends and every result register keeps its value. -/
def Obligations.IdleKeepsResults : Prop :=
  ∀ s : State, s.phase = .idle → s.pins.rst = false → s.pins.cmdValid = false →
    ∃ t, step s = .next t ∧ t.done = false ∧ t.phase = .idle ∧ t.err = s.err ∧ t.value = s.value ∧ t.kind = s.kind ∧
      t.status = s.status ∧ t.rspReg = s.rspReg ∧ t.rxbuf = s.rxbuf ∧ t.aeaLen = s.aeaLen ∧
      (∀ a, t.aeaByte a = s.aeaByte a) ∧ t.txlog = s.txlog

/-- R25, R43: the transmit log grows by exactly the offered byte, on exactly the edges where a byte is offered and the transport is
ready. -/
def Obligations.TransmitLogGrowsByOfferedByte : Prop :=
  ∀ s t : State, step s = .next t →
    t.txlog = if s.txValid = true ∧ s.pins.txReady = true then s.txlog ++ s.txData.toList else s.txlog

/-- A step runs the decoded command: in IDLE with `rst = 0` and a word presented, the step is `exec` of what the word decodes to, at
the state after the byte and the tick of the same edge (log 2), then the next clock. -/
def Obligations.StepRunsDecodedCommand : Prop :=
  ∀ s : State, s.phase = .idle → s.pins.rst = false → s.pins.cmdValid = true →
    step s = andThen
      (exec (decodeCommand s.pins.cmd)
        (if s.pins.rxValid then receive s.pins.rxData { s with done := false } else { s with done := false }))
      (fun t => .next (nextClock s t))

/-- A step runs the decoded response: in WAIT with four bytes at the head of the FIFO that decode, the step is `exec` of that
response at the state after the tick and the pop, then the byte of the same edge (log 2), then the next clock. -/
def Obligations.StepRunsDecodedResponse : Prop :=
  ∀ (s : State) (f : Frame) (rest : List Byte) (i : Instr),
    s.phase = .wait → s.pins.rst = false → s.rxfifo = f.bytes ++ rest → decodeResponse f = .ok i →
    step s = andThen
      (exec i { s with
        done := false, rxfifo := rest
        timer := if s.pins.tick then min (s.timer + 1) (timerTop s.cfg) else s.timer })
      (fun t => .next (nextClock s (if s.pins.rxValid then receive s.pins.rxData t else t)))

/-- The word placed by `withFetchWord` is the one the very next step runs (log 6, log 7). -/
def Obligations.FetchWordRunsNext : Prop :=
  ∀ (s : State) (w : Nat) (i : Instr), w < 2 ^ 32 → s.pins.rxValid = false → decodeTableWord 32 w = some i →
    step (s.withFetchWord 32 w) = andThen
      (exec i { s.withFetchWord 32 w with done := false })
      (fun t => .next (nextClock (s.withFetchWord 32 w) t))

/-- R24: the ports that are views: `rx_count` is wide enough for every state that meets the invariant, the AEA read port, `busy`. -/
def Obligations.ResultPortViews : Prop :=
  (∀ s : State, s.rxCount ≤ s.cfg.rxDepth → s.rxCountPort.toNat = s.rxfifo.length) ∧
  (∀ s : State, s.pins.aeaAddr.toNat < 100 → s.aeaRdata = s.aeaByte s.pins.aeaAddr.toNat) ∧
  (∀ s : State, 100 ≤ s.pins.aeaAddr.toNat → s.aeaRdata = 0x00#8) ∧
  (∀ s : State, s.busy = true ↔ s.phase ≠ .idle) ∧
  (∀ s : State, s.rxbufPort = s.rxbuf.b0 ++ s.rxbuf.b1 ++ s.rxbuf.b2 ++ s.rxbuf.b3)

/-! ## Runs -/

/-- R190, R191, R198: a read or write transaction end to end. From IDLE with an empty FIFO, the word presented, a transport that takes
one byte a clock and a device that answers one good frame after which no continuation applies: after ten clocks the command is
complete, exactly its request frame is on the wire, and the results are the reply's (one edge a step, log 1). -/
def Obligations.TransactionEndToEnd : Prop :=
  ∀ (s : State) (w : Word) (f : Frame) (later : List Pins),
    s.phase = .idle → s.rxfifo = [] → 4 ≤ s.cfg.rxDepth → 1 ≤ s.cfg.tResp → s.host.stage = .ready →
    s.pins = Pins.command w → s.inputs = exchangeScript f ++ later →
    w.extractLsb' 29 3 = 0#3 → f.ok = true → f.statusBits ≠ 2#2 →
    ∃ t, core.run 10 s = .next t ∧ t.phase = .idle ∧ t.done = true ∧ t.err = .ofStatus f.statusBits ∧ t.value = f.data ∧
      t.kind = 0#1 ∧ t.status = f.statusBits ∧ t.rspReg = f.b1 ∧ t.rxbuf = f ∧ t.rxfifo = [] ∧
      t.txlog = s.txlog ++ (encFrame (w.extractLsb' 28 1) (w.extractLsb' 16 8) (w.extractLsb' 0 16)).bytes ∧
      t.aeaLen = s.aeaLen ∧ (∀ a, t.aeaByte a = s.aeaByte a) ∧ t.inputs = later.tail

/-- R221, R222: a complete extended-address read. From IDLE with an empty FIFO, AEA n with n from 1 to 100, and ceil(n/2) good status 0
replies: the command completes with NoError, `aea_len = n`, the buffer holds the payload in fetch order (R64), exactly ceil(n/2)
continuation frames are on the wire, and bytes above n keep their old contents (one edge a step, log 1). -/
def Obligations.ExtendedReadDeliversPayload : Prop :=
  ∀ (s : State) (rw : BitVec 1) (reg : Byte) (n : Half) (replies : List Frame) (later : List Pins),
    Inv s → 1 ≤ s.cfg.tResp → s.phase = .idle → s.rxfifo = [] → s.host.stage = .ready →
    s.pins = Pins.command (cmdWord 0x3#4 rw reg n) → s.inputs = replies.flatMap exchangeScript ++ later →
    1 ≤ n.toNat → n.toNat ≤ s.cfg.aeaMax → replies.length = (n.toNat + 1) / 2 →
    (∀ f ∈ replies, f.ok = true ∧ f.statusBits = 0#2) →
    ∃ t, core.run (1 + 9 * replies.length) s = .next t ∧ t.phase = .idle ∧ t.done = true ∧ t.err = .noError ∧
      t.kind = 1#1 ∧ t.value = n ∧ t.status = 0#2 ∧ t.rspReg = s.cfg.aeaReg ∧ t.aeaLen.toNat = n.toNat ∧
      (∀ a, a < n.toNat → some (t.aeaByte a) = (replies.flatMap fun f => [f.b2, f.b3])[a]?) ∧
      (∀ a, n.toNat ≤ a → t.aeaByte a = s.aeaByte a) ∧
      t.txlog = s.txlog ++ replies.flatMap (fun _ => (encFrame 0#1 s.cfg.aeaReg 0#16).bytes) ∧
      t.rxfifo = []

/-- R161, R195, R302: silence. From IDLE with fewer than four bytes waiting, a read or write request sent and T_RESP ticks without a
byte: after the last tick the command still waits, and at the next clock it completes with NoResponse, the waiting bytes kept
(one edge a step, log 1). -/
def Obligations.SilenceEndsInNoResponse : Prop :=
  ∀ (s : State) (w : Word) (later : List Pins),
    s.phase = .idle → s.rxCount < 4 → s.host.stage = .ready → s.pins = Pins.command w →
    s.inputs = silenceScript s.cfg ++ later → w.extractLsb' 29 3 = 0#3 → 1 ≤ s.cfg.tResp →
    (∃ t, core.run (5 + s.cfg.tResp) s = .next t ∧ t.phase = .wait ∧ t.timer = s.cfg.tResp ∧ t.err = s.err) ∧
    (∃ t, core.run (6 + s.cfg.tResp) s = .next t ∧ t.phase = .idle ∧ t.done = true ∧ t.err = .noResponse ∧
      t.value = 0xFFFF#16 ∧ t.rspReg = 0xFF#8 ∧ t.status = 0#2 ∧ t.kind = 0#1 ∧
      t.rxbuf = ⟨0xFF#8, 0xFF#8, 0xFF#8, 0xFF#8⟩ ∧ t.rxfifo = s.rxfifo ∧
      t.txlog = s.txlog ++ (encFrame (w.extractLsb' 28 1) (w.extractLsb' 16 8) (w.extractLsb' 0 16)).bytes)

/-! ## The host software -/

/-- R251, R253: every step keeps the ticket queue in ticket order, no ticket is ever ahead of an older one, and every ticket in the
queue was issued; and no step lowers the ticket counter, which the step that closes a Connection and a step with `rst` 1 keep by
the model's choice (log 23, R250 being silent; log 30; the queue and the counter at reset are log 17). -/
def Obligations.StepKeepsTicketOrder : Prop :=
  HostSide.Ordered State.reset.host ∧
  ∀ s t : State, s.host.Ordered → step s = .next t → t.host.Ordered ∧ s.host.conn.nextTicket ≤ t.host.conn.nextTicket

/-- R254, R255: as a millisecond passes, exactly the tickets that wait behind the head beyond the bound are removed, wherever they sit;
each of their callers, and nobody else, is told ArbiterTimeout, or, for a later ticket of an upgrade, the failure of its state
(log 24); the head, the order of the others and what the host is doing stay (the bound is exceeded when the age is greater than
T_ARB, log 18). -/
def Obligations.EvictionKeepsRemainingOrder : Prop :=
  ∀ (s : State) (h : HostSide) (head : Ticket) (rest : List Ticket), h.conn.queue = head :: rest →
    ∃ kept gone : List Ticket, (hostEvent s .msPassed h).conn.queue = head :: kept ∧
      (hostEvent s .msPassed h).outcomes = h.outcomes ++ gone.map (fun t => (t.caller, t.abandoned .arbiterTimeout)) ∧
      (∀ t : Ticket, t.caller = t.id ∨ (∀ st u, t.job ≠ .upgrade st u) → t.abandoned .arbiterTimeout = .arbiterTimeout) ∧
      (∀ (t : Ticket) (st : UpStage) (u : UpgradeData), t.caller ≠ t.id → t.job = .upgrade st u → t.abandoned .arbiterTimeout = .upgradeFailed st.failure) ∧
      kept.Sublist rest ∧ gone.Sublist rest ∧
      (∀ t, t ∈ kept ↔ t ∈ rest ∧ h.now + 1 - t.created ≤ s.cfg.tArb) ∧
      (∀ t, t ∈ gone ↔ t ∈ rest ∧ s.cfg.tArb < h.now + 1 - t.created) ∧
      kept.length + gone.length = rest.length ∧
      (hostEvent s .msPassed h).stage = h.stage ∧ (hostEvent s .msPassed h).now = h.now + 1

/-- R261: every step keeps what is known of the Connection's rate during a negotiation: from the flush of an attempt to the end of its
probe it is the rate of the rung (the whole ladder runs under one ticket, log 22; the reset queue is log 17). -/
def Obligations.StepKeepsNegotiatedRate : Prop :=
  HostSide.RateKnown State.reset.cfg State.reset.host ∧
  ∀ s t : State, s.host.RateKnown s.cfg → step s = .next t → t.host.RateKnown t.cfg

/-- R261, R264: the end of a negotiation attempt: NoError selects the rung's rate and stops; any other outcome goes to the next rung
or, on the last, to BaudError; a failed open is PortError on every rung (log 18). -/
def Obligations.NegotiationStopsAtFirstGoodRate : Prop :=
  (∀ (s : State) (tk : Ticket) (rest : List Ticket) (rung : Nat), s.host.RateKnown s.cfg →
    s.host.conn.queue = tk :: rest → tk.job = .negotiate rung .probe → s.err = .noError →
    ∃ b, s.cfg.baudLadder[rung]? = some b ∧ jobDone s tk.job = .finish (.connected b)) ∧
  ∀ (s : State) (rung : Nat),
    (s.err = .noError → jobDone s (.negotiate rung .probe) = .finish (.connected s.host.conn.baud)) ∧
    (s.err ≠ .noError → rung + 1 < s.cfg.baudLadder.length →
      ∃ st, jobDone s (.negotiate rung .probe) = .negotiate (rung + 1) st) ∧
    (s.err ≠ .noError → s.cfg.baudLadder.length ≤ rung + 1 →
      jobDone s (.negotiate rung .probe) = .finish .baudError) ∧
    jobAct s.cfg (.negotiate rung .probe) = .present (.xrd s.cfg.nopReg 0#16) ∧
    jobAct s.cfg (.negotiate rung .flush) = .present (.flush 0#1 0#8 0#16) ∧
    jobDone s (.negotiate rung .flush) = .negotiate rung .probe ∧
    (∀ b, s.cfg.baudLadder[rung]? = some b → jobAct s.cfg (.negotiate rung .opening) = .reopen b) ∧
    jobOpened s.cfg false (.negotiate rung .opening) = .finish .portError

/-- R267, R271, R273: any ErrorCode other than NoError ends the upgrade with that state's failure, except CommandPending answered to the
done write, which leads to POLL (R270); a download-status with bit 0 clear ends it with "status invalid", Restoring is reached
only with bit 0 set; the serial number read first is what the checks after the two rate changes compare with, and a mismatch is
Failed (R268, R272); and the upgrade reaches Done only from the last serial check, with NoError (a failed POLL is Failed, log 18;
so is a lost reply to an I/O-capability write, log 25; the failures without a printed text, log 20). -/
def Obligations.UpgradeAbortsOnAnyError : Prop :=
  ∀ (s : State) (st : UpStage) (u : UpgradeData), st ≠ .reopenFast → st ≠ .reopenOrig →
    (s.err ≠ .noError → ¬ (st = .writeDone ∧ s.err = .commandPending) →
      jobDone s (.upgrade st u) = .finish (.upgradeFailed
        (if st.phase = .aborting then .preFlightDiscrepancy else if st.phase = .verifying then .statusInvalid
          else .stoppedIn st.phase))) ∧
    (st = .writeDone → s.err = .commandPending → jobDone s (.upgrade st u) = .upgrade .pollDone u) ∧
    (st = .readStatus → s.value.getLsbD 0 = false →
      jobDone s (.upgrade st u) = .finish (.upgradeFailed .statusInvalid)) ∧
    (st = .readStatus → s.err = .noError → s.value.getLsbD 0 = true → jobDone s (.upgrade st u) = .upgrade .writeRun u) ∧
    (st = .readSerial → s.err = .noError → ∃ u', jobDone s (.upgrade st u) = .upgrade .writeAbort u' ∧ u'.serial = s.result ∧
      u'.payload = u.payload) ∧
    (st = .checkSerialFast → s.err = .noError → s.result ≠ u.serial →
      jobDone s (.upgrade st u) = .finish (.upgradeFailed (.stoppedIn .initiating))) ∧
    (st = .checkSerialFast → s.err = .noError → s.result = u.serial → jobDone s (.upgrade st u) = .upgrade .writeInit u) ∧
    (st = .checkSerialOrig → s.err = .noError → s.result ≠ u.serial →
      jobDone s (.upgrade st u) = .finish (.upgradeFailed (.stoppedIn .restoring))) ∧
    (st = .checkSerialOrig → s.err = .noError → s.result = u.serial → jobDone s (.upgrade st u) = .finish .upgradeDone) ∧
    (jobDone s (.upgrade st u) = .finish .upgradeDone → st = .checkSerialOrig ∧ s.err = .noError ∧ s.result = u.serial)

/-- R266 to R272: the upgrade never goes back: each completed command or answered open moves it to the same state or the next
one in the order of R266, or to Failed (an empty payload skips Streaming, log 18); the serial number kept from the first read stays
as it is; and after each of its two changes of the rate a
FLUSH stands before the next frame command (R352, log 27). -/
def Obligations.UpgradePhasesInOrder : Prop :=
  (∀ (s : State) (u : UpgradeData),
    (∃ st, jobOpened s.cfg true (.upgrade .reopenFast u) = .upgrade st u ∧
      jobAct s.cfg (.upgrade st u) = .present (.flush 0#1 0#8 0#16) ∧
      (s.err = .noError → jobDone s (.upgrade st u) = .upgrade .checkSerialFast u)) ∧
    (∃ st, jobOpened s.cfg true (.upgrade .reopenOrig u) = .upgrade st u ∧
      jobAct s.cfg (.upgrade st u) = .present (.flush 0#1 0#8 0#16) ∧
      (s.err = .noError → jobDone s (.upgrade st u) = .upgrade .checkSerialOrig u))) ∧
  ∀ (s : State) (opened : Bool) (st st' : UpStage) (u u' : UpgradeData),
    jobDone s (.upgrade st u) = .upgrade st' u' ∨ jobOpened s.cfg opened (.upgrade st u) = .upgrade st' u' →
    (st ≠ .readSerial → u'.serial = u.serial) ∧
    (st'.phase = st.phase ∨
    (st.phase = .aborting ∧ st'.phase = .initiating) ∨ (st.phase = .initiating ∧ st'.phase = .streaming) ∨
    (st.phase = .initiating ∧ st'.phase = .finalizing ∧ u'.payload = []) ∨
    (st.phase = .streaming ∧ st'.phase = .finalizing ∧ u'.payload = []) ∨
    (st.phase = .finalizing ∧ st'.phase = .verifying) ∨ (st.phase = .verifying ∧ st'.phase = .restoring))

/-- R252, R256: the host's word reaches the block only through the command port and stands there until the block takes it; only the
action of the head ticket puts one there; while a Connection lives or a ticket is in the queue no other command is offered
(log 21); and the host waits for a command only while the block is busy, so that a reset leaves it free to recover (R341, log 29). -/
def Obligations.HostPresentsThroughCommandPort : Prop :=
  (∀ (s t : State) (w : Word), step s = .next t → t.host.stage = .presenting w → t.pins.cmdValid = true ∧ t.pins.cmd = w) ∧
  (∀ (s t : State) (w : Word), step s = .next t → t.host.stage = .presenting w → s.host.stage ≠ .presenting w →
    s.pins.host = some .act ∧ s.host.stage = .ready ∧ ∃ tk rest, s.host.conn.queue = tk :: rest ∧
      (headAct s.cfg s.host.conn tk = .offer w ∨
        ∃ i, headAct s.cfg s.host.conn tk = .present i ∧ encode i = some w)) ∧
  (∀ s t : State, step s = .next t → t.host.conn.owner ≠ none ∨ t.host.conn.queue ≠ [] →
    (∀ w, t.host.stage ≠ .presenting w) → t.pins.cmdValid = false) ∧
  (∀ (s t : State) (w : Word), step s = .next t → s.host.stage = .presenting w →
    (s.cmdReady = true ∧ s.pins.cmdValid = true ∧ s.pins.cmd = w → t.host.stage = .waiting) ∧
    (¬ (s.cmdReady = true ∧ s.pins.cmdValid = true ∧ s.pins.cmd = w) → t.host.stage = .presenting w)) ∧
  (∀ s t : State, step s = .next t → s.host.stage = .waiting → s.busy = false → t.host.stage ≠ .waiting)

/-- R250, R280: the life of the Connection: it has an owner from the end of a successful `connect`, the caller of that `connect`, and
a close and a failed `connect`, and nothing else, take it away, with the open port; and the next operation of the head ticket, where there is no
Connection with an open transport, is answered without a command, and the Connection stays as it is (what a failed `connect`
leaves and what an operation without a Connection is told are log 23; a later ticket of an upgrade, log 24; the host software at
reset, log 17; that a step with `rst` 1 keeps the Connection, log 30). -/
def Obligations.ConnectionLivesFromConnectToClose : Prop :=
  State.reset.host.conn.owner = none ∧
  (∀ s t : State, step s = .next t → t.host.conn.owner = s.host.conn.owner ∨
    ∃ tk rest, s.host.conn.queue = tk :: rest ∧ s.pins.host = some .act ∧ t.host.conn.queue = rest ∧
      ((∃ b, tk.job = .finish (.connected b) ∧ t.host.conn.owner = some tk.caller ∧
          t.host.outcomes = s.host.outcomes ++ [(tk.caller, .connected b)]) ∨
        (t.host.conn.owner = none ∧ t.host.conn.transport = false ∧
          ∃ o, t.host.outcomes = s.host.outcomes ++ [(tk.caller, o)] ∧ (o = .portError ∨ o = .baudError ∨ o = .disconnected)))) ∧
  (∀ (s : State) (h : HostSide) (tk : Ticket) (rest : List Ticket), h.conn.queue = tk :: rest → h.stage = .ready →
    (∀ b, tk.job = .finish (.connected b) → hostEvent s .act h = { h with
      conn := { h.conn with owner := some tk.caller, queue := rest }
      outcomes := h.outcomes ++ [(tk.caller, .connected b)] }) ∧
    (tk.job = .close → hostEvent s .act h = { h with
      conn := { h.conn with owner := none, transport := false, queue := rest }
      outcomes := h.outcomes ++ [(tk.caller, .disconnected)] }) ∧
    (∀ o, tk.job = .finish o → o = .portError ∨ o = .baudError → hostEvent s .act h = { h with
      conn := { h.conn with owner := none, transport := false, queue := rest }
      outcomes := h.outcomes ++ [(tk.caller, o)] })) ∧
  (∀ (s : State) (h : HostSide) (tk : Ticket) (rest : List Ticket), h.conn.queue = tk :: rest → h.stage = .ready →
    ((∃ i, tk.job = .command i) ∨ (∃ w, tk.job = .word w) ∨ (∃ st u, tk.job = .upgrade st u)) →
    h.conn.owner = none ∨ h.conn.transport = false →
    ∃ o, hostEvent s .act h = { h with
        conn := { h.conn with queue := rest }, stage := .ready, outcomes := h.outcomes ++ [(tk.caller, o)] } ∧
      (tk.caller = tk.id → o = .notConnected) ∧
      (∀ st u, tk.job = .upgrade st u → tk.caller ≠ tk.id → o = .upgradeFailed st.failure))
end

