-- ==== Sys2Proof/Laws/Codec.lean ====
section
/-! SUPPORT. The fields of a command word and of a frame come back as they were put in, and the checksum looks at the other 28 bits
only. -/

namespace Sys2Proof

@[simp] theorem Frame.ofWord_toWord (f : Frame) : Frame.ofWord f.toWord = f := by
  obtain ⟨b0, b1, b2, b3⟩ := f
  simp only [Frame.ofWord, Frame.toWord, Frame.mk.injEq]
  refine ⟨?_, ?_, ?_, ?_⟩ <;>
  · apply BitVec.eq_of_getLsbD_eq
    intro i hi
    simp only [BitVec.getLsbD_extractLsb', BitVec.getLsbD_append]
    have : i < 8 := hi
    interval_cases i <;> simp

@[simp] theorem Frame.toWord_ofWord (w : Word) : (Frame.ofWord w).toWord = w := by
  apply BitVec.eq_of_getLsbD_eq
  intro i hi
  simp only [Frame.ofWord, Frame.toWord, BitVec.getLsbD_extractLsb', BitVec.getLsbD_append]
  have : i < 32 := hi
  interval_cases i <;> simp

@[simp] theorem dataHi_append (h l : Byte) : dataHi (h ++ l) = h := by
  apply BitVec.eq_of_getLsbD_eq
  intro i hi
  have : i < 8 := hi
  simp only [dataHi, BitVec.getLsbD_extractLsb', BitVec.getLsbD_append]
  interval_cases i <;> simp

@[simp] theorem dataLo_append (h l : Byte) : dataLo (h ++ l) = l := by
  apply BitVec.eq_of_getLsbD_eq
  intro i hi
  have : i < 8 := hi
  simp only [dataLo, BitVec.getLsbD_extractLsb', BitVec.getLsbD_append]
  interval_cases i <;> simp

@[simp] theorem dataHi_append_dataLo (d : Half) : dataHi d ++ dataLo d = d := by
  apply BitVec.eq_of_getLsbD_eq
  intro i hi
  have : i < 16 := hi
  simp only [dataLo, dataHi, BitVec.getLsbD_extractLsb', BitVec.getLsbD_append]
  interval_cases i <;> simp

@[simp] theorem cmdOp_cmdWord (op : BitVec 4) (rw : BitVec 1) (reg : Byte) (d : Half) :
    cmdOp (cmdWord op rw reg d) = op := by
  apply BitVec.eq_of_getLsbD_eq
  intro i hi
  have : i < 4 := hi
  simp only [cmdOp, cmdWord, BitVec.getLsbD_extractLsb', BitVec.getLsbD_append]
  interval_cases i <;> simp

@[simp] theorem cmdRw_cmdWord (op : BitVec 4) (rw : BitVec 1) (reg : Byte) (d : Half) :
    cmdRw (cmdWord op rw reg d) = rw := by
  apply BitVec.eq_of_getLsbD_eq
  intro i hi
  have : i < 1 := hi
  simp only [cmdRw, cmdWord, BitVec.getLsbD_extractLsb', BitVec.getLsbD_append]
  interval_cases i; simp

@[simp] theorem cmdReg_cmdWord (op : BitVec 4) (rw : BitVec 1) (reg : Byte) (d : Half) :
    cmdReg (cmdWord op rw reg d) = reg := by
  apply BitVec.eq_of_getLsbD_eq
  intro i hi
  have : i < 8 := hi
  simp only [cmdReg, cmdWord, BitVec.getLsbD_extractLsb', BitVec.getLsbD_append]
  interval_cases i <;> simp

@[simp] theorem cmdData_cmdWord (op : BitVec 4) (rw : BitVec 1) (reg : Byte) (d : Half) :
    cmdData (cmdWord op rw reg d) = d := by
  apply BitVec.eq_of_getLsbD_eq
  intro i hi
  have : i < 16 := hi
  simp only [cmdData, cmdWord, BitVec.getLsbD_extractLsb', BitVec.getLsbD_append]
  interval_cases i <;> simp

/-- Byte0 of a built frame is the checksum nibble followed by the low nibble (R91, R92). -/
theorem nibbles_of_byte0 (c n : Nibble) : (c.setWidth 8 <<< 4) ||| n.setWidth 8 = c ++ n := by
  revert c n; decide

@[simp] theorem topNibble_append (c n : Nibble) : (c ++ n : Byte).extractLsb' 4 4 = c := by
  revert c n; decide

@[simp] theorem lowNibble_append (c n : Nibble) : (c ++ n : Byte).extractLsb' 0 4 = n := by
  revert c n; decide

@[simp] theorem topNibble_append_lowNibble (b : Byte) : (b.extractLsb' 4 4 ++ b.extractLsb' 0 4 : Byte) = b := by
  revert b; decide

@[simp] theorem statusBits_append (c : Nibble) (x st : BitVec 2) :
    (c ++ (x ++ st : Nibble) : Byte).extractLsb' 0 2 = st := by
  revert c x st; decide

@[simp] theorem ignoredBits_append (c : Nibble) (x st : BitVec 2) :
    (c ++ (x ++ st : Nibble) : Byte).extractLsb' 2 2 = x := by
  revert c x st; decide

/-- "The top nibble of `b0` does not enter" (R130). -/
theorem csum_low (b0 b1 b2 b3 : Byte) : csum b0 b1 b2 b3 = csum ((b0.extractLsb' 0 4).setWidth 8) b1 b2 b3 := by
  have h : b0 &&& 0x0F#8 = (b0.extractLsb' 0 4).setWidth 8 &&& 0x0F#8 := by revert b0; decide
  simp only [csum, h]

theorem csum_append (c n : Nibble) (b1 b2 b3 : Byte) : csum (c ++ n) b1 b2 b3 = csum (n.setWidth 8) b1 b2 b3 := by
  rw [csum_low]; simp

@[simp] theorem sealFrame_b0 (n : Nibble) (reg : Byte) (d : Half) :
    (sealFrame n reg d).b0 = csum (n.setWidth 8) reg (dataHi d) (dataLo d) ++ n := by
  simp only [sealFrame, nibbles_of_byte0]

@[simp] theorem sealFrame_b1 (n : Nibble) (reg : Byte) (d : Half) : (sealFrame n reg d).b1 = reg := rfl
@[simp] theorem sealFrame_b2 (n : Nibble) (reg : Byte) (d : Half) : (sealFrame n reg d).b2 = dataHi d := rfl
@[simp] theorem sealFrame_b3 (n : Nibble) (reg : Byte) (d : Half) : (sealFrame n reg d).b3 = dataLo d := rfl

@[simp] theorem sealFrame_data (n : Nibble) (reg : Byte) (d : Half) : (sealFrame n reg d).data = d := by
  simp [Frame.data]

/-- A built frame has a good checksum. -/
@[simp] theorem sealFrame_ok (n : Nibble) (reg : Byte) (d : Half) : (sealFrame n reg d).ok = true := by
  simp [Frame.ok, Frame.csum, csum_append]

/-- A good frame is the one built from its low nibble, register and data. -/
theorem sealFrame_of_ok {f : Frame} (h : f.ok = true) : sealFrame (f.b0.extractLsb' 0 4) f.b1 f.data = f := by
  obtain ⟨b0, b1, b2, b3⟩ := f
  have h : csum b0 b1 b2 b3 = b0.extractLsb' 4 4 := of_decide_eq_true h
  simp only [sealFrame, nibbles_of_byte0, Frame.data, dataHi_append, dataLo_append, ← csum_low, h,
    topNibble_append_lowNibble]

@[simp] theorem rspFrame_ok (x st : BitVec 2) (reg : Byte) (d : Half) : (rspFrame x st reg d).ok = true := sealFrame_ok ..
@[simp] theorem rspFrame_b1 (x st : BitVec 2) (reg : Byte) (d : Half) : (rspFrame x st reg d).b1 = reg := rfl
@[simp] theorem rspFrame_b2 (x st : BitVec 2) (reg : Byte) (d : Half) : (rspFrame x st reg d).b2 = dataHi d := rfl
@[simp] theorem rspFrame_b3 (x st : BitVec 2) (reg : Byte) (d : Half) : (rspFrame x st reg d).b3 = dataLo d := rfl
@[simp] theorem rspFrame_data (x st : BitVec 2) (reg : Byte) (d : Half) : (rspFrame x st reg d).data = d :=
  sealFrame_data ..

@[simp] theorem rspFrame_statusBits (x st : BitVec 2) (reg : Byte) (d : Half) : (rspFrame x st reg d).statusBits = st := by
  rw [Frame.statusBits, rspFrame, sealFrame_b0]
  exact statusBits_append _ x st

@[simp] theorem rspFrame_ignoredBits (x st : BitVec 2) (reg : Byte) (d : Half) :
    (rspFrame x st reg d).ignoredBits = x := by
  rw [Frame.ignoredBits, rspFrame, sealFrame_b0]
  exact ignoredBits_append _ x st

/-- A good frame is the response frame of its own fields. -/
theorem rspFrame_of_ok {f : Frame} (h : f.ok = true) : rspFrame f.ignoredBits f.statusBits f.b1 f.data = f := by
  have hn : (f.ignoredBits ++ f.statusBits : Nibble) = f.b0.extractLsb' 0 4 := by
    simp only [Frame.ignoredBits, Frame.statusBits]
    generalize f.b0 = b
    revert b; decide
  rw [rspFrame, hn, sealFrame_of_ok h]

end Sys2Proof
end

