-- ==== Sys2Proof/Laws/State.lean ====
section
/-! SUPPORT. The small lemmas of the state updates: one per field of `latch`, `sendf`, `complete`, `endPulse`, `nextClock`, true by
definition; later proofs use them instead of unfolding a record update. -/

namespace Sys2Proof.Machine

section
variable (s pre : State)

@[simp] theorem latch_cfg (op : BitVec 4) (rw : BitVec 1) (reg : Byte) (data : Half) : (latch op rw reg data s).cfg = s.cfg := rfl
@[simp] theorem latch_phase (op : BitVec 4) (rw : BitVec 1) (reg : Byte) (data : Half) : (latch op rw reg data s).phase = s.phase := rfl
@[simp] theorem latch_ctx (op : BitVec 4) (rw : BitVec 1) (reg : Byte) (data : Half) : (latch op rw reg data s).ctx = s.ctx := rfl
@[simp] theorem latch_op (op : BitVec 4) (rw : BitVec 1) (reg : Byte) (data : Half) : (latch op rw reg data s).op = op := rfl
@[simp] theorem latch_rw (op : BitVec 4) (rw : BitVec 1) (reg : Byte) (data : Half) : (latch op rw reg data s).rw = rw := rfl
@[simp] theorem latch_reg (op : BitVec 4) (rw : BitVec 1) (reg : Byte) (data : Half) : (latch op rw reg data s).reg = reg := rfl
@[simp] theorem latch_data (op : BitVec 4) (rw : BitVec 1) (reg : Byte) (data : Half) : (latch op rw reg data s).data = data := rfl
@[simp] theorem latch_txbuf (op : BitVec 4) (rw : BitVec 1) (reg : Byte) (data : Half) : (latch op rw reg data s).txbuf = s.txbuf := rfl
@[simp] theorem latch_txi (op : BitVec 4) (rw : BitVec 1) (reg : Byte) (data : Half) : (latch op rw reg data s).txi = s.txi := rfl
@[simp] theorem latch_rxbuf (op : BitVec 4) (rw : BitVec 1) (reg : Byte) (data : Half) : (latch op rw reg data s).rxbuf = s.rxbuf := rfl
@[simp] theorem latch_timer (op : BitVec 4) (rw : BitVec 1) (reg : Byte) (data : Half) : (latch op rw reg data s).timer = s.timer := rfl
@[simp] theorem latch_rem (op : BitVec 4) (rw : BitVec 1) (reg : Byte) (data : Half) : (latch op rw reg data s).rem = s.rem := rfl
@[simp] theorem latch_iter (op : BitVec 4) (rw : BitVec 1) (reg : Byte) (data : Half) : (latch op rw reg data s).iter = s.iter := rfl
@[simp] theorem latch_rxfifo (op : BitVec 4) (rw : BitVec 1) (reg : Byte) (data : Half) : (latch op rw reg data s).rxfifo = s.rxfifo := rfl
@[simp] theorem latch_rxOvf (op : BitVec 4) (rw : BitVec 1) (reg : Byte) (data : Half) : (latch op rw reg data s).rxOvf = s.rxOvf := rfl
@[simp] theorem latch_err (op : BitVec 4) (rw : BitVec 1) (reg : Byte) (data : Half) : (latch op rw reg data s).err = s.err := rfl
@[simp] theorem latch_value (op : BitVec 4) (rw : BitVec 1) (reg : Byte) (data : Half) : (latch op rw reg data s).value = s.value := rfl
@[simp] theorem latch_kind (op : BitVec 4) (rw : BitVec 1) (reg : Byte) (data : Half) : (latch op rw reg data s).kind = s.kind := rfl
@[simp] theorem latch_status (op : BitVec 4) (rw : BitVec 1) (reg : Byte) (data : Half) : (latch op rw reg data s).status = s.status := rfl
@[simp] theorem latch_rspReg (op : BitVec 4) (rw : BitVec 1) (reg : Byte) (data : Half) : (latch op rw reg data s).rspReg = s.rspReg := rfl
@[simp] theorem latch_aeaBuf (op : BitVec 4) (rw : BitVec 1) (reg : Byte) (data : Half) : (latch op rw reg data s).aeaBuf = s.aeaBuf := rfl
@[simp] theorem latch_aeaLen (op : BitVec 4) (rw : BitVec 1) (reg : Byte) (data : Half) : (latch op rw reg data s).aeaLen = s.aeaLen := rfl
@[simp] theorem latch_done (op : BitVec 4) (rw : BitVec 1) (reg : Byte) (data : Half) : (latch op rw reg data s).done = s.done := rfl
@[simp] theorem latch_txlog (op : BitVec 4) (rw : BitVec 1) (reg : Byte) (data : Half) : (latch op rw reg data s).txlog = s.txlog := rfl
@[simp] theorem latch_rxlog (op : BitVec 4) (rw : BitVec 1) (reg : Byte) (data : Half) : (latch op rw reg data s).rxlog = s.rxlog := rfl
@[simp] theorem latch_pins (op : BitVec 4) (rw : BitVec 1) (reg : Byte) (data : Half) : (latch op rw reg data s).pins = s.pins := rfl
@[simp] theorem latch_inputs (op : BitVec 4) (rw : BitVec 1) (reg : Byte) (data : Half) : (latch op rw reg data s).inputs = s.inputs := rfl
@[simp] theorem latch_host (op : BitVec 4) (rw : BitVec 1) (reg : Byte) (data : Half) : (latch op rw reg data s).host = s.host := rfl

@[simp] theorem sendf_cfg (f : Frame) : (sendf f s).cfg = s.cfg := rfl
@[simp] theorem sendf_phase (f : Frame) : (sendf f s).phase = .send := rfl
@[simp] theorem sendf_ctx (f : Frame) : (sendf f s).ctx = s.ctx := rfl
@[simp] theorem sendf_op (f : Frame) : (sendf f s).op = s.op := rfl
@[simp] theorem sendf_rw (f : Frame) : (sendf f s).rw = s.rw := rfl
@[simp] theorem sendf_reg (f : Frame) : (sendf f s).reg = s.reg := rfl
@[simp] theorem sendf_data (f : Frame) : (sendf f s).data = s.data := rfl
@[simp] theorem sendf_txbuf (f : Frame) : (sendf f s).txbuf = f := rfl
@[simp] theorem sendf_txi (f : Frame) : (sendf f s).txi = 0#2 := rfl
@[simp] theorem sendf_rxbuf (f : Frame) : (sendf f s).rxbuf = s.rxbuf := rfl
@[simp] theorem sendf_timer (f : Frame) : (sendf f s).timer = s.timer := rfl
@[simp] theorem sendf_rem (f : Frame) : (sendf f s).rem = s.rem := rfl
@[simp] theorem sendf_iter (f : Frame) : (sendf f s).iter = s.iter := rfl
@[simp] theorem sendf_rxfifo (f : Frame) : (sendf f s).rxfifo = s.rxfifo := rfl
@[simp] theorem sendf_rxOvf (f : Frame) : (sendf f s).rxOvf = s.rxOvf := rfl
@[simp] theorem sendf_err (f : Frame) : (sendf f s).err = s.err := rfl
@[simp] theorem sendf_value (f : Frame) : (sendf f s).value = s.value := rfl
@[simp] theorem sendf_kind (f : Frame) : (sendf f s).kind = s.kind := rfl
@[simp] theorem sendf_status (f : Frame) : (sendf f s).status = s.status := rfl
@[simp] theorem sendf_rspReg (f : Frame) : (sendf f s).rspReg = s.rspReg := rfl
@[simp] theorem sendf_aeaBuf (f : Frame) : (sendf f s).aeaBuf = s.aeaBuf := rfl
@[simp] theorem sendf_aeaLen (f : Frame) : (sendf f s).aeaLen = s.aeaLen := rfl
@[simp] theorem sendf_done (f : Frame) : (sendf f s).done = s.done := rfl
@[simp] theorem sendf_txlog (f : Frame) : (sendf f s).txlog = s.txlog := rfl
@[simp] theorem sendf_rxlog (f : Frame) : (sendf f s).rxlog = s.rxlog := rfl
@[simp] theorem sendf_pins (f : Frame) : (sendf f s).pins = s.pins := rfl
@[simp] theorem sendf_inputs (f : Frame) : (sendf f s).inputs = s.inputs := rfl
@[simp] theorem sendf_host (f : Frame) : (sendf f s).host = s.host := rfl

@[simp] theorem complete_cfg (e : ErrorCode) : (complete e s).cfg = s.cfg := rfl
@[simp] theorem complete_phase (e : ErrorCode) : (complete e s).phase = .idle := rfl
@[simp] theorem complete_ctx (e : ErrorCode) : (complete e s).ctx = s.ctx := rfl
@[simp] theorem complete_op (e : ErrorCode) : (complete e s).op = s.op := rfl
@[simp] theorem complete_rw (e : ErrorCode) : (complete e s).rw = s.rw := rfl
@[simp] theorem complete_reg (e : ErrorCode) : (complete e s).reg = s.reg := rfl
@[simp] theorem complete_data (e : ErrorCode) : (complete e s).data = s.data := rfl
@[simp] theorem complete_txbuf (e : ErrorCode) : (complete e s).txbuf = s.txbuf := rfl
@[simp] theorem complete_txi (e : ErrorCode) : (complete e s).txi = s.txi := rfl
@[simp] theorem complete_rxbuf (e : ErrorCode) : (complete e s).rxbuf = s.rxbuf := rfl
@[simp] theorem complete_timer (e : ErrorCode) : (complete e s).timer = s.timer := rfl
@[simp] theorem complete_rem (e : ErrorCode) : (complete e s).rem = s.rem := rfl
@[simp] theorem complete_iter (e : ErrorCode) : (complete e s).iter = s.iter := rfl
@[simp] theorem complete_rxfifo (e : ErrorCode) : (complete e s).rxfifo = s.rxfifo := rfl
@[simp] theorem complete_rxOvf (e : ErrorCode) : (complete e s).rxOvf = s.rxOvf := rfl
@[simp] theorem complete_err (e : ErrorCode) : (complete e s).err = e := rfl
@[simp] theorem complete_value (e : ErrorCode) : (complete e s).value = s.value := rfl
@[simp] theorem complete_kind (e : ErrorCode) : (complete e s).kind = s.kind := rfl
@[simp] theorem complete_status (e : ErrorCode) : (complete e s).status = s.status := rfl
@[simp] theorem complete_rspReg (e : ErrorCode) : (complete e s).rspReg = s.rspReg := rfl
@[simp] theorem complete_aeaBuf (e : ErrorCode) : (complete e s).aeaBuf = s.aeaBuf := rfl
@[simp] theorem complete_aeaLen (e : ErrorCode) : (complete e s).aeaLen = s.aeaLen := rfl
@[simp] theorem complete_done (e : ErrorCode) : (complete e s).done = true := rfl
@[simp] theorem complete_txlog (e : ErrorCode) : (complete e s).txlog = s.txlog := rfl
@[simp] theorem complete_rxlog (e : ErrorCode) : (complete e s).rxlog = s.rxlog := rfl
@[simp] theorem complete_pins (e : ErrorCode) : (complete e s).pins = s.pins := rfl
@[simp] theorem complete_inputs (e : ErrorCode) : (complete e s).inputs = s.inputs := rfl
@[simp] theorem complete_host (e : ErrorCode) : (complete e s).host = s.host := rfl

@[simp] theorem endPulse_cfg : (endPulse s).cfg = s.cfg := rfl
@[simp] theorem endPulse_phase : (endPulse s).phase = s.phase := rfl
@[simp] theorem endPulse_ctx : (endPulse s).ctx = s.ctx := rfl
@[simp] theorem endPulse_op : (endPulse s).op = s.op := rfl
@[simp] theorem endPulse_rw : (endPulse s).rw = s.rw := rfl
@[simp] theorem endPulse_reg : (endPulse s).reg = s.reg := rfl
@[simp] theorem endPulse_data : (endPulse s).data = s.data := rfl
@[simp] theorem endPulse_txbuf : (endPulse s).txbuf = s.txbuf := rfl
@[simp] theorem endPulse_txi : (endPulse s).txi = s.txi := rfl
@[simp] theorem endPulse_rxbuf : (endPulse s).rxbuf = s.rxbuf := rfl
@[simp] theorem endPulse_timer : (endPulse s).timer = s.timer := rfl
@[simp] theorem endPulse_rem : (endPulse s).rem = s.rem := rfl
@[simp] theorem endPulse_iter : (endPulse s).iter = s.iter := rfl
@[simp] theorem endPulse_rxfifo : (endPulse s).rxfifo = s.rxfifo := rfl
@[simp] theorem endPulse_rxOvf : (endPulse s).rxOvf = s.rxOvf := rfl
@[simp] theorem endPulse_err : (endPulse s).err = s.err := rfl
@[simp] theorem endPulse_value : (endPulse s).value = s.value := rfl
@[simp] theorem endPulse_kind : (endPulse s).kind = s.kind := rfl
@[simp] theorem endPulse_status : (endPulse s).status = s.status := rfl
@[simp] theorem endPulse_rspReg : (endPulse s).rspReg = s.rspReg := rfl
@[simp] theorem endPulse_aeaBuf : (endPulse s).aeaBuf = s.aeaBuf := rfl
@[simp] theorem endPulse_aeaLen : (endPulse s).aeaLen = s.aeaLen := rfl
@[simp] theorem endPulse_done : (endPulse s).done = false := rfl
@[simp] theorem endPulse_txlog : (endPulse s).txlog = s.txlog := rfl
@[simp] theorem endPulse_rxlog : (endPulse s).rxlog = s.rxlog := rfl
@[simp] theorem endPulse_pins : (endPulse s).pins = s.pins := rfl
@[simp] theorem endPulse_inputs : (endPulse s).inputs = s.inputs := rfl
@[simp] theorem endPulse_host : (endPulse s).host = s.host := rfl

@[simp] theorem nextClock_cfg : (nextClock pre s).cfg = s.cfg := rfl
@[simp] theorem nextClock_phase : (nextClock pre s).phase = s.phase := rfl
@[simp] theorem nextClock_ctx : (nextClock pre s).ctx = s.ctx := rfl
@[simp] theorem nextClock_op : (nextClock pre s).op = s.op := rfl
@[simp] theorem nextClock_rw : (nextClock pre s).rw = s.rw := rfl
@[simp] theorem nextClock_reg : (nextClock pre s).reg = s.reg := rfl
@[simp] theorem nextClock_data : (nextClock pre s).data = s.data := rfl
@[simp] theorem nextClock_txbuf : (nextClock pre s).txbuf = s.txbuf := rfl
@[simp] theorem nextClock_txi : (nextClock pre s).txi = s.txi := rfl
@[simp] theorem nextClock_rxbuf : (nextClock pre s).rxbuf = s.rxbuf := rfl
@[simp] theorem nextClock_timer : (nextClock pre s).timer = s.timer := rfl
@[simp] theorem nextClock_rem : (nextClock pre s).rem = s.rem := rfl
@[simp] theorem nextClock_iter : (nextClock pre s).iter = s.iter := rfl
@[simp] theorem nextClock_rxfifo : (nextClock pre s).rxfifo = s.rxfifo := rfl
@[simp] theorem nextClock_rxOvf : (nextClock pre s).rxOvf = s.rxOvf := rfl
@[simp] theorem nextClock_err : (nextClock pre s).err = s.err := rfl
@[simp] theorem nextClock_value : (nextClock pre s).value = s.value := rfl
@[simp] theorem nextClock_kind : (nextClock pre s).kind = s.kind := rfl
@[simp] theorem nextClock_status : (nextClock pre s).status = s.status := rfl
@[simp] theorem nextClock_rspReg : (nextClock pre s).rspReg = s.rspReg := rfl
@[simp] theorem nextClock_aeaBuf : (nextClock pre s).aeaBuf = s.aeaBuf := rfl
@[simp] theorem nextClock_aeaLen : (nextClock pre s).aeaLen = s.aeaLen := rfl
@[simp] theorem nextClock_done : (nextClock pre s).done = s.done := rfl
@[simp] theorem nextClock_txlog : (nextClock pre s).txlog = s.txlog := rfl
@[simp] theorem nextClock_rxlog : (nextClock pre s).rxlog = s.rxlog := rfl
@[simp] theorem nextClock_host : (nextClock pre s).host = hostEdge pre s := rfl
@[simp] theorem nextClock_pins :
    (nextClock pre s).pins = hostDrive (hostEdge pre s) (s.inputs.headD Pins.quiet) := rfl
@[simp] theorem nextClock_inputs : (nextClock pre s).inputs = s.inputs.tail := rfl

end

end Sys2Proof.Machine
end

