-- ==== Sys2Proof/Laws/Ops.lean ====
section
/-! SUPPORT. One lemma per shared operation that says everything it can do, and what no agent step changes: the parameters, the pins,
the coming inputs and the host software. -/

namespace Sys2Proof.Machine

variable {s t u : State}

@[simp] theorem andThen_next (s : State) (k : State → Result) : andThen (.next s) k = k s := rfl
@[simp] theorem andThen_fault (f : Fault) (k : State → Result) : andThen (.fault f) k = .fault f := rfl
@[simp] theorem andThen_refused (f : Refusal) (k : State → Result) : andThen (.refused f) k = .refused f := rfl

theorem andThen_eq_next {r : Result} {k : State → Result} :
    andThen r k = .next t ↔ ∃ s, r = .next s ∧ k s = .next t := by
  cases r <;> simp

theorem whenReady_of_ready {f : State → State} (h : s.cmdReady = true) : whenReady f s = .next (f s) := by
  simp [whenReady, h]

theorem whenReady_of_busy {f : State → State} (h : s.cmdReady = false) : whenReady f s = .next s := by
  simp [whenReady, h]

theorem whenReady_eq_next {f : State → State} (h : whenReady f s = .next t) :
    (s.cmdReady = true ∧ t = f s) ∨ (s.cmdReady = false ∧ t = s) := by
  by_cases hr : s.cmdReady
  · rw [whenReady_of_ready hr] at h; injection h with h; exact .inl ⟨hr, h.symm⟩
  · rw [whenReady_of_busy (by simpa using hr)] at h; injection h with h; exact .inr ⟨by simpa using hr, h.symm⟩

theorem whenWaiting_of_wait {k : State → Result} (h : s.phase = .wait) : whenWaiting k s = k s := by
  simp [whenWaiting, h]

theorem whenWaiting_of_not_wait {k : State → Result} (h : s.phase ≠ .wait) : whenWaiting k s = .next s := by
  simp [whenWaiting, h]

/-- `RX(b)` when there is room (R34). -/
theorem receive_of_room (b : Byte) (h : s.rxCount < s.cfg.rxDepth) :
    receive b s = { s with rxfifo := s.rxfifo ++ [b], rxlog := s.rxlog ++ [b] } := by simp [receive, h]

/-- `RX(b)` when the FIFO is full (R34). -/
theorem receive_of_full (b : Byte) (h : ¬ s.rxCount < s.cfg.rxDepth) :
    receive b s = { s with rxOvf := true, rxlog := s.rxlog ++ [b] } := by simp [receive, h]

/-- `TICK` in WAIT and BWAIT (R166). -/
theorem tick_of_waiting (h : s.phase = .wait ∨ s.phase = .bwait) :
    tick s = { s with timer := min (s.timer + 1) (timerTop s.cfg) } := by simp [tick, h]

/-- `TICK` in every other phase (R166). -/
theorem tick_of_not_waiting (h : ¬ (s.phase = .wait ∨ s.phase = .bwait)) : tick s = s := by simp [tick, h]

/-- An append to the AEA buffer answers a next state exactly when the address exists (R41). -/
theorem aeaAppend_eq_next {b : Byte} : aeaAppend b s = .next t ↔
    s.aeaLen.toNat < Memory.size ∧ t = { s with aeaBuf := s.aeaBuf.write s.aeaLen.toNat b, aeaLen := s.aeaLen + 1#7 } := by
  unfold aeaAppend
  split <;> simp_all [eq_comm]

/-- The only stop of an append. -/
theorem aeaAppend_of_full {b : Byte} (h : Memory.size ≤ s.aeaLen.toNat) : aeaAppend b s = .fault .aeaBufferOverrun := by
  simp [aeaAppend, Nat.not_lt.2 h]

/-- Popping takes the four oldest bytes (R161). -/
theorem popFrame_eq_some {l rest : List Byte} {f : Frame} : popFrame l = some (f, rest) ↔ l = f.bytes ++ rest := by
  obtain ⟨b0, b1, b2, b3⟩ := f
  rcases l with _ | ⟨a, _ | ⟨b, _ | ⟨c, _ | ⟨d, l⟩⟩⟩⟩ <;> simp [popFrame, Frame.bytes, and_assoc]

/-- Four bytes are there exactly when a frame can be popped. -/
theorem popFrame_isSome {l : List Byte} (h : 4 ≤ l.length) : ∃ f rest, popFrame l = some (f, rest) := by
  rcases l with _ | ⟨a, _ | ⟨b, _ | ⟨c, _ | ⟨d, l⟩⟩⟩⟩ <;> simp_all [popFrame]

/-- What no register operation touches. -/
structure SameEnv (s t : State) : Prop where
  cfg : t.cfg = s.cfg
  pins : t.pins = s.pins
  inputs : t.inputs = s.inputs
  host : t.host = s.host

theorem SameEnv.refl (s : State) : SameEnv s s := ⟨rfl, rfl, rfl, rfl⟩

theorem SameEnv.trans (h : SameEnv s t) (h' : SameEnv t u) : SameEnv s u :=
  ⟨h'.cfg.trans h.cfg, h'.pins.trans h.pins, h'.inputs.trans h.inputs, h'.host.trans h.host⟩

/-- A register write before a step that keeps the environment. -/
theorem SameEnv.of_write (h : SameEnv u t) (hc : u.cfg = s.cfg) (hp : u.pins = s.pins) (hi : u.inputs = s.inputs)
    (hh : u.host = s.host) : SameEnv s t :=
  .trans ⟨hc, hp, hi, hh⟩ h

theorem receive_sameEnv (b : Byte) (s : State) : SameEnv s (receive b s) := by
  unfold receive; split <;> exact ⟨rfl, rfl, rfl, rfl⟩

theorem tick_sameEnv (s : State) : SameEnv s (tick s) := by
  unfold tick; split <;> exact ⟨rfl, rfl, rfl, rfl⟩

theorem txAck_sameEnv (s : State) : SameEnv s (txAck s) := by
  unfold txAck; split
  · split <;> exact ⟨rfl, rfl, rfl, rfl⟩
  · exact ⟨rfl, rfl, rfl, rfl⟩
  · exact .refl s

theorem byteGot_sameEnv (s : State) : SameEnv s (byteGot s) := by
  unfold byteGot; split <;> exact ⟨rfl, rfl, rfl, rfl⟩

theorem byteTimeout_sameEnv (s : State) : SameEnv s (byteTimeout s) := ⟨rfl, rfl, rfl, rfl⟩

theorem resetBlock_sameEnv (s : State) : SameEnv s (resetBlock s) := ⟨rfl, rfl, rfl, rfl⟩

theorem aeaEntry_sameEnv (n : Half) (s : State) : SameEnv s (aeaEntry n s) := by
  simp only [aeaEntry]
  split
  · exact ⟨rfl, rfl, rfl, rfl⟩
  · split <;> exact ⟨rfl, rfl, rfl, rfl⟩

theorem gotMain_sameEnv (f : Frame) (st : BitVec 2) (s : State) : SameEnv s (gotMain f st s) := by
  simp only [gotMain]
  split
  · exact (aeaEntry_sameEnv _ _).of_write rfl rfl rfl rfl
  · exact ⟨rfl, rfl, rfl, rfl⟩

theorem gotPoll_sameEnv (f : Frame) (st : BitVec 2) (s : State) : SameEnv s (gotPoll f st s) := by
  simp only [gotPoll]
  split
  · exact ⟨rfl, rfl, rfl, rfl⟩
  · split
    · exact ⟨rfl, rfl, rfl, rfl⟩
    · split <;> exact ⟨rfl, rfl, rfl, rfl⟩

theorem gotBad_sameEnv (f : Frame) (s : State) : SameEnv s (gotBad f s) := by
  unfold gotBad
  split
  · exact ⟨rfl, rfl, rfl, rfl⟩
  · split <;> exact ⟨rfl, rfl, rfl, rfl⟩

theorem gotTimeout_sameEnv (s : State) : SameEnv s (gotTimeout s) := by
  unfold gotTimeout
  split
  · exact ⟨rfl, rfl, rfl, rfl⟩
  · split <;> exact ⟨rfl, rfl, rfl, rfl⟩

theorem aeaContinue_sameEnv (s : State) : SameEnv s (aeaContinue s) := by
  unfold aeaContinue; split <;> exact ⟨rfl, rfl, rfl, rfl⟩

theorem aeaAppend_sameEnv {b : Byte} (h : aeaAppend b s = .next t) : SameEnv s t := by
  obtain ⟨-, rfl⟩ := aeaAppend_eq_next.1 h
  exact ⟨rfl, rfl, rfl, rfl⟩

theorem gotAea_sameEnv {f : Frame} {st : BitVec 2} (h : gotAea f st s = .next t) : SameEnv s t := by
  simp only [gotAea] at h
  split at h
  · simp only [aeaPayload] at h
    obtain ⟨s1, h1, h⟩ := andThen_eq_next.1 h
    have e1 := aeaAppend_sameEnv h1
    split at h
    · obtain ⟨s2, h2, h⟩ := andThen_eq_next.1 h
      have e2 := aeaAppend_sameEnv h2
      injection h with h
      subst h
      have e3 := aeaContinue_sameEnv { s2 with rem := s2.rem - 2#7 }
      exact ((e1.trans e2).trans (e3.of_write rfl rfl rfl rfl)).of_write rfl rfl rfl rfl
    · injection h with h
      subst h
      have e3 := aeaContinue_sameEnv { s1 with rem := 0#7 }
      exact (e1.trans (e3.of_write rfl rfl rfl rfl)).of_write rfl rfl rfl rfl
  · injection h with h
    subst h
    exact ⟨rfl, rfl, rfl, rfl⟩

theorem gotGood_sameEnv {f : Frame} {st : BitVec 2} (h : gotGood f st s = .next t) : SameEnv s t := by
  unfold gotGood at h
  split at h
  · injection h with h; subst h; exact ⟨rfl, rfl, rfl, rfl⟩
  · split at h
    · injection h with h; subst h; exact gotMain_sameEnv ..
    · exact gotAea_sameEnv h
    · injection h with h; subst h; exact gotPoll_sameEnv ..

theorem whenReady_sameEnv {f : State → State} (hf : ∀ s, SameEnv s (f s)) (h : whenReady f s = .next t) : SameEnv s t := by
  rcases whenReady_eq_next h with ⟨-, rfl⟩ | ⟨-, rfl⟩
  · exact hf s
  · exact .refl t

theorem whenWaiting_gotGood_sameEnv {f : Frame} {st : BitVec 2} (h : whenWaiting (gotGood f st) s = .next t) :
    SameEnv s t := by
  unfold whenWaiting at h
  split at h
  · exact gotGood_sameEnv h
  · injection h with h; subst h; exact .refl s

/-- No instruction but a codec function changes the parameters, the pins, the inputs or the host software. -/
theorem exec_sameEnv {i : Instr} (hi : i.space ≠ .codecPort) (h : exec i s = .next t) : SameEnv s t := by
  cases i with
  | rdf => injection h with h; subst h; exact ⟨rfl, rfl, rfl, rfl⟩
  | wrf => injection h with h; subst h; exact ⟨rfl, rfl, rfl, rfl⟩
  | rspOk => exact whenWaiting_gotGood_sameEnv h
  | rspXe => exact whenWaiting_gotGood_sameEnv h
  | rspAea => exact whenWaiting_gotGood_sameEnv h
  | rspCp => exact whenWaiting_gotGood_sameEnv h
  | xrd => simp only [exec, execXrd] at h; refine whenReady_sameEnv ?_ h; exact fun _ => ⟨rfl, rfl, rfl, rfl⟩
  | xwr => simp only [exec, execXwr] at h; refine whenReady_sameEnv ?_ h; exact fun _ => ⟨rfl, rfl, rfl, rfl⟩
  | snd => simp only [exec, execSnd] at h; refine whenReady_sameEnv ?_ h; exact fun _ => ⟨rfl, rfl, rfl, rfl⟩
  | aea => simp only [exec, execAea] at h; refine whenReady_sameEnv ?_ h; exact fun _ => (aeaEntry_sameEnv _ _).of_write rfl rfl rfl rfl
  | poll => simp only [exec, execPoll] at h; refine whenReady_sameEnv ?_ h; exact fun _ => ⟨rfl, rfl, rfl, rfl⟩
  | flush => simp only [exec, execFlush] at h; refine whenReady_sameEnv ?_ h; exact fun _ => ⟨rfl, rfl, rfl, rfl⟩
  | txb => simp only [exec, execTxb] at h; refine whenReady_sameEnv ?_ h; exact fun _ => ⟨rfl, rfl, rfl, rfl⟩
  | rxb => simp only [exec, execRxb] at h; refine whenReady_sameEnv ?_ h; exact fun _ => ⟨rfl, rfl, rfl, rfl⟩
  | ill => simp only [exec, execIll] at h; refine whenReady_sameEnv ?_ h; exact fun _ => ⟨rfl, rfl, rfl, rfl⟩
  | csum => exact absurd rfl hi
  | enc => exact absurd rfl hi
  | dec => exact absurd rfl hi

theorem decodeCommand_space (w : Word) : (decodeCommand w).space = .command := by
  unfold decodeCommand; split <;> rfl

theorem responseOf_space (st x : BitVec 2) (reg : Byte) (d : Half) : (responseOf st x reg d).space = .wireResponse := by
  unfold responseOf
  split
  · rfl
  · split
    · rfl
    · split <;> rfl

/-- A good frame, read as the response instruction it is, runs as the Got-handler of its status. -/
theorem exec_responseOf_of_frame {f : Frame} (hok : f.ok = true) (hp : s.phase = .wait) :
    exec (responseOf f.statusBits f.ignoredBits f.b1 f.data) s = gotGood f f.statusBits s := by
  have h4 : ∀ b : BitVec 2, b ≠ 0#2 → b ≠ 1#2 → b ≠ 2#2 → b = 3#2 := by decide
  have hf := rspFrame_of_ok hok
  unfold responseOf
  split
  · next e => rw [e] at hf ⊢; simp only [exec, execRspOk, hf]; exact whenWaiting_of_wait hp
  · split
    · next e => rw [e] at hf ⊢; simp only [exec, execRspXe, hf]; exact whenWaiting_of_wait hp
    · split
      · next e => rw [e] at hf ⊢; simp only [exec, execRspAea, hf]; exact whenWaiting_of_wait hp
      · next e0 e1 e2 =>
        have e := h4 _ e0 e1 e2
        rw [e] at hf ⊢; simp only [exec, execRspCp, hf]; exact whenWaiting_of_wait hp

/-- The engine's GOT step is the Got-handler of the popped frame: of its status when its checksum is good, ChecksumError else. -/
theorem got_of_frame {f : Frame} {rest : List Byte} (hp : s.phase = .wait) (h : s.rxfifo = f.bytes ++ rest) :
    got s = if f.ok then gotGood f f.statusBits { s with rxfifo := rest } else .next (gotBad f { s with rxfifo := rest }) := by
  by_cases hok : f.ok
  · simp only [got, popFrame_eq_some.2 h, decodeResponse, hok, if_true]
    exact exec_responseOf_of_frame hok (by exact hp)
  · simp only [got, popFrame_eq_some.2 h, decodeResponse, hok, if_false, Bool.false_eq_true]

theorem perform_sameEnv {a : AgentStep} (h : perform a s = .next t) : SameEnv s t := by
  unfold perform at h
  split at h
  · next ha =>
    cases a with
    | cmd w => exact exec_sameEnv (by rw [decodeCommand_space]; decide) h
    | txAck => injection h with h; subst h; exact txAck_sameEnv s
    | rx b => injection h with h; subst h; exact receive_sameEnv b s
    | tick => injection h with h; subst h; exact tick_sameEnv s
    | got =>
      simp only [enabled, Bool.and_eq_true, decide_eq_true_eq] at ha
      obtain ⟨f, rest, hf⟩ := popFrame_isSome ha.2
      replace h : got s = .next t := h
      rw [got_of_frame ha.1 (popFrame_eq_some.1 hf)] at h
      split at h
      · exact (gotGood_sameEnv h).of_write rfl rfl rfl rfl
      · injection h with h; subst h; exact (gotBad_sameEnv _ _).of_write rfl rfl rfl rfl
    | timeout => injection h with h; subst h; exact gotTimeout_sameEnv s
    | bgot => injection h with h; subst h; exact byteGot_sameEnv s
    | btimeout => injection h with h; subst h; exact byteTimeout_sameEnv s
    | reset => injection h with h; subst h; exact resetBlock_sameEnv s
  · injection h with h; subst h; exact .refl s

theorem performAll_sameEnv {l : List AgentStep} (h : performAll l s = .next t) : SameEnv s t := by
  induction l generalizing s with
  | nil => injection h with h; subst h; exact .refl s
  | cons a l ih =>
    obtain ⟨u, hu, h⟩ := andThen_eq_next.1 h
    exact .trans (perform_sameEnv hu) (ih h)

/-- A step answers a next state exactly when the agent steps of the edge do, and it is that state in the next clock. -/
theorem step_eq_next : step s = .next t ↔ ∃ u, performAll (edgeSteps s) (endPulse s) = .next u ∧ t = nextClock s u := by
  unfold step
  rw [andThen_eq_next]
  simp only [Host.Outcome.next.injEq, eq_comm]

end Sys2Proof.Machine
end

