-- ==== Sys2Proof/Laws/HostSide.lean ====
section
/-! SUPPORT. What one step of the host software can do, said once, for proofs about the arbiter, the negotiator, the upgrade and
the Connection. -/

namespace Sys2Proof.Machine

variable {s t pre : State} {h h' : HostSide} {tk : Ticket} {rest : List Ticket}

/-! ## The pieces -/

@[simp] theorem presentWord_conn (w : Word) (h : HostSide) : (presentWord w h).conn = h.conn := rfl
@[simp] theorem presentWord_stage (w : Word) (h : HostSide) : (presentWord w h).stage = .presenting w := rfl
@[simp] theorem presentWord_outcomes (w : Word) (h : HostSide) : (presentWord w h).outcomes = h.outcomes := rfl
@[simp] theorem presentWord_now (w : Word) (h : HostSide) : (presentWord w h).now = h.now := rfl

@[simp] theorem after_queue (n : Nat) (c : Connection) (o : HostOutcome) : (c.after n o).queue = c.queue := by cases o <;> rfl
@[simp] theorem after_nextTicket (n : Nat) (c : Connection) (o : HostOutcome) : (c.after n o).nextTicket = c.nextTicket := by
  cases o <;> rfl
@[simp] theorem after_baud (n : Nat) (c : Connection) (o : HostOutcome) : (c.after n o).baud = c.baud := by cases o <;> rfl
@[simp] theorem after_mode (n : Nat) (c : Connection) (o : HostOutcome) : (c.after n o).mode = c.mode := by cases o <;> rfl

theorem release_of_head (hq : h.conn.queue = tk :: rest) (o : HostOutcome) : release o h =
    { h with
      conn := { h.conn.after tk.caller o with queue := rest }, stage := .ready
      outcomes := h.outcomes ++ [(tk.caller, o)] } := by
  simp [release, hq]

theorem continueJob_of_head (hq : h.conn.queue = tk :: rest) (j : Job) : continueJob j h =
    { h with conn := { h.conn with queue := { tk with job := j } :: rest }, stage := .ready } := by
  simp [continueJob, hq]

theorem evict_of_head (hq : h.conn.queue = tk :: rest) (c : Config) : evict c h =
    { h with
      conn := { h.conn with queue := tk :: rest.filter fun w => !w.expired c h.now }
      outcomes := h.outcomes ++ (rest.filter fun w => w.expired c h.now).map fun w => (w.caller, w.abandoned .arbiterTimeout) } := by
  simp [evict, hq]

/-- Between transactions the job goes on under its ticket, or an upgrade under a new one at the end (R275). -/
theorem advanceJob_of_head (hq : h.conn.queue = tk :: rest) (c : Config) (j : Job) :
    advanceJob c j h = continueJob j h ∨
    (∃ st u, j = .upgrade st u) ∧ advanceJob c j h =
      { h with
        conn := { h.conn with
          nextTicket := h.conn.nextTicket + 1
          queue := rest ++ [{ id := h.conn.nextTicket, created := h.now, caller := tk.caller, job := j }] }
        stage := .ready } := by
  unfold advanceJob
  split
  · next hr =>
    rw [hq]
    cases j with
    | upgrade st u => exact .inr ⟨⟨st, u, rfl⟩, rfl⟩
    | command _ => cases hr
    | word _ => cases hr
    | negotiate _ _ => cases hr
    | recover _ _ => cases hr
    | close => cases hr
    | finish _ => cases hr
  · exact .inl rfl

/-! ## One event -/

/-- What the head ticket's owner can do in one event. -/
inductive HeadMove (s : State) (tk : Ticket) (h h' : HostSide) : Prop where
  /-- Nothing. -/
  | stay (e : h' = h)
  /-- Put a word on the port. -/
  | present (w : Word) (idle : s.busy = false) (ready : h.stage = .ready)
      (act : headAct s.cfg h.conn tk = .offer w ∨ ∃ i, headAct s.cfg h.conn tk = .present i ∧ encode i = some w)
      (e : h' = presentWord w h)
  /-- Ask the platform for a rate. -/
  | reopen (b : Nat) (idle : s.busy = false) (ready : h.stage = .ready) (act : headAct s.cfg h.conn tk = .reopen b)
      (e : h' = { h with stage := .opening b, conn := { h.conn with transport := false } })
  /-- Start a pause. -/
  | pause (ms : Nat) (ready : h.stage = .ready) (act : headAct s.cfg h.conn tk = .pause ms)
      (e : h' = { h with stage := .pausing (pauseEnd s.cfg ms h) })
  /-- Return the outcome and release the ticket. -/
  | release (o : HostOutcome) (ready : h.stage = .ready)
      (act : headAct s.cfg h.conn tk = .deliver o ∨ headAct s.cfg h.conn tk = .close ∧ o = .disconnected)
      (e : h' = release o h)
  /-- Read the results and go on. -/
  | advance (idle : s.busy = false) (seen : h.stage = .seenDone) (e : h' = advanceJob s.cfg (jobDone s tk.job) h)
  /-- Go on after a reset abandoned the command. -/
  | lost (abandoned : h.stage = .abandoned) (e : h' = continueJob (jobAbandoned s.cfg tk.job) h)
  /-- The pause is over. -/
  | resume (till : Nat) (paused : h.stage = .pausing till) (e : h' = continueJob (jobPaused s tk.job) h)

theorem headStep_move (s : State) (tk : Ticket) (h : HostSide) : HeadMove s tk h (headStep s tk h) := by
  unfold headStep
  cases hs : h.stage with
  | ready =>
    dsimp only
    cases ha : headAct s.cfg h.conn tk with
    | present i =>
      simp only [startAct]
      cases he : encode i with
      | none => exact .stay rfl
      | some w =>
        dsimp only
        split
        · exact .stay rfl
        · next hb => exact .present w (by simpa using hb) hs (.inr ⟨i, ha, he⟩) rfl
    | offer w =>
      simp only [startAct]
      split
      · exact .stay rfl
      · next hb => exact .present w (by simpa using hb) hs (.inl ha) rfl
    | reopen b =>
      simp only [startAct]
      split
      · exact .stay rfl
      · next hb => exact .reopen b (by simpa using hb) hs ha rfl
    | pause ms => exact .pause ms hs ha rfl
    | close => exact .release _ hs (.inr ⟨ha, rfl⟩) rfl
    | deliver o => exact .release o hs (.inl ha) rfl
  | seenDone =>
    dsimp only
    split
    · exact .stay rfl
    · next hb => exact .advance (by simpa using hb) hs rfl
  | abandoned => exact .lost hs rfl
  | pausing till =>
    dsimp only
    split
    · exact .resume till hs rfl
    · exact .stay rfl
  | presenting w => exact .stay rfl
  | waiting => exact .stay rfl
  | opening b => exact .stay rfl

/-- What one host event can do. -/
inductive HostMove (s : State) (h h' : HostSide) : HostEvent → Prop where
  | submit (op : CallerOp) (e : h' = submitOp s.cfg op h) : HostMove s h h' (.submit op)
  | msPassed (e : h' = evict s.cfg { h with now := h.now + 1 }) : HostMove s h h' .msPassed
  | idle (ev : HostEvent) (e : h' = h) : HostMove s h h' ev
  | act (tk : Ticket) (rest : List Ticket) (hq : h.conn.queue = tk :: rest) (m : HeadMove s tk h h') : HostMove s h h' .act
  | answered (opened : Bool) (tk : Ticket) (rest : List Ticket) (hq : h.conn.queue = tk :: rest) (b : Nat)
      (opening : h.stage = .opening b)
      (e : h' = continueJob (jobOpened s.cfg opened tk.job)
        { h with conn := { h.conn with transport := opened, baud := if opened then b else h.conn.baud } }) :
      HostMove s h h' (.portReply opened)

theorem hostEvent_move (s : State) (ev : HostEvent) (h : HostSide) : HostMove s h (hostEvent s ev h) ev := by
  cases ev with
  | submit op => exact .submit op rfl
  | msPassed => exact .msPassed rfl
  | act =>
    unfold hostEvent
    dsimp only
    split
    · exact .idle _ rfl
    · next t r hq => exact .act t r hq (headStep_move s t h)
  | portReply o =>
    unfold hostEvent
    dsimp only
    split
    · exact .idle _ rfl
    · next t r hq =>
      unfold portAnswer
      cases hs : h.stage with
      | opening b => exact .answered o t r hq b hs (by rw [hs])
      | ready => exact .idle _ rfl
      | presenting w => exact .idle _ rfl
      | waiting => exact .idle _ rfl
      | seenDone => exact .idle _ rfl
      | abandoned => exact .idle _ rfl
      | pausing till => exact .idle _ rfl

/-! ## One clock edge -/

/-- Watching the ports changes the stage only: from presenting to waiting, from waiting to having seen `done`, from waiting or
having seen `done` to abandoned. -/
theorem hostObserve_cases (pre : State) (h : HostSide) :
    hostObserve pre h = h ∨ (∃ w, h.stage = .presenting w) ∧ hostObserve pre h = { h with stage := .waiting } ∨
      h.stage = .waiting ∧ hostObserve pre h = { h with stage := .seenDone } ∨
      (h.stage = .waiting ∨ h.stage = .seenDone) ∧ hostObserve pre h = { h with stage := .abandoned } := by
  unfold hostObserve
  cases hs : h.stage with
  | presenting w =>
    dsimp only
    split
    · exact .inr (.inl ⟨⟨w, rfl⟩, rfl⟩)
    · exact .inl rfl
  | waiting =>
    dsimp only
    split
    · exact .inr (.inr (.inl ⟨rfl, rfl⟩))
    · split
      · exact .inl rfl
      · exact .inr (.inr (.inr ⟨.inl rfl, rfl⟩))
  | seenDone =>
    dsimp only
    split
    · exact .inl rfl
    · exact .inr (.inr (.inr ⟨.inr rfl, rfl⟩))
  | ready => exact .inl rfl
  | abandoned => exact .inl rfl
  | opening b => exact .inl rfl
  | pausing till => exact .inl rfl

/-- A host never waits on an idle block. -/
theorem hostObserve_not_waiting (hb : pre.busy = false) (hs : h.stage = .waiting) : (hostObserve pre h).stage ≠ .waiting := by
  unfold hostObserve
  rw [hs]
  dsimp only
  split
  · nofun
  · simp [hb]

@[simp] theorem hostObserve_conn (pre : State) (h : HostSide) : (hostObserve pre h).conn = h.conn := by
  rcases hostObserve_cases pre h with e | ⟨-, e⟩ | ⟨-, e⟩ | ⟨-, e⟩ <;> rw [e]

@[simp] theorem hostObserve_outcomes (pre : State) (h : HostSide) : (hostObserve pre h).outcomes = h.outcomes := by
  rcases hostObserve_cases pre h with e | ⟨-, e⟩ | ⟨-, e⟩ | ⟨-, e⟩ <;> rw [e]

@[simp] theorem hostObserve_now (pre : State) (h : HostSide) : (hostObserve pre h).now = h.now := by
  rcases hostObserve_cases pre h with e | ⟨-, e⟩ | ⟨-, e⟩ | ⟨-, e⟩ <;> rw [e]

/-- A step's host side: the ports are watched, then the event of the clock, if there is one, is taken. -/
theorem step_host (hs : step s = .next t) : ∃ u : State, u.cfg = s.cfg ∧ u.host = s.host ∧
    t.pins = hostDrive t.host (s.inputs.headD Pins.quiet) ∧
    ((s.pins.host = none ∧ t.host = hostObserve s s.host) ∨
      ∃ ev, s.pins.host = some ev ∧ HostMove u (hostObserve s s.host) t.host ev) := by
  obtain ⟨u, hu, rfl⟩ := step_eq_next.1 hs
  have env := performAll_sameEnv hu
  refine ⟨u, env.cfg, env.host, by rw [← show u.inputs = s.inputs from env.inputs]; rfl, ?_⟩
  change (_ ∧ hostEdge s u = _) ∨ ∃ ev, _ ∧ HostMove u _ (hostEdge s u) ev
  unfold hostEdge
  rw [show u.host = s.host from env.host]
  cases hp : s.pins.host with
  | none => exact .inl ⟨rfl, rfl⟩
  | some ev => exact .inr ⟨ev, rfl, hostEvent_move u ev _⟩

end Sys2Proof.Machine
end

