-- ==== Sys2Proof/Laws/Memory.lean ====
section
/-! SUPPORT. The AEA buffer memory: read after write, the canonical form kept by every operation, and that memories in canonical
form which read alike are the same list. -/

namespace Sys2Proof.Machine

theorem Memory.wf_nil : Memory.wf [] := by decide

theorem Memory.read_cell_append_same (a : Nat) (b : Byte) (m : Memory) (h : Memory.read m a = Memory.blank) :
    Memory.read (Memory.cell a b ++ m) a = b := by
  unfold Memory.cell
  split <;> simp_all [Memory.read]

theorem Memory.read_cell_append_other (a a' : Nat) (b : Byte) (m : Memory) (h : a' ≠ a) :
    Memory.read (Memory.cell a b ++ m) a' = Memory.read m a' := by
  unfold Memory.cell
  split <;> simp_all [Memory.read, Ne.symm]

/-- An address below every listed one reads blank. -/
theorem Memory.read_of_below (m : Memory) (a : Nat) (h : ∀ c ∈ m, a < c.1) : Memory.read m a = Memory.blank := by
  induction m with
  | nil => rfl
  | cons c m ih =>
    have := h c (by simp)
    simp only [Memory.read]
    rw [if_neg (by omega)]
    exact ih fun d hd => h d (by simp [hd])

theorem Memory.wf_tail {c : Host.Cell} {m : Memory} (h : Memory.wf (c :: m)) : Memory.wf m := by
  obtain ⟨hp, hb⟩ := h
  exact ⟨(List.pairwise_cons.1 hp).2, fun d hd => hb d (by simp [hd])⟩

theorem Memory.wf_head {c : Host.Cell} {m : Memory} (h : Memory.wf (c :: m)) : ∀ d ∈ m, c.1 < d.1 :=
  (List.pairwise_cons.1 h.1).1

/-- A read gives the byte last written there. -/
theorem Memory.read_write_same (m : Memory) (a : Nat) (b : Byte) (h : m.wf) : (m.write a b).read a = b := by
  induction m with
  | nil => simpa [Memory.write] using Memory.read_cell_append_same a b [] rfl
  | cons c m ih =>
    obtain ⟨k, v⟩ := c
    have hd := Memory.wf_head h
    simp only [Memory.write]
    split
    · refine Memory.read_cell_append_same a b _ (Memory.read_of_below _ _ ?_)
      intro d hm
      rcases List.mem_cons.1 hm with rfl | hm
      · assumption
      · have := hd d hm; simp at this; omega
    · split
      · next ha => subst ha; exact Memory.read_cell_append_same a b _ (Memory.read_of_below _ _ hd)
      · next ha => simp only [Memory.read]; rw [if_neg (by omega)]; exact ih (Memory.wf_tail h)

/-- A write leaves every other address alone. -/
theorem Memory.read_write_other (m : Memory) (a a' : Nat) (b : Byte) (h : a' ≠ a) :
    (m.write a b).read a' = m.read a' := by
  induction m with
  | nil => simpa [Memory.write] using Memory.read_cell_append_other a a' b [] h
  | cons c m ih =>
    obtain ⟨k, v⟩ := c
    simp only [Memory.write]
    split
    · exact Memory.read_cell_append_other a a' b _ h
    · split
      · next ha =>
        subst ha
        rw [Memory.read_cell_append_other _ a' b _ h]
        simp [Memory.read, Ne.symm h]
      · simp only [Memory.read]; rw [ih]

/-- The addresses listed after a write. -/
theorem Memory.mem_write {m : Memory} {a : Nat} {b : Byte} {c : Host.Cell} (h : c ∈ m.write a b) :
    c = (a, b) ∧ b ≠ Memory.blank ∨ c ∈ m := by
  induction m with
  | nil => simp only [Memory.write, Memory.cell] at h; split at h <;> simp_all
  | cons d m ih =>
    obtain ⟨k, v⟩ := d
    simp only [Memory.write, Memory.cell] at h
    split at h
    · split at h <;> simp_all
    · split at h
      · split at h <;> simp_all; tauto
      · rcases List.mem_cons.1 h with rfl | h
        · simp
        · rcases ih h with h | h
          · exact .inl h
          · exact .inr (by simp [h])

theorem Memory.write_below {m : Memory} {a n : Nat} {b : Byte} (h : m.below n) (ha : a < n) : (m.write a b).below n := by
  intro c hc
  rcases Memory.mem_write hc with ⟨rfl, -⟩ | hc
  · exact ha
  · exact h c hc

/-- A write keeps the canonical form. -/
theorem Memory.write_wf {m : Memory} (a : Nat) (b : Byte) (h : m.wf) : (m.write a b).wf := by
  refine ⟨?_, fun c hc => ?_⟩
  · induction m with
    | nil => simp only [Memory.write, Memory.cell]; split <;> simp
    | cons c m ih =>
      obtain ⟨k, v⟩ := c
      have hd := Memory.wf_head h
      have ht := ih (Memory.wf_tail h)
      simp only [Memory.write]
      split
      · next hk =>
        unfold Memory.cell
        split
        · exact h.1
        · refine List.pairwise_cons.2 ⟨fun d hm => ?_, h.1⟩
          rcases List.mem_cons.1 hm with rfl | hm
          · exact hk
          · have := hd d hm; simp at this ⊢; omega
      · split
        · next ha =>
          subst ha
          unfold Memory.cell
          split
          · exact (Memory.wf_tail h).1
          · exact List.pairwise_cons.2 ⟨hd, (Memory.wf_tail h).1⟩
        · next h1 h2 =>
          refine List.pairwise_cons.2 ⟨fun d hm => ?_, ht⟩
          rcases Memory.mem_write hm with ⟨rfl, -⟩ | hm
          · simp; omega
          · exact hd d hm
  · rcases Memory.mem_write hc with ⟨rfl, hb⟩ | hc
    · exact hb
    · exact h.2 c hc

/-- Equal memories are equal data: canonical memories that read alike at every address are the same list. -/
theorem Memory.ext_read {m m' : Memory} (h : m.wf) (h' : m'.wf) (he : ∀ a, m.read a = m'.read a) : m = m' := by
  induction m generalizing m' with
  | nil =>
    cases m' with
    | nil => rfl
    | cons c m' =>
      have := he c.1
      have hb := h'.2 c (by simp)
      simp only [Memory.read] at this
      simp at this
      exact absurd this.symm hb
  | cons c m ih =>
    cases m' with
    | nil =>
      have := he c.1
      have hb := h.2 c (by simp)
      simp only [Memory.read] at this
      simp at this
      exact absurd this hb
    | cons c' m' =>
      have hlow := Memory.wf_head h
      have hlow' := Memory.wf_head h'
      have hk : c.1 = c'.1 := by
        rcases Nat.lt_trichotomy c.1 c'.1 with hlt | heq | hlt
        · have h1 : Memory.read (c' :: m') c.1 = Memory.blank :=
            Memory.read_of_below _ _ (by
              intro d hd
              rcases List.mem_cons.1 hd with rfl | hd
              · exact hlt
              · have := hlow' d hd; omega)
          rw [← he] at h1
          simp only [Memory.read] at h1
          simp at h1
          exact absurd h1 (h.2 c (by simp))
        · exact heq
        · have h1 : Memory.read (c :: m) c'.1 = Memory.blank :=
            Memory.read_of_below _ _ (by
              intro d hd
              rcases List.mem_cons.1 hd with rfl | hd
              · exact hlt
              · have := hlow d hd; omega)
          rw [he] at h1
          simp only [Memory.read] at h1
          simp at h1
          exact absurd h1 (h'.2 c' (by simp))
      have hv : c.2 = c'.2 := by
        have := he c.1
        simp only [Memory.read] at this
        simpa [hk] using this
      have hc : c = c' := Prod.ext hk hv
      subst hc
      congr 1
      refine ih (Memory.wf_tail h) (Memory.wf_tail h') fun a => ?_
      by_cases ha : c.1 = a
      · subst ha
        rw [Memory.read_of_below m _ hlow, Memory.read_of_below m' _ hlow']
      · have := he a
        simpa [Memory.read, ha] using this

end Sys2Proof.Machine
end

