-- ==== Sys2Proof/Laws/PerInstr.lean ====
section
/-! SUPPORT. The per-instruction family TableRow: the word of an instruction matches its row of spec/opcode_table.json. -/

namespace Sys2Proof.Laws.TableRow

/-- Every encoded word has the fixed bits of its opcode-table row (30_encoding.md R94, R95, R99, R100). -/
def Statement (i : Instr) : Prop := ∀ w, encode i = some w → w &&& i.rowMask = i.rowMatch

/-- The fixed bits of a request or response frame lie in the low nibble of byte0. -/
theorem frame_row (n m : Nibble) (reg : Byte) (d : Half) :
    (sealFrame n reg d).toWord &&& (0#4 ++ m ++ 0#24 : BitVec 32) = (0#4 ++ (n &&& m) ++ 0#24 : BitVec 32) := by
  simp only [Frame.toWord, sealFrame_b0]
  generalize csum (n.setWidth 8) reg (dataHi d) (dataLo d) = c
  apply BitVec.eq_of_getLsbD_eq
  intro i hi
  have : i < 32 := hi
  simp only [BitVec.getLsbD_and, BitVec.getLsbD_append]
  interval_cases i <;> simp

theorem cmd_row (op : BitVec 4) (rw : BitVec 1) (reg : Byte) (d : Half) :
    cmdWord op rw reg d &&& 0xF0000000#32 = (op ++ 0#28 : BitVec 32) := by
  apply BitVec.eq_of_getLsbD_eq
  intro i hi
  have : i < 32 := hi
  have hm : (0xF0000000#32) = (0xF#4 ++ 0#28 : BitVec 32) := by decide
  rw [hm]
  simp only [cmdWord, BitVec.getLsbD_and, BitVec.getLsbD_append]
  interval_cases i <;> simp

theorem ill_row (sub : BitVec 3) (rw : BitVec 1) (reg : Byte) (d : Half) :
    cmdWord (1#1 ++ sub) rw reg d &&& 0x80000000#32 = 0x80000000#32 := by
  have hm : (0x80000000#32) = (1#1 ++ 0#31 : BitVec 32) := by decide
  rw [hm]
  apply BitVec.eq_of_getLsbD_eq
  intro i hi
  have : i < 32 := hi
  simp only [cmdWord, BitVec.getLsbD_and, BitVec.getLsbD_append]
  interval_cases i <;> simp

theorem rsp_row (x st : BitVec 2) (reg : Byte) (d : Half) :
    (rspFrame x st reg d).toWord &&& 0x03000000#32 = (0#6 ++ st ++ 0#24 : BitVec 32) := by
  have e : (0#4 ++ ((x ++ st) &&& 0x3#4) ++ 0#24 : BitVec 32) = (0#6 ++ st ++ 0#24 : BitVec 32) := by
    revert x st; decide
  rw [← e, ← frame_row (x ++ st) 0x3#4 reg d]
  rfl

theorem rdf (reg : Byte) (d : Half) : Statement (.rdf reg d) := by
  rintro _ ⟨⟩; exact frame_row 0#4 0xF#4 reg d

theorem wrf (reg : Byte) (d : Half) : Statement (.wrf reg d) := by
  rintro _ ⟨⟩; exact frame_row 1#4 0xF#4 reg d

theorem rspOk (x : BitVec 2) (reg : Byte) (d : Half) : Statement (.rspOk x reg d) := by
  rintro _ ⟨⟩; exact rsp_row x 0#2 reg d

theorem rspXe (x : BitVec 2) (reg : Byte) (d : Half) : Statement (.rspXe x reg d) := by
  rintro _ ⟨⟩; exact rsp_row x 1#2 reg d

theorem rspAea (x : BitVec 2) (reg : Byte) (d : Half) : Statement (.rspAea x reg d) := by
  rintro _ ⟨⟩; exact rsp_row x 2#2 reg d

theorem rspCp (x : BitVec 2) (reg : Byte) (d : Half) : Statement (.rspCp x reg d) := by
  rintro _ ⟨⟩; exact rsp_row x 3#2 reg d

theorem xrd (reg : Byte) (d : Half) : Statement (.xrd reg d) := by
  rintro _ ⟨⟩; exact cmd_row 0x0#4 0#1 reg d

theorem xwr (reg : Byte) (d : Half) : Statement (.xwr reg d) := by
  rintro _ ⟨⟩; exact cmd_row 0x1#4 0#1 reg d

theorem snd (rw : BitVec 1) (reg : Byte) (d : Half) : Statement (.snd rw reg d) := by
  rintro _ ⟨⟩; exact cmd_row 0x2#4 rw reg d

theorem aea (rw : BitVec 1) (reg : Byte) (n : Half) : Statement (.aea rw reg n) := by
  rintro _ ⟨⟩; exact cmd_row 0x3#4 rw reg n

theorem poll (rw : BitVec 1) (reg : Byte) (d : Half) : Statement (.poll rw reg d) := by
  rintro _ ⟨⟩; exact cmd_row 0x4#4 rw reg d

theorem flush (rw : BitVec 1) (reg : Byte) (d : Half) : Statement (.flush rw reg d) := by
  rintro _ ⟨⟩; exact cmd_row 0x5#4 rw reg d

theorem txb (rw : BitVec 1) (reg hi b : Byte) : Statement (.txb rw reg hi b) := by
  rintro _ ⟨⟩; exact cmd_row 0x6#4 rw reg (hi ++ b)

theorem rxb (rw : BitVec 1) (reg : Byte) (d : Half) : Statement (.rxb rw reg d) := by
  rintro _ ⟨⟩; exact cmd_row 0x7#4 rw reg d

theorem ill (sub : BitVec 3) (rw : BitVec 1) (reg : Byte) (d : Half) : Statement (.ill sub rw reg d) := by
  rintro _ ⟨⟩; exact ill_row sub rw reg d

theorem csum (b0 b1 b2 b3 : Byte) : Statement (.csum b0 b1 b2 b3) := by rintro _ ⟨⟩

theorem enc (rw : BitVec 1) (reg : Byte) (v : Int) : Statement (.enc rw reg v) := by rintro _ ⟨⟩

theorem dec (b0 b1 b2 b3 : Byte) : Statement (.dec b0 b1 b2 b3) := by rintro _ ⟨⟩

end Sys2Proof.Laws.TableRow
end

