-- ==== Sys2Proof/Laws/Steps.lean ====
section
/-! SUPPORT. What one clock edge does, said once: the agent steps of an edge one after the other, and the edge of a clock that
carries one input, for proofs that follow the machine over several edges. -/

namespace Sys2Proof.Machine

variable {s t u : State}

/-! ## The agent steps of an edge -/

@[simp] theorem perform_tick (s : State) : perform .tick s = .next (tick s) := rfl

@[simp] theorem perform_rx (b : Byte) (s : State) : perform (.rx b) s = .next (receive b s) := rfl

theorem performAll_append (l l' : List AgentStep) (s : State) :
    performAll (l ++ l') s = andThen (performAll l s) (performAll l') := by
  induction l generalizing s with
  | nil => rfl
  | cons a l ih =>
    simp only [List.cons_append, performAll]
    cases h : perform a s <;> simp [ih]

@[simp] theorem performAll_one (a : AgentStep) (s : State) : performAll [a] s = perform a s := by
  simp only [performAll]; cases perform a s <;> rfl

theorem performAll_tickSteps (p : Pins) (s : State) :
    performAll (tickSteps p) s = .next (if p.tick then tick s else s) := by
  unfold tickSteps; cases p.tick <;> rfl

theorem performAll_rxSteps (p : Pins) (s : State) :
    performAll (rxSteps p) s = .next (if p.rxValid then receive p.rxData s else s) := by
  unfold rxSteps; cases p.rxValid <;> rfl

/-- An edge with `rst` low is the TICK and RX steps of the clock and at most one other step, before or after the RX. -/
theorem edgeSteps_shape (hr : s.pins.rst = false) : ∃ a : Option AgentStep,
    edgeSteps s = tickSteps s.pins ++ (rxSteps s.pins ++ a.toList) ∨
    edgeSteps s = tickSteps s.pins ++ (a.toList ++ rxSteps s.pins) := by
  unfold edgeSteps
  simp only [hr, Bool.false_eq_true, if_false]
  cases s.phase <;> dsimp only [waitSteps, byteWaitSteps]
  · split
    · exact ⟨some _, .inl rfl⟩
    · exact ⟨none, .inl rfl⟩
  · split
    · exact ⟨some _, .inl rfl⟩
    · exact ⟨none, .inl rfl⟩
  · split
    · exact ⟨some _, .inr rfl⟩
    · split
      · exact ⟨some _, .inr rfl⟩
      · exact ⟨none, .inr rfl⟩
  · split
    · exact ⟨some _, .inl rfl⟩
    · exact ⟨none, .inl rfl⟩
  · split
    · exact ⟨some _, .inr rfl⟩
    · split
      · exact ⟨some _, .inr rfl⟩
      · exact ⟨none, .inr rfl⟩

/-- TICK changes the timer only. -/
theorem tick_fields (s : State) : (tick s).done = s.done ∧ (tick s).err = s.err ∧ (tick s).phase = s.phase ∧
    (tick s).txlog = s.txlog ∧ (tick s).txbuf = s.txbuf ∧ (tick s).txi = s.txi ∧ (tick s).rxfifo = s.rxfifo := by
  unfold tick; split <;> simp

/-- RX changes the FIFO, its overflow flag and the ghost log only. -/
theorem receive_fields (b : Byte) (s : State) : (receive b s).done = s.done ∧ (receive b s).err = s.err ∧
    (receive b s).phase = s.phase ∧ (receive b s).txlog = s.txlog ∧ (receive b s).txbuf = s.txbuf ∧
    (receive b s).txi = s.txi ∧ (receive b s).timer = s.timer := by
  unfold receive; split <;> simp

/-! ## One clock of a block whose host software has nothing under way -/

/-- The next clock of such a block: the pins take their next values, the command port's unless the arbiter keeps it. -/
def advance (t : State) : State :=
  { t with pins := hostDrive t.host (t.inputs.headD Pins.quiet), inputs := t.inputs.tail }

/-- A clock that offers no command looks the same whoever has the port. -/
theorem hostDrive_of_noCommand {h : HostSide} {p : Pins} (hr : h.stage = .ready) (hp : p.cmdValid = false) :
    hostDrive h p = p := by
  have : { p with cmdValid := false } = p := by cases p; cases hp; rfl
  unfold hostDrive
  rw [hr]
  dsimp only
  split
  · exact this
  · rfl

theorem nextClock_of_ready (hr : t.host.stage = .ready) (hp : s.pins.host = none) : nextClock s t = advance t := by
  have ho : hostObserve s t.host = t.host := by unfold hostObserve; rw [hr]
  simp [nextClock, hostEdge, hp, ho, advance]

theorem step_of_ready (hr : s.host.stage = .ready) (hp : s.pins.host = none)
    (h : performAll (edgeSteps s) (endPulse s) = .next u) : step s = .next (advance u) :=
  step_eq_next.2 ⟨u, h, (nextClock_of_ready (by rw [(performAll_sameEnv h).host]; exact hr) hp).symm⟩

/-- A command word at IDLE. -/
theorem step_command {w : Word} (hr : s.host.stage = .ready) (hp : s.pins = Pins.command w) (hi : s.phase = .idle)
    (h : exec (decodeCommand w) (endPulse s) = .next u) : step s = .next (advance u) := by
  refine step_of_ready hr (by rw [hp]; rfl) ?_
  have he : edgeSteps s = [.cmd w] := by simp [edgeSteps, hp, hi, Pins.command, Pins.quiet, tickSteps, rxSteps]
  have hc : (endPulse s).cmdReady = true := by simp [State.cmdReady, hi, hp, Pins.command, Pins.quiet]
  simp [he, perform, enabled, hc, h]

/-- A byte accepted in SEND. -/
theorem step_accept (hr : s.host.stage = .ready) (hp : s.pins = Pins.accept) (hi : s.phase = .send) :
    step s = .next (advance (txAck (endPulse s))) := by
  refine step_of_ready hr (by rw [hp]; rfl) ?_
  have he : edgeSteps s = [.txAck] := by simp [edgeSteps, hp, hi, Pins.accept, Pins.quiet, tickSteps, rxSteps]
  simp [he, perform, enabled, hi]

/-- A byte delivered in WAIT before the fourth and before the deadline. -/
theorem step_deliver {b : Byte} (hr : s.host.stage = .ready) (hp : s.pins = Pins.deliver b) (hi : s.phase = .wait)
    (h4 : s.rxCount < 4) (ht : s.timer < s.cfg.tResp) : step s = .next (advance (receive b (endPulse s))) := by
  refine step_of_ready hr (by rw [hp]; rfl) ?_
  have he : edgeSteps s = [.rx b] := by
    simp [edgeSteps, hp, hi, Pins.deliver, Pins.quiet, tickSteps, rxSteps, waitSteps, Nat.not_le.2 h4, Nat.not_le.2 ht]
  simp [he]

/-- A tick in WAIT before the fourth byte and before the deadline. -/
theorem step_ticking (hr : s.host.stage = .ready) (hp : s.pins = Pins.ticking) (hi : s.phase = .wait)
    (h4 : s.rxCount < 4) (ht : s.timer < s.cfg.tResp) : step s = .next (advance (tick (endPulse s))) := by
  refine step_of_ready hr (by rw [hp]; rfl) ?_
  have he : edgeSteps s = [.tick] := by
    simp [edgeSteps, hp, hi, Pins.ticking, Pins.quiet, tickSteps, rxSteps, waitSteps, Nat.not_le.2 h4, Nat.not_le.2 ht]
  simp [he]

/-- A clock without input in WAIT with four bytes there: GOT. -/
theorem step_got (hr : s.host.stage = .ready) (hp : s.pins = Pins.quiet) (hi : s.phase = .wait) (h4 : 4 ≤ s.rxCount)
    (h : got (endPulse s) = .next u) : step s = .next (advance u) := by
  refine step_of_ready hr (by rw [hp]; rfl) ?_
  have he : edgeSteps s = [.got] := by simp [edgeSteps, hp, hi, Pins.quiet, tickSteps, rxSteps, waitSteps, h4]
  have hc : 4 ≤ (endPulse s).rxCount := h4
  simp [he, perform, enabled, hi, hc, h]

/-- A clock without input in WAIT after the deadline, with fewer than four bytes there: TIMEOUT. -/
theorem step_timeout (hr : s.host.stage = .ready) (hp : s.pins = Pins.quiet) (hi : s.phase = .wait)
    (h4 : s.rxCount < 4) (ht : s.cfg.tResp ≤ s.timer) : step s = .next (advance (gotTimeout (endPulse s))) := by
  refine step_of_ready hr (by rw [hp]; rfl) ?_
  have he : edgeSteps s = [.timeout] := by
    simp [edgeSteps, hp, hi, Pins.quiet, tickSteps, rxSteps, waitSteps, ht, Nat.not_le.2 h4]
  have hc : (endPulse s).rxCount < 4 := h4
  simp [he, perform, enabled, hi, hc, ht]

/-! ## Runs -/

theorem run_succ {k : Nat} (h : step s = .next t) : core.run (k + 1) s = core.run k t := by
  have e := Host.Core.run.eq_2 core s k
  rw [show core.step s = .next t from h] at e
  exact e

theorem run_stop {k : Nat} (h : ∀ t, step s ≠ .next t) : core.run (k + 1) s ≠ .next u := by
  have e := Host.Core.run.eq_2 core s k
  cases hs : step s with
  | next v => exact absurd hs (h v)
  | fault r => rw [show core.step s = .fault r from hs] at e; rw [e]; nofun
  | refused r => rw [show core.step s = .refused r from hs] at e; rw [e]; nofun

theorem run_add (k m : Nat) (h : core.run k s = .next t) : core.run (k + m) s = core.run m t := by
  induction k generalizing s with
  | zero => cases h; rw [Nat.zero_add]
  | succ k ih =>
    rw [Nat.add_right_comm]
    by_cases hs : ∃ v, step s = .next v
    · obtain ⟨v, hs⟩ := hs
      rw [run_succ hs] at h ⊢
      exact ih h
    · exact absurd h (run_stop (fun v hv => hs ⟨v, hv⟩))

/-- The four bytes of a frame are accepted: the block waits with the timer at 0 (R160). -/
theorem run_send {later : List Pins} (hr : s.host.stage = .ready) (hp : s.pins = Pins.accept) (hi : s.phase = .send)
    (hx : s.txi = 0#2) (hin : s.inputs = Pins.accept :: Pins.accept :: Pins.accept :: later) :
    core.run 4 s = .next
      { s with
        txlog := s.txlog ++ s.txbuf.bytes, txi := 3#2, timer := 0, phase := .wait, done := false
        pins := hostDrive s.host (later.headD Pins.quiet), inputs := later.tail } := by
  obtain ⟨⟩ := s
  dsimp only at *
  subst hi hx hp hin
  have next (p : Pins) (h : p.cmdValid = false) := hostDrive_of_noCommand hr h
  rw [run_succ (step_accept hr rfl rfl), run_succ (step_accept hr (next _ rfl) rfl),
    run_succ (step_accept hr (next _ rfl) rfl), run_succ (step_accept hr (next _ rfl) rfl)]
  simp [core, Host.Core.run, txAck, advance, endPulse, Frame.byte, Frame.bytes]

/-- The four bytes of a reply arrive in WAIT with an empty FIFO. -/
theorem run_receive {later : List Pins} {f : Frame} (hr : s.host.stage = .ready) (hp : s.pins = Pins.deliver f.b0)
    (hi : s.phase = .wait) (hx : s.rxfifo = []) (hd : 4 ≤ s.cfg.rxDepth) (ht : s.timer < s.cfg.tResp)
    (hin : s.inputs = Pins.deliver f.b1 :: Pins.deliver f.b2 :: Pins.deliver f.b3 :: later) :
    core.run 4 s = .next
      { s with
        rxfifo := f.bytes, rxlog := s.rxlog ++ f.bytes, done := false
        pins := hostDrive s.host (later.headD Pins.quiet), inputs := later.tail } := by
  obtain ⟨⟩ := s
  dsimp only at *
  subst hi hx hp hin
  have room : ∀ n, n < 4 → n < (Config.rxDepth ‹Config›) := fun n hn => Nat.lt_of_lt_of_le hn hd
  have next (p : Pins) (h : p.cmdValid = false) := hostDrive_of_noCommand hr h
  rw [run_succ (step_deliver hr rfl rfl (by simp [State.rxCount]) ht),
    receive_of_room _ (by simpa [endPulse, State.rxCount] using room 0 (by decide)),
    run_succ (step_deliver hr (next _ rfl) rfl (by simp [advance, endPulse, State.rxCount]) ht),
    receive_of_room _ (by simpa [advance, endPulse, State.rxCount] using room 1 (by decide)),
    run_succ (step_deliver hr (next _ rfl) rfl (by simp [advance, endPulse, State.rxCount]) ht),
    receive_of_room _ (by simpa [advance, endPulse, State.rxCount] using room 2 (by decide)),
    run_succ (step_deliver hr (next _ rfl) rfl (by simp [advance, endPulse, State.rxCount]) ht),
    receive_of_room _ (by simpa [advance, endPulse, State.rxCount] using room 3 (by decide))]
  simp [core, Host.Core.run, advance, endPulse, Frame.bytes]

/-- A whole exchange from the start of SEND: the frame goes out, the reply comes in, and GOT runs on it. -/
theorem run_exchange {later : List Pins} {f : Frame} (hr : s.host.stage = .ready) (hi : s.phase = .send) (hx : s.txi = 0#2)
    (hf : s.rxfifo = []) (hd : 4 ≤ s.cfg.rxDepth) (ht : 0 < s.cfg.tResp) (hp : s.pins = Pins.accept)
    (hin : s.inputs = (exchangeScript f ++ later).tail)
    (h : got { s with
      phase := .wait, rxfifo := f.bytes, rxlog := s.rxlog ++ f.bytes, txlog := s.txlog ++ s.txbuf.bytes
      txi := 3#2, timer := 0, done := false, pins := Pins.quiet, inputs := later } = .next u) :
    core.run 9 s = .next (advance u) := by
  let v : State := { s with
    txlog := s.txlog ++ s.txbuf.bytes, txi := 3#2, timer := 0, phase := .wait, done := false, pins := Pins.deliver f.b0
    inputs := Pins.deliver f.b1 :: Pins.deliver f.b2 :: Pins.deliver f.b3 :: Pins.quiet :: later }
  have next (p : Pins) (h : p.cmdValid = false) := hostDrive_of_noCommand hr h
  have h1 : core.run 4 s = .next v :=
    (run_send (later := rxScript f ++ Pins.quiet :: later) hr hp hi hx (by rw [hin]; rfl)).trans
      (congrArg (fun p => (.next { v with pins := p } : Result)) (next (Pins.deliver f.b0) rfl))
  have h2 := (run_receive (s := v) (later := Pins.quiet :: later) hr rfl rfl hf hd ht rfl).trans
    (congrArg (fun p => (.next { v with
      rxfifo := f.bytes, rxlog := s.rxlog ++ f.bytes, pins := p, inputs := later } : Result)) (next Pins.quiet rfl))
  exact (run_add 4 5 h1).trans ((run_add 4 1 h2).trans
    (run_succ (step_got hr rfl rfl (by simp [State.rxCount, Frame.bytes]) h)))

/-- Ticks alone bring the timer of a waiting block to the deadline. -/
theorem run_ticks {later : List Pins} (n : Nat) (hr : s.host.stage = .ready) (hi : s.phase = .wait) (h4 : s.rxCount < 4)
    (hp : s.pins = hostDrive s.host ((List.replicate n Pins.ticking ++ later).headD Pins.quiet))
    (hin : s.inputs = (List.replicate n Pins.ticking ++ later).tail) (hd : s.done = false)
    (ht : s.timer + n = s.cfg.tResp) :
    core.run n s = .next { s with
      timer := s.cfg.tResp, pins := hostDrive s.host (later.headD Pins.quiet), inputs := later.tail } := by
  induction n generalizing s with
  | zero => simp [core, Host.Core.run]; cases s; simp_all
  | succ n ih =>
    have hp' : s.pins = Pins.ticking := hp.trans (hostDrive_of_noCommand hr rfl)
    refine (run_succ (step_ticking hr hp' hi h4 (by omega))).trans ?_
    refine (ih (s := advance (tick (endPulse s))) ?_ ?_ ?_ ?_ ?_ ?_ ?_).trans ?_
    all_goals clear hp ih
    all_goals simp [advance, tick, endPulse, hi, hr, hin, List.replicate, timerTop, hd, State.rxCount] at *
    · exact h4
    · omega

end Sys2Proof.Machine
end

