-- ==== Sys2Proof/Tests/Slice0.lean ====
section
/-! SUPPORT. Smoke tests, decode tests with words written out from the encodings of spec/30_encoding.md, one-step tests with the values of
spec/95_test_vectors.md, and for each statement of Certificates/Slice0/Obligations.lean with hypotheses a state and operands
that meet them. -/

namespace Sys2Proof.Tests

open Sys2Proof Sys2Proof.Machine

/-! ## Well-formedness -/

/-- R96: one above the domain, "Refused at integer level: data = 65536" (95_test_vectors.md section 2). -/
theorem test_wf_refuses_above : Instr.wellFormed (.enc 0#1 0#8 65536) = false := by decide

/-- R96: one below the domain, "data = −65537". -/
theorem test_wf_refuses_below : Instr.wellFormed (.enc 0#1 0#8 (-65537)) = false := by decide

/-- R96: the lowest and the highest accepted value (V17, V10). -/
theorem test_wf_accepts_bounds :
    Instr.wellFormed (.enc 1#1 0x36#8 (-65536)) = true ∧ Instr.wellFormed (.enc 1#1 0xFF#8 65535) = true := by decide

/-! ## Decoding: words written out field by field -/

/-- R91, R94, V5: checksum nibble B, 000, rw 0, register 0B, data. -/
theorem test_decode_rdf :
    decode .wireRequest 0b1011_000_0_00001011_0000000000000000#32 = .ok (.rdf 0x0B#8 0#16) := by decide

/-- R91, R94, V6: checksum nibble 6, 000, rw 1, register 14, data 2. -/
theorem test_decode_wrf :
    decode .wireRequest 0b0110_000_1_00010100_0000000000000010#32 = .ok (.wrf 0x14#8 2#16) := by decide

/-- R92, R95, X10: checksum nibble F, ignored bits 10, status 00. -/
theorem test_decode_rsp_ok :
    decode .wireResponse 0b1111_10_00_00110001_0000001111101000#32 = .ok (.rspOk 2#2 0x31#8 1000#16) := by decide

/-- R92, R95, X6: checksum nibble 8, ignored bits 00, status 01. -/
theorem test_decode_rsp_xe :
    decode .wireResponse 0b1000_00_01_00110010_0000000000001000#32 = .ok (.rspXe 0#2 0x32#8 8#16) := by decide

/-- R92, R95, X20: DE AD BE EF is a good frame with ignored bits 11 and status 10. -/
theorem test_decode_rsp_aea :
    decode .wireResponse 0b1101_11_10_10101101_1011111011101111#32 = .ok (.rspAea 3#2 0xAD#8 0xBEEF#16) := by decide

/-- R92, R95, X8: checksum nibble 2, ignored bits 00, status 11. -/
theorem test_decode_rsp_cp :
    decode .wireResponse 0b0010_00_11_00010100_0000000000000100#32 = .ok (.rspCp 0#2 0x14#8 4#16) := by decide

/-- R98, R99: op 0, bits 27:25 set, rw bit set (both ignored), register 31, data FFFF. -/
theorem test_decode_xrd : decode .command 0b0000_111_1_00110001_1111111111111111#32 = .ok (.xrd 0x31#8 0xFFFF#16) := by decide

/-- R98, R99, T2: op 1, register 32, data 8. -/
theorem test_decode_xwr : decode .command 0b0001_000_0_00110010_0000000000001000#32 = .ok (.xwr 0x32#8 8#16) := by decide

/-- R98, R99, T10: op 2, rw 1, register 20, data ABCD. -/
theorem test_decode_snd :
    decode .command 0b0010_000_1_00100000_1010101111001101#32 = .ok (.snd 1#1 0x20#8 0xABCD#16) := by decide

/-- R98, R99, A3: op 3, n = 150. -/
theorem test_decode_aea : decode .command 0b0011_000_0_00000000_0000000010010110#32 = .ok (.aea 0#1 0#8 150#16) := by decide

/-- R98, R99: op 4. -/
theorem test_decode_poll : decode .command 0b0100_010_1_00000001_0000000000000010#32 = .ok (.poll 1#1 1#8 2#16) := by decide

/-- R98, R99: op 5. -/
theorem test_decode_flush : decode .command 0b0101_000_0_00000000_0000000000000000#32 = .ok (.flush 0#1 0#8 0#16) := by decide

/-- R98, R99, B7: op 6, bits 27:8 set, byte A5. -/
theorem test_decode_txb :
    decode .command 0b0110_111_1_11111111_11111111_10100101#32 = .ok (.txb 1#1 0xFF#8 0xFF#8 0xA5#8) := by decide

/-- R98, R99: op 7. -/
theorem test_decode_rxb : decode .command 0b0111_000_0_00000000_0000000000000001#32 = .ok (.rxb 0#1 0#8 1#16) := by decide

/-- R100, I1: op 9 and op F. -/
theorem test_decode_ill :
    decode .command 0b1001_000_0_00000000_0000000000000000#32 = .ok (.ill 1#3 0#1 0#8 0#16) ∧
    decode .command 0xFFFFFFFF#32 = .ok (.ill 7#3 1#1 0xFF#8 0xFFFF#16) := by decide

/-- R106, X9, R93: a bad checksum, a request with bit 3 set, a word on the codec ports. -/
theorem test_decode_rejects :
    decode .wireResponse 0x22040005#32 = .error .badChecksum ∧ decode .wireRequest 0x12000000#32 = .error .notARequest ∧
    decode .wireRequest 0x10000000#32 = .error .badChecksum ∧ decode .codecPort 0#32 = .error .noOpcode := by decide

/-- The hook of the host: the command port's decoder (R100); a word of more than 32 bits is none. -/
theorem test_decodeTableWord :
    decodeTableWord 32 0x50000000 = some (.flush 0#1 0#8 0#16) ∧ decodeTableWord 40 0 = none := by decide

/-! ## States -/

/-- The parameters of the vectors: POLL_MAX = 4, T_IB = 50, the other open ones at some value. -/
def config : Config :=
  { frameLen := 4, tResp := 250, aeaMax := 100, aeaReg := 0x0B#8, nopReg := 0x00#8, tickMs := 1, rxDepth := 16, tIb := 50, pollMax := 4
    tArb := 5000, baudLadder := [4800, 9600, 19200, 38400, 57600, 115200], fillerMax := 5, fillerGap := 10
    fastBaud := 115200, fillerFirst := false, fillerGapFrom := .completed, upgradeOneTicket := true, dldataReg := 0x20#8
    dlcfgInitWrite := 4#16, dlcfgDone := 8#16, dlcfgInitCheck := 16#16, dlcfgRun := 32#16, iocapFast := 1#16, iocapOrig := 0#16, padByte := 0#8 }

/-- The reset state with those parameters. -/
def start : State := { State.reset with cfg := config }

/-- A command waiting for a reply, with these bytes in the FIFO. -/
def waiting (ctx : Ctx) (op : BitVec 4) (rw : BitVec 1) (bytes : List Byte) : State :=
  { start with phase := .wait, ctx := ctx, op := op, rw := rw, rxfifo := bytes }

/-- An extended-address read with `rem` bytes still to fetch and `len` stored. -/
def fetching (rem len : BitVec 7) (bytes : List Byte) : State :=
  { waiting .aea 0x3#4 0#1 bytes with kind := 1#1, rem := rem, aeaLen := len }

/-- A request frame with byte `i` offered. -/
def sending (i : BitVec 2) : State := { start with phase := .send, txbuf := ⟨0x20#8, 0x31#8, 0#8, 0#8⟩, reg := 0x31#8, txi := i }

/-- RXB waiting with `n` ticks counted. -/
def byteWaiting (n : Nat) (bytes : List Byte) : State :=
  { start with phase := .bwait, op := 0x7#4, timer := n, rxfifo := bytes }

/-- A full FIFO that starts with a good frame. -/
def full : List Byte := [0x70#8, 0x31#8, 0x03#8, 0xE8#8] ++ List.replicate 12 0x5A#8

/-- The state a result goes to. -/
def nextOf (r : Result) : Option State :=
  match r with
  | .next t => some t
  | _ => none

/-! ## One instruction -/

/-- R131, V2: a read request frame. -/
theorem test_exec_rdf : (nextOf (exec (.rdf 0x31#8 0#16) start)).map (·.txbuf) = some ⟨0x20#8, 0x31#8, 0#8, 0#8⟩ := by decide

/-- R131, V3: a write request frame. -/
theorem test_exec_wrf : (nextOf (exec (.wrf 0x32#8 8#16) start)).map (·.txbuf) = some ⟨0x81#8, 0x32#8, 0#8, 8#8⟩ := by decide

/-- T1: the request of `XRD 0x31`. -/
theorem test_exec_xrd : (nextOf (exec (.xrd 0x31#8 0#16) start)).map (fun t => (t.phase, t.txbuf)) =
    some (.send, ⟨0x20#8, 0x31#8, 0#8, 0#8⟩) := by decide

/-- T4: the request of `XWR 0x14, 4`. -/
theorem test_exec_xwr : (nextOf (exec (.xwr 0x14#8 4#16) start)).map (fun t => (t.rw, t.txbuf)) =
    some (1#1, ⟨0x01#8, 0x14#8, 0#8, 4#8⟩) := by decide

/-- T10: the request of `SND 1, 0x20, 0xABCD`. -/
theorem test_exec_snd : (nextOf (exec (.snd 1#1 0x20#8 0xABCD#16) start)).map (·.txbuf) =
    some ⟨0x31#8, 0x20#8, 0xAB#8, 0xCD#8⟩ := by decide

/-- T10: its reply DE AD BE EF is discarded although it decodes as status 2. -/
theorem test_snd_reply : (nextOf (got (waiting .main 0x2#4 1#1 [0xDE#8, 0xAD#8, 0xBE#8, 0xEF#8]))).map
    (fun t => (t.err, t.value, t.status, t.rxfifo)) = some (.noError, 0#16, 0#2, []) := by decide

/-- A8, A7: 101 is refused, 100 accepted. -/
theorem test_exec_aea_bound :
    (nextOf (exec (.aea 0#1 0#8 101#16) start)).map (fun t => (t.err, t.value, t.kind, t.txlog)) =
      some (.extendedAddressOverflow, 101#16, 1#1, []) ∧
    (nextOf (exec (.aea 0#1 0#8 100#16) start)).map (fun t => (t.phase, t.txbuf, t.rem)) =
      some (.send, ⟨0xB0#8, 0x0B#8, 0#8, 0#8⟩, 100#7) := by decide

/-- L1: the request of POLL. -/
theorem test_exec_poll : (nextOf (exec (.poll 0#1 0#8 0#16) start)).map (fun t => (t.phase, t.txbuf)) =
    some (.send, ⟨0#8, 0#8, 0#8, 0#8⟩) := by decide

/-- L2: the fourth busy reply ends with PollTimeout. -/
theorem test_poll_timeout : (nextOf (got { waiting .poll 0x4#4 0#1 [0x10#8, 0#8, 1#8, 0#8] with iter := 3 })).map
    (fun t => (t.err, t.iter, t.value)) = some (.pollTimeout, 4, 0x0100#16) := by decide

/-- B4: FLUSH. -/
theorem test_exec_flush : (nextOf (exec (.flush 0#1 0#8 0#16) { start with rxfifo := [0xB0#8, 0x35#8, 0#8, 0xC1#8], rxOvf := true })).map
    (fun t => (t.rxCount, t.rxOvf, t.err, t.done)) = some (0, false, .noError, true) := by decide

/-- B1: the byte of TXB goes out. -/
theorem test_exec_txb : (nextOf (andThen (exec (.txb 0#1 0#8 0#8 0x00#8) start) (perform .txAck))).map
    (fun t => (t.txlog, t.err, t.phase)) = some ([0#8], .noError, .idle) := by decide

/-- B2: RXB with the byte 5A waiting. -/
theorem test_exec_rxb : (nextOf (andThen (exec (.rxb 0#1 0#8 0#16) { start with rxfifo := [0x5A#8] }) (perform .bgot))).map
    (fun t => (t.err, t.value, t.rxfifo)) = some (.noError, 0x005A#16, []) := by decide

/-- B3: no step at the 49th tick, ByteTimeout at the 50th. -/
theorem test_rxb_timeout :
    edgeSteps (byteWaiting 49 []) = [] ∧
    (nextOf (step (byteWaiting 50 []))).map (fun t => (t.err, t.value)) = some (.byteTimeout, 0xFFFF#16) := by decide

/-- I1: an illegal command. -/
theorem test_exec_ill : (nextOf (exec (.ill 1#3 0#1 0#8 0#16) start)).map (fun t => (t.errPort, t.phase, t.done)) =
    some (15#4, .idle, true) := by decide

/-- V13: the checksum nibble of 90 90 00 00 on the decoder port. -/
theorem test_exec_csum : (nextOf (exec (.csum 0x90#8 0x90#8 0#8 0#8) start)).map (·.decCsum) = some 9#4 := by decide

/-- V22: ENC folds a negative operand. -/
theorem test_exec_enc : (nextOf (exec (.enc 1#1 0x31#8 (-100)) start)).map (·.encFrame) =
    some ⟨0x61#8, 0x31#8, 0xFF#8, 0x9C#8⟩ := by decide

/-- R96: ENC outside the domain is refused. -/
theorem test_exec_enc_refused : exec (.enc 1#1 0x31#8 65536) start = .refused .dataOutsideDomain := rfl

/-- X5: DEC of a frame with a bad checksum shows raw register and data, status 0. -/
theorem test_exec_dec : (nextOf (exec (.dec 0x54#8 0x31#8 0x03#8 0xE8#8) start)).map (·.decoded) =
    some ⟨false, 0#2, 0x31#8, 0x03E8#16⟩ := by decide

/-- T1: the reply 70 31 03 E8. -/
theorem test_rsp_ok : (nextOf (got (waiting .main 0#4 0#1 [0x70#8, 0x31#8, 0x03#8, 0xE8#8]))).map
    (fun t => (t.err, t.value, t.rspReg)) = some (.noError, 0x03E8#16, 0x31#8) := by decide

/-- T2: the reply 81 32 00 08. -/
theorem test_rsp_xe : (nextOf (got (waiting .main 1#4 1#1 [0x81#8, 0x32#8, 0#8, 8#8]))).map
    (fun t => (t.err, t.value, t.status)) = some (.executionError, 8#16, 1#2) := by decide

/-- T12: the reply 52 04 00 65 to a read overflows. -/
theorem test_rsp_aea_read : (nextOf (got (waiting .main 0#4 0#1 [0x52#8, 0x04#8, 0#8, 0x65#8]))).map
    (fun t => (t.err, t.value, t.kind, t.status)) = some (.extendedAddressOverflow, 0x65#16, 1#1, 2#2) := by decide

/-- T5: the reply 02 04 00 06 to a write is an error, no continuation. -/
theorem test_rsp_aea_write : (nextOf (got (waiting .main 1#4 1#1 [0x02#8, 0x04#8, 0#8, 6#8]))).map
    (fun t => (t.err, t.kind, t.phase)) = some (.extendedAddressError, 0#1, .idle) := by decide

/-- T3: the reply 63 31 00 07. -/
theorem test_rsp_cp : (nextOf (got (waiting .main 0#4 0#1 [0x63#8, 0x31#8, 0#8, 7#8]))).map
    (fun t => (t.err, t.value)) = some (.commandPending, 7#16) := by decide

/-- T6: the reply 22 04 00 05 is ChecksumError, raw bytes kept. -/
theorem test_bad_checksum : (nextOf (got (waiting .main 0#4 0#1 [0x22#8, 0x04#8, 0#8, 5#8]))).map
    (fun t => (t.err, t.value, t.status, t.rspReg)) = some (.checksumError, 5#16, 0#2, 4#8) := by decide

/-- A1: the third continuation frame of five bytes stores its first byte only. -/
theorem test_aea_odd : (nextOf (got (fetching 1#7 4#7 [0x80#8, 0x0B#8, 0x45#8, 0x46#8]))).map
    (fun t => (t.err, t.aeaLen, t.aeaByte 4, t.aeaByte 5)) = some (.noError, 5#7, 0x45#8, 0#8) := by decide

/-- B5: the byte after a full FIFO is dropped and flagged. -/
theorem test_rx_overflow : ((receive 0x10#8 { start with rxfifo := full }).rxfifo = full) ∧
    (receive 0x10#8 { start with rxfifo := full }).rxOvf = true := by decide

/-- R24: address 100 reads 00. -/
theorem test_aea_rdata : { start with aeaBuf := [(99, 7#8)], pins := { Pins.quiet with aeaAddr := 99#7 } }.aeaRdata = 7#8 ∧
    { start with aeaBuf := [(99, 7#8)], pins := { Pins.quiet with aeaAddr := 100#7 } }.aeaRdata = 0#8 := by decide

/-- R47: what reset leaves on the ports. -/
theorem test_reset_ports : State.reset.cmdReady = true ∧ State.reset.busy = false ∧ State.reset.donePort = false ∧
    State.reset.errPort = 0#4 ∧ State.reset.aeaLen = 0#7 := by decide

/-- Reset memory is in canonical form. -/
theorem test_reset_memory_wf : State.reset.aeaBuf.wf := Memory.wf_nil

/-! ## Witnesses: a state and operands that meet the hypotheses of each statement, at boundary values where there are clauses -/

theorem witness_EncPacksRequestFrame :
    ((-65536 : Int) ≤ -65536 ∧ (-65536 : Int) ≤ 65535) ∧ ((-65536 : Int) ≤ 65535 ∧ (65535 : Int) ≤ 65535) ∧
    ((-65537 : Int) < -65536) ∧ ((65535 : Int) < 65536) ∧ encFrame 1#1 0xFF#8 0xFFFF#16 = encFrame 1#1 0xFF#8 0xFFFF#16 := by
  decide

theorem witness_DecValidatesAndUnpacks :
    (decFrame ⟨0xFF#8, 0xFF#8, 0xFF#8, 0xFF#8⟩).ok = true ∧ (decFrame ⟨0x22#8, 0x04#8, 0#8, 5#8⟩).ok = false := by decide

theorem witness_CodecRoundTrip :
    ((-65536 : Int) ≤ -65536 ∧ (65535 : Int) ≤ 65535) ∧ (⟨0xDE#8, 0xAD#8, 0xBE#8, 0xEF#8⟩ : Frame).ok = true := by decide

theorem witness_ChecksumDetectsSingleBitErrors :
    (⟨0x70#8, 0x31#8, 0x03#8, 0xE8#8⟩ : Frame).ok = true ∧ (31 : Fin 32).val % 4 = (3 : Fin 32).val % 4 ∧ (31 : Fin 32) ≠ 3 := by
  decide

theorem witness_EveryByteGroupIsClassified :
    csum 0x70#8 0x31#8 0x03#8 0xE8#8 = (0x70#8).extractLsb' 4 4 ∧ csum 0x22#8 0x04#8 0#8 5#8 ≠ (0x22#8).extractLsb' 4 4 := by
  decide

theorem witness_ResponseKindsAndLoopback :
    (⟨0x63#8, 0x31#8, 0#8, 7#8⟩ : Frame).ok = true ∧ (⟨0x13#8, 0#8, 1#8, 0#8⟩ : Frame).ok = false := by decide

theorem witness_DecodeOfEncodeIsIdentity :
    Instr.wellFormed (.ill 7#3 1#1 0xFF#8 0xFFFF#16) = true ∧ encode (.ill 7#3 1#1 0xFF#8 0xFFFF#16) = some 0xF1FFFFFF#32 ∧
    Instr.wellFormed (.rspAea 3#2 0xAD#8 0xBEEF#16) = true ∧ encode (.rspAea 3#2 0xAD#8 0xBEEF#16) = some 0xDEADBEEF#32 := by
  decide

theorem witness_WireFrameReencodes :
    decodeResponse ⟨0xDE#8, 0xAD#8, 0xBE#8, 0xEF#8⟩ = .ok (.rspAea 3#2 0xAD#8 0xBEEF#16) ∧
    decodeRequest ⟨0x61#8, 0x14#8, 0#8, 2#8⟩ = .ok (.wrf 0x14#8 2#16) := by decide

theorem witness_CommandDecodeByOpcode :
    ([0x0#4, 0x1#4, 0x2#4, 0x3#4, 0x4#4, 0x5#4, 0x6#4, 0x7#4].map fun o => (cmdWord o 1#1 0xFF#8 0xFFFF#16).extractLsb' 28 4) =
      [0x0#4, 0x1#4, 0x2#4, 0x3#4, 0x4#4, 0x5#4, 0x6#4, 0x7#4] ∧
    (0x80000000#32).extractLsb' 31 1 = 1#1 ∧ (0xFFFFFFFF#32).extractLsb' 31 1 = 1#1 ∧
    0x40000000#32 ||| 0x0E000000#32 = 0x4E000000#32 ||| 0x0E000000#32 ∧
    (0x10000000#32).extractLsb' 29 3 = 0#3 ∧ 0x10000000#32 ||| 0x0F000000#32 = 0x1F000000#32 ||| 0x0F000000#32 := by decide

theorem witness_AssembledWordLayout :
    ((-65536 : Int) ≤ -65536 ∧ (65535 : Int) ≤ 65535) ∧ ((-65537 : Int) < -65536) ∧ ((65535 : Int) < 65536) := by decide

/-- For every statement about a command accepted from the port: TransactionsAccepted, RawByteWrite, ByteReadWithTimeout,
IllegalInstructionCompletes, PollCommand, SendOnlyTransaction, FlushDiscardsPendingInput. -/
theorem witness_command_accepted :
    start.cmdReady = true ∧ State.cmdReady { start with pins := Pins.command 0x50000000#32 } = true ∧
    (Pins.command 0x50000000#32).cmdValid = true ∧ (Pins.command 0x50000000#32).cmd.extractLsb' 28 4 = 0x5#4 := by decide

/-- AeaEntryRule: the counts 101, 0, 1 and 100 as operand; the counts 101, 0 and 100 in a good status 2 reply (T12, T13, T14). -/
theorem witness_AeaEntryRule :
    start.cfg.aeaMax ≤ Memory.size ∧ start.cmdReady = true ∧ start.cfg.aeaMax < (101#16).toNat ∧ (0#16).toNat ≤ start.cfg.aeaMax ∧
    (1#16 ≠ 0#16 ∧ (1#16).toNat ≤ start.cfg.aeaMax) ∧ (100#16 ≠ 0#16 ∧ (100#16).toNat ≤ start.cfg.aeaMax) ∧
    (waiting .main 0#4 0#1 [0x52#8, 4#8, 0#8, 0x65#8]).phase = .wait ∧ (waiting .main 0#4 0#1 []).ctx = .main ∧
    (waiting .main 0#4 0#1 []).op ≠ 0x2#4 ∧ (waiting .main 0#4 0#1 []).rw = 0#1 ∧
    (waiting .main 0#4 0#1 [0x52#8, 4#8, 0#8, 0x65#8]).rxfifo = (⟨0x52#8, 4#8, 0#8, 0x65#8⟩ : Frame).bytes ++ [] ∧
    (∀ f ∈ [(⟨0x52#8, 4#8, 0#8, 0x65#8⟩ : Frame), ⟨0x62#8, 4#8, 0#8, 0#8⟩, ⟨0x42#8, 4#8, 0#8, 0x64#8⟩],
      f.ok = true ∧ f.statusBits = 2#2) ∧
    [(⟨0x52#8, 4#8, 0#8, 0x65#8⟩ : Frame), ⟨0x62#8, 4#8, 0#8, 0#8⟩, ⟨0x42#8, 4#8, 0#8, 0x64#8⟩].map (·.data) =
      [101#16, 0#16, 100#16] := by decide

theorem witness_RawByteWrite : { start with phase := .bsend, op := 0x6#4 }.phase = Phase.bsend := by decide

theorem witness_ByteReadWithTimeout :
    ((byteWaiting 50 [0x5A#8]).phase = .bwait ∧ (byteWaiting 50 [0x5A#8]).rxfifo = [0x5A#8] ∧
      (byteWaiting 50 [0x5A#8]).pins.rst = false) ∧
    ((byteWaiting 50 []).rxfifo = [] ∧ (byteWaiting 50 []).cfg.tIb ≤ (byteWaiting 50 []).timer) ∧
    ((byteWaiting 49 []).rxfifo = [] ∧ (byteWaiting 49 []).timer < (byteWaiting 49 []).cfg.tIb) := by decide

theorem witness_IllegalCommandCompletes :
    start.cmdReady = true ∧ (0x80000000#32).extractLsb' 31 1 = 1#1 ∧ (0xFFFFFFFF#32).extractLsb' 31 1 = 1#1 := by decide

theorem witness_BusyPortTakesNoCommand :
    Instr.space (.poll 0#1 0#8 0#16) = .command ∧ (sending 0#2).cmdReady = false ∧
    State.cmdReady { start with pins := { Pins.quiet with rst := true } } = false := by decide

/-- A next state for each of the five commands, whatever their ignored operands. -/
theorem witness_IgnoredOperandsReachOnlyTheLatch :
    (nextOf (exec (.aea 1#1 9#8 5#16) start)).isSome ∧ (nextOf (exec (.aea 0#1 0#8 5#16) start)).isSome ∧
    (nextOf (exec (.poll 1#1 9#8 5#16) start)).isSome ∧ (nextOf (exec (.flush 1#1 9#8 5#16) start)).isSome ∧
    (nextOf (exec (.txb 1#1 9#8 5#8 7#8) start)).isSome ∧ (nextOf (exec (.rxb 1#1 9#8 5#16) start)).isSome := by decide

theorem witness_SendFrameByteByByte :
    (sending 0#2).phase = .send ∧ (sending 0#2).txi = 0#2 ∧ (sending 2#2).txi ≠ 3#2 ∧ (sending 3#2).txi = 3#2 := by decide

theorem witness_ReceiveFrameUnderDeadline :
    ((waiting .main 0#4 0#1 [1#8, 2#8, 3#8, 4#8]).phase = .wait ∧ (waiting .main 0#4 0#1 [1#8, 2#8, 3#8, 4#8]).pins.rst = false ∧
      (waiting .main 0#4 0#1 [1#8, 2#8, 3#8, 4#8]).op ≠ 0x2#4 ∧
      (nextOf (perform .got (waiting .main 0#4 0#1 [1#8, 2#8, 3#8, 4#8]))).isSome) ∧
    { waiting .main 0#4 0#1 [1#8, 2#8, 3#8] with timer := 250 }.rxCount < 4 ∧ start.cfg.tResp ≤ 250 := by decide

theorem witness_MainGotHandler :
    ((waiting .main 0#4 0#1 []).phase = .wait ∧ (waiting .main 0#4 0#1 []).ctx = .main ∧ (waiting .main 0#4 0#1 []).op ≠ 0x2#4) ∧
    (waiting .main 0#4 0#1 [0x22#8, 0x04#8, 0#8, 5#8]).rxfifo = (⟨0x22#8, 0x04#8, 0#8, 5#8⟩ : Frame).bytes ++ [] ∧
    (⟨0x22#8, 0x04#8, 0#8, 5#8⟩ : Frame).ok = false ∧
    ((⟨0x63#8, 0x31#8, 0#8, 7#8⟩ : Frame).ok = true ∧ (⟨0x63#8, 0x31#8, 0#8, 7#8⟩ : Frame).statusBits ≠ 2#2) ∧
    ((⟨0x02#8, 0x04#8, 0#8, 6#8⟩ : Frame).ok = true ∧ (waiting .main 1#4 1#1 []).rw ≠ 0#1) ∧
    ((⟨0x52#8, 0x04#8, 0#8, 0x65#8⟩ : Frame).ok = true ∧ (⟨0x52#8, 0x04#8, 0#8, 0x65#8⟩ : Frame).statusBits = 2#2 ∧
      (waiting .main 0#4 0#1 []).rw = 0#1) := by decide

theorem witness_ResponsesInMain :
    (waiting .main 1#4 1#1 []).phase = .wait ∧ (waiting .main 1#4 1#1 []).ctx = .main ∧ (waiting .main 1#4 1#1 []).op ≠ 0x2#4 ∧
    (waiting .main 1#4 1#1 []).rw ≠ 0#1 := by decide

/-- ExtendedAddressLoop: `rem` 3, 2, 1 and 0 with the buffer as full as each clause allows; a bad frame; the deadline. -/
theorem witness_ExtendedAddressLoop :
    ((fetching 3#7 98#7 []).phase = .wait ∧ (fetching 3#7 98#7 []).ctx = .aea ∧ 2 < (fetching 3#7 98#7 []).rem.toNat ∧
      (fetching 3#7 98#7 []).aeaLen.toNat + 2 ≤ 100) ∧
    ((fetching 2#7 98#7 []).rem = 2#7 ∧ (fetching 2#7 98#7 []).aeaLen.toNat + 2 ≤ 100) ∧
    ((fetching 1#7 99#7 []).rem.toNat < 2 ∧ (fetching 1#7 99#7 []).aeaLen.toNat + 1 ≤ 100) ∧
    ((fetching 0#7 99#7 []).rem.toNat < 2) ∧
    (⟨0x22#8, 0x04#8, 0#8, 5#8⟩ : Frame).ok = false ∧
    ({ fetching 2#7 2#7 [1#8, 2#8, 3#8] with timer := 250 }.rxCount < 4 ∧ start.cfg.tResp ≤ 250) := by decide

/-- PollCommand: replies with status 3 (L3), a clear high byte (L1), a busy high byte (L2) at the last and the last but one count; a
bad frame; the deadline. -/
theorem witness_PollCommand :
    (waiting .poll 4#4 0#1 [0x23#8, 0#8, 1#8, 0#8]).phase = .wait ∧ (waiting .poll 4#4 0#1 []).ctx = .poll ∧
    (waiting .poll 4#4 0#1 [0x23#8, 0#8, 1#8, 0#8]).rxfifo = (⟨0x23#8, 0#8, 1#8, 0#8⟩ : Frame).bytes ++ [] ∧
    ((⟨0x23#8, 0#8, 1#8, 0#8⟩ : Frame).ok = true ∧ (⟨0x23#8, 0#8, 1#8, 0#8⟩ : Frame).statusBits ≠ 0#2) ∧
    ((⟨0x10#8, 0#8, 0#8, 0x10#8⟩ : Frame).ok = true ∧ (⟨0x10#8, 0#8, 0#8, 0x10#8⟩ : Frame).statusBits = 0#2) ∧
    ((⟨0x10#8, 0#8, 1#8, 0#8⟩ : Frame).ok = true ∧ (⟨0x10#8, 0#8, 1#8, 0#8⟩ : Frame).statusBits = 0#2 ∧
      (⟨0x10#8, 0#8, 1#8, 0#8⟩ : Frame).b2 ≠ 0#8) ∧
    { waiting .poll 4#4 0#1 [] with iter := 3 }.cfg.pollMax ≤ 3 + 1 ∧ 2 + 1 < start.cfg.pollMax ∧
    (⟨0x13#8, 0#8, 1#8, 0#8⟩ : Frame).ok = false ∧
    ({ waiting .poll 4#4 0#1 [] with timer := 250 }.rxCount < 4 ∧ start.cfg.tResp ≤ 250) := by decide

theorem witness_SendOnlyTransaction :
    (waiting .main 2#4 1#1 [1#8, 2#8, 3#8, 4#8]).phase = .wait ∧ (waiting .main 2#4 1#1 [1#8, 2#8, 3#8, 4#8]).ctx = .main ∧
    (waiting .main 2#4 1#1 [1#8, 2#8, 3#8, 4#8]).op = 0x2#4 ∧
    ({ waiting .main 2#4 1#1 [1#8, 2#8, 3#8] with timer := 250 }.rxCount < 4 ∧ start.cfg.tResp ≤ 250) := by decide

theorem witness_MainTimeoutHandler :
    ({ waiting .main 0#4 0#1 [1#8, 2#8, 3#8] with timer := 250 }.phase = .wait ∧
      { waiting .main 0#4 0#1 [1#8, 2#8, 3#8] with timer := 250 }.ctx = .main ∧
      { waiting .main 0#4 0#1 [1#8, 2#8, 3#8] with timer := 250 }.op ≠ 0x2#4 ∧
      { waiting .main 0#4 0#1 [1#8, 2#8, 3#8] with timer := 250 }.rxCount < 4 ∧ start.cfg.tResp ≤ 250) := by decide

/-- ReceiveFifo: 15 and 16 bytes waiting; a pop and a push with a full FIFO, of a frame and of a byte. -/
theorem witness_ReceiveFifo :
    full.tail.length < start.cfg.rxDepth ∧ start.cfg.rxDepth ≤ full.length ∧
    full = (⟨0x70#8, 0x31#8, 0x03#8, 0xE8#8⟩ : Frame).bytes ++ List.replicate 12 0x5A#8 ∧
    (nextOf (step { waiting .main 0#4 0#1 full with pins := Pins.deliver 9#8 })).isSome ∧
    { byteWaiting 0 full with pins := Pins.deliver 9#8 }.rxfifo.length ≤ start.cfg.rxDepth ∧
    (Pins.deliver 9#8).rst = false ∧ (Pins.deliver 9#8).rxValid = true := by decide

/-- TimerCountsTicksWhileWaiting: the step into WAIT, the step into BWAIT, a step that stays in its phase, one that leaves WAIT. -/
theorem witness_TimerCountsTicksWhileWaiting :
    (byteWaiting 0 []).phase = .bwait ∧ start.phase ≠ .wait ∧ start.phase ≠ .bwait ∧
    (nextOf (perform .txAck (sending 3#2))).map (·.phase) = some .wait ∧
    (nextOf (perform (.cmd 0x70000000#32) start)).map (·.phase) = some .bwait ∧
    (nextOf (perform .txAck (sending 2#2))).map (·.phase) = some (sending 2#2).phase ∧
    (nextOf (perform .got (waiting .main 0#4 0#1 full))).map (·.phase) = some .idle := by decide

/-- CommandFrame: commands that go on and commands that complete at once. -/
theorem witness_CommandFrame :
    (nextOf (exec (.xrd 0x31#8 0#16) start)).map (·.phase) = some .send ∧
    (nextOf (exec (.ill 0#3 0#1 0#8 0#16) start)).map (·.phase) = some .idle := by decide

/-- ResponseFrame: a reply outside WAIT, and one in each context. -/
theorem witness_ResponseFrame :
    (nextOf (exec (.rspOk 0#2 0#8 0#16) start)).map (·.phase) = some .idle ∧
    (nextOf (exec (.rspOk 0#2 0#8 0x0101#16) (fetching 2#7 98#7 []))).map (·.aeaLen) = some 100#7 ∧
    (nextOf (exec (.rspOk 0#2 0#8 0x0101#16) (fetching 3#7 98#7 []))).map (·.phase) = some .send ∧
    (nextOf (exec (.rspOk 0#2 0#8 0x0101#16) (waiting .poll 4#4 0#1 []))).map (·.iter) = some 1 ∧
    (nextOf (exec (.rspCp 0#2 0#8 0#16) (waiting .main 2#4 0#1 []))).map (·.err) = some .noError ∧
    (nextOf (exec (.rspCp 0#2 0#8 0#16) (waiting .main 0#4 0#1 []))).map (·.err) = some .commandPending := by decide

theorem config_legal : Config.Legal config := ⟨by decide, by decide, by decide, by decide⟩

/-- StepKeepsInv and InvStatesNeverStop: a state that meets the invariant in the middle of an extended-address read, one byte before
the end of the buffer, with the reply waiting. -/
theorem witness_StepKeepsInv :
    Inv { fetching 1#7 99#7 [0x80#8, 0x0B#8, 0x45#8, 0x46#8] with txbuf := ⟨0xB0#8, 0x0B#8, 0#8, 0#8⟩ } ∧
    (nextOf (step { fetching 1#7 99#7 [0x80#8, 0x0B#8, 0x45#8, 0x46#8] with
      txbuf := ⟨0xB0#8, 0x0B#8, 0#8, 0#8⟩ })).map (fun t => (t.aeaLen, t.aeaBuf)) = some (100#7, [(99, 0x45#8)]) := by
  refine ⟨⟨config_legal, by decide, by decide, Memory.wf_nil, by decide, by decide, by decide, by decide, fun _ => ⟨by decide, ?_⟩,
    by decide, by decide, by decide⟩, by decide⟩
  exact ⟨.inr rfl, rfl, by decide, by decide⟩

/-- PhaseTransitionRelation: each kind of step is enabled in some state and answers a next state. -/
theorem witness_PhaseTransitionRelation :
    (enabled (.cmd 0x30000001#32) start = true ∧ (nextOf (perform (.cmd 0x30000001#32) start)).map (·.phase) = some .send) ∧
    (enabled .txAck (sending 3#2) = true ∧ (nextOf (perform .txAck (sending 3#2))).isSome) ∧
    (enabled .got (waiting .main 0#4 0#1 full) = true ∧ (nextOf (perform .got (waiting .main 0#4 0#1 full))).isSome) ∧
    (enabled .timeout { waiting .main 0#4 0#1 [] with timer := 250 } = true ∧
      (nextOf (perform .timeout { waiting .main 0#4 0#1 [] with timer := 250 })).isSome) ∧
    (enabled .bgot (byteWaiting 0 full) = true ∧ (nextOf (perform .bgot (byteWaiting 0 full))).isSome) ∧
    (enabled .btimeout (byteWaiting 50 []) = true ∧ (nextOf (perform .btimeout (byteWaiting 50 []))).isSome) ∧
    (enabled .reset { start with pins := { Pins.quiet with rst := true } } = true ∧ enabled .got start = false) := by decide

theorem witness_BusyStepIgnoresCommandPort : (sending 1#2).phase ≠ .idle := by decide

theorem witness_ResetWinsOverEveryStep :
    { waiting .main 0#4 0#1 full with pins := { Pins.deliver 9#8 with rst := true } }.pins.rst = true ∧
    (nextOf (step { waiting .main 0#4 0#1 full with pins := { Pins.deliver 9#8 with rst := true } })).map
      (fun t => (t.pins.rst, t.rxfifo)) = some (false, []) := by decide

/-- ErrChangesOnlyAtCompletion: a step without and a step with a completion, a command that ends at its acceptance. -/
theorem witness_ErrChangesOnlyAtCompletion :
    (nextOf (step (sending 1#2))).map (·.done) = some false ∧ (nextOf (step (waiting .main 0#4 0#1 full))).map (·.done) = some true ∧
    (waiting .main 0#4 0#1 full).pins.rst = false ∧ (waiting .main 0#4 0#1 full).phase ≠ .idle ∧
    (start.phase = .idle ∧ (Pins.command 0x30000000#32).cmdValid = true ∧
      (nextOf (step { start with pins := Pins.command 0x30000000#32 })).map (·.phase) = some .idle) := by decide

theorem witness_IdleKeepsResults :
    { start with done := true, value := 7#16 }.phase = .idle ∧ start.pins.rst = false ∧ start.pins.cmdValid = false := by decide

/-- TransmitLogGrowsByOfferedByte: a byte taken, a byte offered but not taken. -/
theorem witness_TransmitLogGrowsByOfferedByte :
    (nextOf (step { sending 1#2 with pins := Pins.accept })).map (·.txlog) = some [0x31#8] ∧
    (nextOf (step (sending 1#2))).map (·.txlog) = some [] := by decide

theorem witness_StepRunsDecodedCommand :
    { start with pins := Pins.command 0x40000000#32 }.phase = .idle ∧ (Pins.command 0x40000000#32).rst = false ∧
    (Pins.command 0x40000000#32).cmdValid = true := by decide

theorem witness_StepRunsDecodedResponse :
    (waiting .main 0#4 0#1 full).phase = .wait ∧ (waiting .main 0#4 0#1 full).pins.rst = false ∧
    (waiting .main 0#4 0#1 full).rxfifo = (⟨0x70#8, 0x31#8, 0x03#8, 0xE8#8⟩ : Frame).bytes ++ List.replicate 12 0x5A#8 ∧
    decodeResponse ⟨0x70#8, 0x31#8, 0x03#8, 0xE8#8⟩ = .ok (.rspOk 0#2 0x31#8 0x03E8#16) := by decide

theorem witness_FetchWordRunsNext :
    0xFFFFFFFF < 2 ^ 32 ∧ start.pins.rxValid = false ∧ decodeTableWord 32 0xFFFFFFFF = some (.ill 7#3 1#1 0xFF#8 0xFFFF#16) := by
  decide

theorem witness_ResultPortViews :
    { start with rxfifo := full }.rxCount ≤ start.cfg.rxDepth ∧ (99#7).toNat < 100 ∧ 100 ≤ (100#7).toNat ∧
    (sending 0#2).busy = true := by decide

theorem witness_TransactionEndToEnd :
    { start with pins := Pins.command 0x00310000#32, inputs := exchangeScript ⟨0x70#8, 0x31#8, 0x03#8, 0xE8#8⟩ ++ [Pins.ticking] }.host.stage = .ready ∧
    start.phase = .idle ∧ start.rxfifo = [] ∧ 4 ≤ start.cfg.rxDepth ∧ 1 ≤ start.cfg.tResp ∧
    (0x1FFFFFFF#32).extractLsb' 29 3 = 0#3 ∧ (⟨0x70#8, 0x31#8, 0x03#8, 0xE8#8⟩ : Frame).ok = true ∧
    (⟨0x70#8, 0x31#8, 0x03#8, 0xE8#8⟩ : Frame).statusBits ≠ 2#2 := by decide

/-- Start of ExtendedReadDeliversPayload: AEA 5 with the three replies of A1. -/
def extendedReplies : List Frame :=
  [⟨0x80#8, 0x0B#8, 0x41#8, 0x42#8⟩, ⟨0xC0#8, 0x0B#8, 0x43#8, 0x44#8⟩, ⟨0x80#8, 0x0B#8, 0x45#8, 0x46#8⟩]

theorem witness_ExtendedReadDeliversPayload :
    Inv { start with
      pins := Pins.command (cmdWord 0x3#4 0#1 0#8 5#16), inputs := extendedReplies.flatMap exchangeScript ++ [Pins.ticking] } ∧
    1 ≤ start.cfg.tResp ∧ start.phase = .idle ∧ start.rxfifo = [] ∧ start.host.stage = .ready ∧ 1 ≤ (5#16).toNat ∧
    (5#16).toNat ≤ start.cfg.aeaMax ∧ extendedReplies.length = ((5#16).toNat + 1) / 2 ∧
    (∀ f ∈ extendedReplies, f.ok = true ∧ f.statusBits = 0#2) := by
  refine ⟨⟨config_legal, by decide, by decide, Memory.wf_nil, by decide, by decide, by decide, by decide, ?_,
    by decide, by decide, by decide⟩, by decide, by decide, by decide, by decide, by decide, by decide, by decide, by decide⟩
  rintro (h | h) <;> exact absurd h (by decide)

theorem witness_SilenceEndsInNoResponse :
    { start with rxfifo := [1#8, 2#8, 3#8] }.rxCount < 4 ∧ start.phase = .idle ∧ start.host.stage = .ready ∧
    (0x13310000#32).extractLsb' 29 3 = 0#3 ∧ 1 ≤ start.cfg.tResp ∧
    { start with pins := Pins.command 0x13310000#32, inputs := silenceScript config ++ [] }.inputs = silenceScript start.cfg ++ [] :=
  ⟨by decide, by decide, by decide, by decide, by decide, rfl⟩

/-- Two callers wait. -/
def queue : List Ticket :=
  [{ id := 3, created := 0, caller := 3, job := .command (.xrd 0#8 0#16) },
   { id := 4, created := 0, caller := 4, job := .close }, { id := 7, created := 1, caller := 7, job := .close }]

/-- The host side with that queue, one millisecond before the bound of the first waiting ticket is exceeded. -/
def hostQueue : HostSide :=
  { HostSide.initial with conn := { HostSide.initial.conn with nextTicket := 8, queue := queue }, now := 5000 }

/-- The same with a Connection that caller 0 opened at 9600 baud. -/
def hostLinked : HostSide :=
  { hostQueue with conn := { hostQueue.conn with owner := some 0, transport := true, baud := 9600 } }

/-- A host whose head ticket does `job` while caller 9 waits to connect. -/
def hostDoing (job : Job) (stage : HostStage) (baud : Nat) : HostSide :=
  { HostSide.initial with
    conn := { HostSide.initial.conn with
      transport := true, baud := baud, nextTicket := 10
      queue := [{ id := 8, created := 0, caller := 8, job := job },
        { id := 9, created := 0, caller := 9, job := .negotiate 0 .opening }] }
    stage := stage }

/-- One step of the host software on an idle block. -/
def hostStep (e : HostEvent) (h : HostSide) : Option State :=
  nextOf (step { start with host := h, pins := { Pins.quiet with host := some e } })

/-- What an upgrade remembers in the tests. -/
def upgradeData : UpgradeData := { serial := .word 9#16, payload := [1#8, 2#8], origBaud := 9600 }

theorem witness_StepKeepsTicketOrder :
    HostSide.Ordered hostQueue ∧
    (nextOf (step { start with host := hostQueue, pins := { Pins.quiet with host := some (.submit .disconnect) } })).map
      (fun t => t.host.conn.queue.map (·.id)) = some [3, 4, 7, 8] :=
  ⟨⟨by decide, by decide⟩, by decide⟩

/-- EvictionKeepsRemainingOrder: as the millisecond passes, ticket 4 is beyond the bound, ticket 7 exactly at it; a later ticket of an
upgrade is beyond it. -/
theorem witness_EvictionKeepsRemainingOrder :
    hostQueue.conn.queue = queue ∧
    start.cfg.tArb < hostQueue.now + 1 - 0 ∧ hostQueue.now + 1 - 1 ≤ start.cfg.tArb ∧
    (hostEvent start .msPassed hostQueue).outcomes = [(4, .arbiterTimeout)] ∧
    Ticket.abandoned .arbiterTimeout { id := 6, created := 0, caller := 5, job := .upgrade .stream upgradeData } =
      .upgradeFailed (.stoppedIn .streaming) := by decide

/-- StepKeepsNegotiatedRate: a probe at the second rung's rate, with a `connect` waiting, and a step from there. -/
theorem witness_StepKeepsNegotiatedRate :
    HostSide.RateKnown config (hostDoing (.negotiate 1 .probe) .ready 9600) ∧
    (hostStep .act (hostDoing (.negotiate 1 .probe) .ready 9600)).map (·.host.stage) = some (.presenting 0x00000000#32) := by
  refine ⟨⟨?_, ?_, ?_, ?_⟩, by decide⟩
  · intro t rest rung st b _ _ h; cases h
  · intro b h; cases h
  · intro t rest rung st h hj; cases h; cases hj; exact (rfl : config.baudLadder[1]? = some 9600)
  · intro t rest w rung st h hw hj; cases h
    simp only [List.mem_singleton] at hw
    subst hw; cases hj; rfl

/-- NegotiationStopsAtFirstGoodRate: the state of the witness above, and the rungs where the clauses meet. -/
theorem witness_NegotiationStopsAtFirstGoodRate :
    (hostDoing (.negotiate 1 .probe) .ready 9600).conn.queue.map (·.job) = [.negotiate 1 .probe, .negotiate 0 .opening] ∧
    start.err = .noError ∧ { start with err := .noResponse }.err ≠ .noError ∧ 4 + 1 < start.cfg.baudLadder.length ∧
    start.cfg.baudLadder.length ≤ 5 + 1 ∧ start.cfg.baudLadder[5]? = some 115200 := by decide

/-- UpgradeAbortsOnAnyError: an error, CommandPending at the done write, a status with bit 0 clear and with bit 0 set, serial
numbers that differ and agree, the last serial check passed. -/
theorem witness_UpgradeAbortsOnAnyError :
    ({ start with err := .checksumError }.err ≠ .noError ∧ UpStage.writeRun ≠ UpStage.reopenFast) ∧
    { start with err := .commandPending }.err = .commandPending ∧
    ({ start with value := 0xFFFE#16 }.err = .noError ∧ { start with value := 0xFFFE#16 }.value.getLsbD 0 = false) ∧
    { start with value := 1#16 }.value.getLsbD 0 = true ∧
    ({ start with value := 8#16 }.result ≠ upgradeData.serial ∧ { start with value := 9#16 }.result = upgradeData.serial) ∧
    jobDone { start with value := 9#16 } (.upgrade .checkSerialOrig { upgradeData with payload := [] }) =
      .finish .upgradeDone := by decide

/-- UpgradePhasesInOrder: a transition by a completed command and one by an answered open. -/
theorem witness_UpgradePhasesInOrder :
    jobDone start (.upgrade .writeInit { upgradeData with payload := [] }) =
      .upgrade .writeDone { upgradeData with payload := [] } ∧
    jobOpened start.cfg true (.upgrade .reopenFast upgradeData) = .upgrade .flushFast upgradeData ∧
    start.err = .noError := by decide

/-- HostPresentsThroughCommandPort: a word newly presented; a clock in which the arbiter keeps a word of the environment away; a word
taken and a word that stays; a host that waits on an idle block. -/
theorem witness_HostPresentsThroughCommandPort :
    (hostStep .act hostLinked).map (·.host.stage) = some (.presenting 0x00000000#32) ∧
    hostLinked.stage ≠ .presenting 0x00000000#32 ∧
    (nextOf (step { start with host := hostLinked, inputs := [Pins.command 0x50000000#32] })).map
      (fun t => (t.host.stage, t.pins.cmdValid)) = some (.ready, false) ∧
    (nextOf (step { start with host := { hostLinked with stage := .presenting 0#32 }, pins := Pins.command 0#32 })).map
      (·.host.stage) = some .waiting ∧
    (nextOf (step { sending 1#2 with host := { hostLinked with stage := .presenting 0#32 }, pins := Pins.command 0#32 })).map
      (·.host.stage) = some (.presenting 0#32) ∧
    (nextOf (step { start with host := { hostLinked with stage := .waiting } })).isSome = true ∧ start.busy = false := by decide

/-- ConnectionLivesFromConnectToClose: a successful `connect`, a close, a failed `connect`, a read without a Connection. -/
theorem witness_ConnectionLivesFromConnectToClose :
    (hostStep .act (hostDoing (.finish (.connected 9600)) .ready 9600)).map (·.host.conn.owner) = some (some 8) ∧
    (hostStep .act (hostDoing .close .ready 9600)).map (fun t => (t.host.conn.owner, t.host.conn.transport)) = some (none, false) ∧
    (hostStep .act (hostDoing (.finish .baudError) .ready 9600)).map (fun t => (t.host.conn.owner, t.host.conn.transport)) =
      some (none, false) ∧
    (hostQueue.conn.owner = none ∧ hostQueue.stage = .ready ∧
      (hostEvent start .act hostQueue).outcomes = [(3, .notConnected)]) := by decide

/-- R271: a download-status read that ends with an error is "status invalid". -/
theorem test_verifying_error_is_status_invalid :
    jobDone { start with err := .noResponse } (.upgrade .readStatus upgradeData) =
      .finish (.upgradeFailed .statusInvalid) := by decide

/-- R252, R281: any command word under a ticket, here a FLUSH with its ignored bits set. -/
theorem test_issue_presents_the_word :
    (hostStep .act { hostLinked with conn := { hostLinked.conn with
      queue := [{ id := 7, created := 0, caller := 7, job := jobOf config (.issue 0x5FFFFFFF#32) }] } }).map
      (fun t => (t.pins.cmdValid, t.pins.cmd)) = some (true, 0x5FFFFFFF#32) := by decide

/-- R340, R341: a completion in whose clock `rst` is 1 is not seen, and the command counts as abandoned; so does one whose results a
reset takes before they are read. -/
theorem test_reset_abandons_hosts_command :
    (nextOf (step { start with
      done := true, host := { hostLinked with stage := .waiting }, pins := { Pins.quiet with rst := true } })).map
      (·.host.stage) = some .abandoned ∧
    (nextOf (step { start with host := { hostLinked with stage := .seenDone }, pins := { Pins.quiet with rst := true } })).map
      (·.host.stage) = some .abandoned := by decide

/-- R341, R263: the recovery of an abandoned command: filler bytes, a flush, then the outcome. -/
theorem test_recovery_writes_filler_and_flushes :
    jobAbandoned config (.word 0x70000000#32) = .recover (.byte 0) .commandAbandoned ∧
    jobAct config (.recover (.byte 0) .commandAbandoned) = .present (.txb 0#1 0#8 0#8 0#8) ∧
    jobPaused start (.recover (.gap 4) .commandAbandoned) = .recover .drain .commandAbandoned ∧
    jobPaused start (.recover (.gap 3) .commandAbandoned) = .recover (.byte 4) .commandAbandoned ∧
    jobAct config (.recover .drain .commandAbandoned) = .present (.flush 0#1 0#8 0#16) ∧
    jobDone start (.recover .drain .commandAbandoned) = .finish .commandAbandoned := by decide

/-- R252, R38: RXB after a read that left `kind = 1` answers with `value`. -/
theorem test_issued_rxb_returns_value :
    jobDone { start with kind := 1#1, value := 0x005A#16 } (.word 0x70000000#32) =
      .finish (.results { err := .noError, value := 0x005A#16, kind := 1#1, status := 0#2, rspReg := 0#8, rxbuf := Frame.zero
                          aea := [], rxCount := 0, rxOvf := false }) := by decide

/-- R263 (c): the gap measured from the presenting of the byte and from its completion. -/
theorem test_gap_origin :
    pauseEnd { config with fillerGapFrom := .presented } 10 { HostSide.initial with now := 7, presentedAt := 5 } = 15 ∧
    pauseEnd { config with fillerGapFrom := .completed } 10 { HostSide.initial with now := 7, presentedAt := 5 } = 17 := by
  decide

end Sys2Proof.Tests
end

section
/-! SUPPORT. What one clock edge does in each phase, and what the acceptance of a command and the handlers of the engine do to
the sequencer; the statements on 10_state.md rest on these. -/

namespace Sys2Proof.Machine

variable {s t u : State} {p : Pins}

/-! ## The tick and the byte of a clock -/

/-- The registers after the TICK step of a clock with pins `p`, if it has one (R22). -/
def ticked (p : Pins) (s : State) : State := if p.tick then tick s else s

/-- The registers after the RX step of a clock with pins `p`, if it has one (R26). -/
def received (p : Pins) (s : State) : State := if p.rxValid then receive p.rxData s else s

theorem ticked_sameEnv (p : Pins) (s : State) : SameEnv s (ticked p s) := by
  unfold ticked; split
  · exact tick_sameEnv s
  · exact .refl s

theorem received_sameEnv (p : Pins) (s : State) : SameEnv s (received p s) := by
  unfold received; split
  · exact receive_sameEnv _ s
  · exact .refl s

/-- TICK writes nothing but the timer. -/
theorem ticked_eq (p : Pins) (s : State) : ∃ n, ticked p s = { s with timer := n } := by
  unfold ticked tick
  split
  · split
    · exact ⟨_, rfl⟩
    · exact ⟨s.timer, rfl⟩
  · exact ⟨s.timer, rfl⟩

/-- RX writes nothing but the FIFO, its overflow flag and the ghost log. -/
theorem received_eq (p : Pins) (s : State) :
    ∃ l o g, received p s = { s with rxfifo := l, rxOvf := o, rxlog := g } := by
  unfold received receive
  split
  · split
    · exact ⟨_, _, _, rfl⟩
    · exact ⟨_, _, _, rfl⟩
  · exact ⟨s.rxfifo, s.rxOvf, s.rxlog, rfl⟩

@[simp] theorem ticked_done (p : Pins) (s : State) : (ticked p s).done = s.done := by
  obtain ⟨n, e⟩ := ticked_eq p s; rw [e]
@[simp] theorem ticked_phase (p : Pins) (s : State) : (ticked p s).phase = s.phase := by
  obtain ⟨n, e⟩ := ticked_eq p s; rw [e]
@[simp] theorem ticked_err (p : Pins) (s : State) : (ticked p s).err = s.err := by
  obtain ⟨n, e⟩ := ticked_eq p s; rw [e]
@[simp] theorem ticked_txlog (p : Pins) (s : State) : (ticked p s).txlog = s.txlog := by
  obtain ⟨n, e⟩ := ticked_eq p s; rw [e]
@[simp] theorem ticked_rxfifo (p : Pins) (s : State) : (ticked p s).rxfifo = s.rxfifo := by
  obtain ⟨n, e⟩ := ticked_eq p s; rw [e]
@[simp] theorem ticked_rxOvf (p : Pins) (s : State) : (ticked p s).rxOvf = s.rxOvf := by
  obtain ⟨n, e⟩ := ticked_eq p s; rw [e]

@[simp] theorem received_done (p : Pins) (s : State) : (received p s).done = s.done := by
  obtain ⟨l, o, g, e⟩ := received_eq p s; rw [e]
@[simp] theorem received_phase (p : Pins) (s : State) : (received p s).phase = s.phase := by
  obtain ⟨l, o, g, e⟩ := received_eq p s; rw [e]
@[simp] theorem received_err (p : Pins) (s : State) : (received p s).err = s.err := by
  obtain ⟨l, o, g, e⟩ := received_eq p s; rw [e]
@[simp] theorem received_txlog (p : Pins) (s : State) : (received p s).txlog = s.txlog := by
  obtain ⟨l, o, g, e⟩ := received_eq p s; rw [e]
@[simp] theorem received_txbuf (p : Pins) (s : State) : (received p s).txbuf = s.txbuf := by
  obtain ⟨l, o, g, e⟩ := received_eq p s; rw [e]
@[simp] theorem received_txi (p : Pins) (s : State) : (received p s).txi = s.txi := by
  obtain ⟨l, o, g, e⟩ := received_eq p s; rw [e]

@[simp] theorem ticked_cfg (p : Pins) (s : State) : (ticked p s).cfg = s.cfg := (ticked_sameEnv p s).cfg
@[simp] theorem ticked_pins (p : Pins) (s : State) : (ticked p s).pins = s.pins := (ticked_sameEnv p s).pins
@[simp] theorem received_cfg (p : Pins) (s : State) : (received p s).cfg = s.cfg := (received_sameEnv p s).cfg
@[simp] theorem received_pins (p : Pins) (s : State) : (received p s).pins = s.pins := (received_sameEnv p s).pins

@[simp] theorem ticked_rxCount (p : Pins) (s : State) : (ticked p s).rxCount = s.rxCount :=
  congrArg List.length (ticked_rxfifo p s)

@[simp] theorem endPulse_rxCount (s : State) : (endPulse s).rxCount = s.rxCount := rfl

theorem ticked_of_not_waiting (p : Pins) (h : ¬ (s.phase = .wait ∨ s.phase = .bwait)) : ticked p s = s := by
  simp [ticked, tick_of_not_waiting h]

/-- A tick never takes the timer below a deadline that it has reached. -/
theorem le_ticked_timer {n : Nat} (hn : n ≤ timerTop s.cfg) (h : n ≤ s.timer) : n ≤ (ticked p s).timer := by
  unfold ticked tick
  split
  · split
    · exact Nat.le_min.2 ⟨Nat.le_succ_of_le h, hn⟩
    · exact h
  · exact h

theorem performAll_tick (l : List AgentStep) : performAll (tickSteps p ++ l) s = performAll l (ticked p s) := by
  rw [performAll_append, performAll_tickSteps]; rfl

theorem performAll_rx (l : List AgentStep) : performAll (rxSteps p ++ l) s = performAll l (received p s) := by
  rw [performAll_append, performAll_rxSteps]; rfl

theorem performAll_before_rx (l : List AgentStep) :
    performAll (l ++ rxSteps p) s = andThen (performAll l s) fun u => .next (received p u) := by
  rw [performAll_append]
  exact congrArg _ (funext (performAll_rxSteps p))

/-! ## The edge in each phase -/

/-- A phase is IDLE, one that offers a byte, or one that waits for bytes. -/
theorem phase_kinds (s : State) :
    s.phase = .idle ∨ (s.phase = .send ∨ s.phase = .bsend) ∨ (s.phase = .wait ∨ s.phase = .bwait) := by
  cases s.phase <;> simp

theorem edge_reset (hr : s.pins.rst = true) : performAll (edgeSteps s) (endPulse s) = .next (resetBlock (endPulse s)) := by
  simp [edgeSteps, perform, enabled, hr]

/-- IDLE: the byte, then the command (R165, R168). -/
theorem edge_idle (hr : s.pins.rst = false) (hi : s.phase = .idle) :
    performAll (edgeSteps s) (endPulse s) =
      if s.pins.cmdValid then exec (decodeCommand s.pins.cmd) (received s.pins (endPulse s))
      else .next (received s.pins (endPulse s)) := by
  have he : edgeSteps s =
      tickSteps s.pins ++ (rxSteps s.pins ++ if s.pins.cmdValid then [.cmd s.pins.cmd] else []) := by
    simp [edgeSteps, hr, hi]
  rw [he, performAll_tick, ticked_of_not_waiting _ (by simp [hi]), performAll_rx]
  split
  · simp [perform, enabled, State.cmdReady, hi, hr]
  · rfl

/-- SEND and BSEND: the byte, then the transport's acceptance of the offered byte (R160, R163). -/
theorem edge_offering (hr : s.pins.rst = false) (hi : s.phase = .send ∨ s.phase = .bsend) :
    performAll (edgeSteps s) (endPulse s) =
      .next (if s.pins.txReady then txAck (received s.pins (endPulse s)) else received s.pins (endPulse s)) := by
  have he : edgeSteps s = tickSteps s.pins ++ (rxSteps s.pins ++ if s.pins.txReady then [.txAck] else []) := by
    rcases hi with hi | hi <;> simp [edgeSteps, hr, hi]
  rw [he, performAll_tick, ticked_of_not_waiting _ (by rcases hi with hi | hi <;> simp [hi]), performAll_rx]
  split
  · simp [perform, enabled, hi]
  · rfl

/-- WAIT: GOT before TIMEOUT, then the byte (R161, R34). -/
theorem edge_wait (hr : s.pins.rst = false) (hi : s.phase = .wait) :
    performAll (edgeSteps s) (endPulse s) =
      andThen
        (if 4 ≤ s.rxCount then got (ticked s.pins (endPulse s))
         else if s.cfg.tResp ≤ s.timer then .next (gotTimeout (ticked s.pins (endPulse s)))
         else .next (ticked s.pins (endPulse s)))
        fun u => .next (received s.pins u) := by
  have he : edgeSteps s = tickSteps s.pins ++ (waitSteps s ++ rxSteps s.pins) := by simp [edgeSteps, hr, hi]
  rw [he, performAll_tick, performAll_before_rx, waitSteps]
  congr 1
  split
  · next h4 => simp [perform, enabled, hi, h4]
  · next h4 =>
    split
    · next ht =>
      have ht' : s.cfg.tResp ≤ (ticked s.pins (endPulse s)).timer :=
        le_ticked_timer (s := endPulse s) (Nat.le_max_left _ _) ht
      simp [perform, enabled, hi, Nat.not_le.1 h4, ht']
    · rfl

/-- BWAIT: BGOT before BTIMEOUT, then the byte (R164, R34). -/
theorem edge_bwait (hr : s.pins.rst = false) (hi : s.phase = .bwait) :
    performAll (edgeSteps s) (endPulse s) =
      .next (received s.pins
        (if 1 ≤ s.rxCount then byteGot (ticked s.pins (endPulse s))
         else if s.cfg.tIb ≤ s.timer then byteTimeout (ticked s.pins (endPulse s))
         else ticked s.pins (endPulse s))) := by
  have he : edgeSteps s = tickSteps s.pins ++ (byteWaitSteps s ++ rxSteps s.pins) := by simp [edgeSteps, hr, hi]
  rw [he, performAll_tick, performAll_before_rx, byteWaitSteps]
  split
  · next h1 => simp [perform, enabled, hi, h1]
  · next h1 =>
    split
    · next ht =>
      have ht' : s.cfg.tIb ≤ (ticked s.pins (endPulse s)).timer :=
        le_ticked_timer (s := endPulse s) (Nat.le_max_right _ _) ht
      simp [perform, enabled, hi, Nat.lt_one_iff.1 (Nat.not_le.1 h1), ht']
    · rfl

/-! ## The acceptance of a command -/

/-- The state after the acceptance of a command, one case for each kind of command (R168). -/
inductive Accepted (s : State) : State → Prop
  | transaction {op : BitVec 4} {rw : BitVec 1} (reg : Byte) (d : Half)
      (ho : (op = 0x0#4 ∧ rw = 0#1) ∨ (op = 0x1#4 ∧ rw = 1#1) ∨ op = 0x2#4) :
      Accepted s (sendf (encFrame rw reg d) { latch op rw reg d s with ctx := .main })
  | aea (rw : BitVec 1) (reg : Byte) (n : Half) :
      Accepted s (aeaEntry n { latch 0x3#4 rw reg n s with value := n, status := 0#2, rspReg := s.cfg.aeaReg })
  | poll (rw : BitVec 1) (reg : Byte) (d : Half) :
      Accepted s (sendf (pollFrame s.cfg) { latch 0x4#4 rw reg d s with iter := 0, ctx := .poll })
  | flush (rw : BitVec 1) (reg : Byte) (d : Half) :
      Accepted s (complete .noError { latch 0x5#4 rw reg d s with rxfifo := [], rxOvf := false })
  | txb (rw : BitVec 1) (reg hi b : Byte) :
      Accepted s { latch 0x6#4 rw reg (hi ++ b) s with txbuf := { s.txbuf with b0 := b }, phase := .bsend }
  | rxb (rw : BitVec 1) (reg : Byte) (d : Half) : Accepted s { latch 0x7#4 rw reg d s with timer := 0, phase := .bwait }
  | ill (sub : BitVec 3) (rw : BitVec 1) (reg : Byte) (d : Half) :
      Accepted s (complete .illegalCommand (latch (1#1 ++ sub) rw reg d s))

/-- A command takes effect when the port is ready, as its kind says. -/
theorem exec_command {i : Instr} (hs : i.space = .command) (s : State) :
    ∃ f : State → State, exec i s = whenReady f s ∧ Accepted s (f s) := by
  cases i with
  | xrd reg d => exact ⟨_, by rw [exec, execXrd], .transaction reg d (.inl ⟨rfl, rfl⟩)⟩
  | xwr reg d => exact ⟨_, by rw [exec, execXwr], .transaction reg d (.inr (.inl ⟨rfl, rfl⟩))⟩
  | snd rw reg d => exact ⟨_, by rw [exec, execSnd], .transaction reg d (.inr (.inr rfl))⟩
  | aea rw reg n => exact ⟨_, by rw [exec, execAea], .aea rw reg n⟩
  | poll rw reg d => exact ⟨_, by rw [exec, execPoll], .poll rw reg d⟩
  | flush rw reg d => exact ⟨_, by rw [exec, execFlush], .flush rw reg d⟩
  | txb rw reg hi b => exact ⟨_, by rw [exec, execTxb], .txb rw reg hi b⟩
  | rxb rw reg d => exact ⟨_, by rw [exec, execRxb], .rxb rw reg d⟩
  | ill sub rw reg d => exact ⟨_, by rw [exec, execIll], .ill sub rw reg d⟩
  | rdf | wrf | rspOk | rspXe | rspAea | rspCp | csum | enc | dec => cases hs

theorem exec_command_of_ready {i : Instr} (hi : i.space = .command) (hr : s.cmdReady = true) (h : exec i s = .next t) :
    Accepted s t := by
  obtain ⟨f, hf, ha⟩ := exec_command hi s
  rw [hf, whenReady_of_ready hr] at h
  obtain ⟨⟩ := h
  exact ha

theorem exec_command_of_busy {i : Instr} (hi : i.space = .command) (hr : s.cmdReady = false) : exec i s = .next s := by
  obtain ⟨f, hf, -⟩ := exec_command hi s
  rw [hf, whenReady_of_busy hr]

/-! ## What a handler does to the sequencer -/

/-- A handler completes the command or starts to send a frame; the timer, the transmit log and the receive FIFO are not its
concern. -/
structure Handled (s t : State) : Prop where
  timer : t.timer = s.timer
  txlog : t.txlog = s.txlog
  rxfifo : t.rxfifo = s.rxfifo
  rxOvf : t.rxOvf = s.rxOvf
  ending : (t.phase = .idle ∧ t.done = true) ∨ (t.phase = .send ∧ t.done = s.done ∧ t.err = s.err)

theorem Handled.of_complete {e : ErrorCode} (ht : u.timer = s.timer) (hl : u.txlog = s.txlog) (hf : u.rxfifo = s.rxfifo)
    (ho : u.rxOvf = s.rxOvf) : Handled s (complete e u) :=
  ⟨ht, hl, hf, ho, .inl ⟨rfl, rfl⟩⟩

theorem Handled.of_sendf {f : Frame} (ht : u.timer = s.timer) (hl : u.txlog = s.txlog) (hf : u.rxfifo = s.rxfifo)
    (ho : u.rxOvf = s.rxOvf) (hd : u.done = s.done) (he : u.err = s.err) : Handled s (sendf f u) :=
  ⟨ht, hl, hf, ho, .inr ⟨rfl, hd, he⟩⟩

theorem aeaEntry_handled (n : Half) (s : State) : Handled s (aeaEntry n s) := by
  simp only [aeaEntry]
  split
  · exact .of_complete rfl rfl rfl rfl
  · split
    · exact .of_complete rfl rfl rfl rfl
    · exact .of_sendf rfl rfl rfl rfl rfl rfl

theorem aeaContinue_handled (s : State) : Handled s (aeaContinue s) := by
  unfold aeaContinue
  split
  · exact .of_complete rfl rfl rfl rfl
  · exact .of_sendf rfl rfl rfl rfl rfl rfl

theorem aeaPayload_handled {f : Frame} (h : aeaPayload f s = .next t) : Handled s t := by
  unfold aeaPayload at h
  obtain ⟨u, hu, h⟩ := andThen_eq_next.1 h
  obtain ⟨-, rfl⟩ := aeaAppend_eq_next.1 hu
  split at h
  · obtain ⟨v, hv, h⟩ := andThen_eq_next.1 h
    obtain ⟨-, rfl⟩ := aeaAppend_eq_next.1 hv
    obtain ⟨⟩ := h
    exact { aeaContinue_handled _ with }
  · obtain ⟨⟩ := h
    exact { aeaContinue_handled _ with }

theorem gotMain_handled (f : Frame) (st : BitVec 2) (s : State) : Handled s (gotMain f st s) := by
  simp only [gotMain]
  split
  · exact { aeaEntry_handled _ _ with }
  · exact .of_complete rfl rfl rfl rfl

theorem gotAea_handled {f : Frame} {st : BitVec 2} (h : gotAea f st s = .next t) : Handled s t := by
  simp only [gotAea] at h
  split at h
  · exact { aeaPayload_handled h with }
  · obtain ⟨⟩ := h
    exact .of_complete rfl rfl rfl rfl

theorem gotPoll_handled (f : Frame) (st : BitVec 2) (s : State) : Handled s (gotPoll f st s) := by
  simp only [gotPoll]
  split
  · exact .of_complete rfl rfl rfl rfl
  · split
    · exact .of_complete rfl rfl rfl rfl
    · split
      · exact .of_complete rfl rfl rfl rfl
      · exact .of_sendf rfl rfl rfl rfl rfl rfl

theorem gotGood_handled {f : Frame} {st : BitVec 2} (h : gotGood f st s = .next t) : Handled s t := by
  unfold gotGood at h
  split at h
  · obtain ⟨⟩ := h
    exact .of_complete rfl rfl rfl rfl
  · split at h
    · obtain ⟨⟩ := h
      exact gotMain_handled f st s
    · exact gotAea_handled h
    · obtain ⟨⟩ := h
      exact gotPoll_handled f st s

theorem gotBad_handled (f : Frame) (s : State) : Handled s (gotBad f s) := by
  unfold gotBad
  split
  · exact .of_complete rfl rfl rfl rfl
  · split <;> exact .of_complete rfl rfl rfl rfl

theorem gotTimeout_handled (s : State) : Handled s (gotTimeout s) := by
  unfold gotTimeout
  split
  · exact .of_complete rfl rfl rfl rfl
  · split <;> exact .of_complete rfl rfl rfl rfl

theorem got_handled {f : Frame} {rest : List Byte} (hp : s.phase = .wait) (hf : s.rxfifo = f.bytes ++ rest)
    (h : got s = .next t) : Handled { s with rxfifo := rest } t := by
  rw [got_of_frame hp hf] at h
  split at h
  · exact gotGood_handled h
  · obtain ⟨⟩ := h
    exact gotBad_handled _ _

end Sys2Proof.Machine
end

section
/-! SUPPORT. Every step keeps the invariant of the block. -/

namespace Sys2Proof.Machine

variable {s t : State}

/-- The part of the invariant that speaks of no phase: the parameters, the FIFO, the timer, the AEA buffer and the counters. -/
structure State.Bounded (s : State) : Prop where
  cfg : Config.Legal s.cfg
  fifo : s.rxCount ≤ s.cfg.rxDepth
  timer : s.timer ≤ timerTop s.cfg
  mem : s.aeaBuf.wf
  memBelow : s.aeaBuf.below Memory.size
  len : s.aeaLen.toNat ≤ Memory.size
  rem : s.rem.toNat ≤ Memory.size
  iter : s.iter ≤ s.cfg.pollMax

theorem Inv.bounded (h : Inv s) : s.Bounded := { h with }

/-- A completion leaves nothing for the rest of the invariant to say. -/
theorem State.Bounded.complete {e : ErrorCode} (h : s.Bounded) : Inv (complete e s) :=
  { h with flight := nofun, bsend := nofun, bwait := nofun, done := fun _ => rfl }

/-- SENDF of the command's own frame. -/
theorem State.Bounded.sendf {f : Frame} (h : s.Bounded) (hd : s.done = false) (hf : f = s.frameInFlight)
    (ho : s.FlightOk) : Inv (sendf f s) :=
  { h with flight := fun _ => ⟨hf, ho⟩, bsend := nofun, bwait := nofun, done := fun e => absurd e (by simp [hd]) }

/-! ## The receive FIFO and the timer -/

theorem tick_keepsInv (h : Inv s) : Inv (tick s) := by
  unfold tick
  split
  · exact { h with timer := Nat.min_le_right _ _ }
  · exact h

theorem receive_keepsInv (b : Byte) (h : Inv s) : Inv (receive b s) := by
  by_cases hr : s.rxCount < s.cfg.rxDepth
  · rw [receive_of_room b hr]
    exact { h with fifo := by simpa [State.rxCount] using hr }
  · rw [receive_of_full b hr]
    exact { h with }

theorem Inv.pop {l rest : List Byte} (h : Inv s) (hf : s.rxfifo = l ++ rest) : Inv { s with rxfifo := rest } :=
  { h with fifo := Nat.le_trans (by simp [State.rxCount, hf]) h.fifo }

/-- After reset every counter is 0, the buffers are empty and no command is in flight. -/
theorem resetBlock_inv (h : Config.Legal s.cfg) : Inv (resetBlock s) where
  cfg := h
  fifo := Nat.zero_le _
  timer := Nat.zero_le _
  mem := Memory.wf_nil
  memBelow := nofun
  len := Nat.zero_le _
  rem := Nat.zero_le _
  iter := Nat.zero_le _
  flight := nofun
  bsend := nofun
  bwait := nofun
  done := nofun

/-! ## The extended-address procedure -/

theorem aeaEntry_keepsInv (n : Half) (h : s.Bounded) (hd : s.done = false) (ho : s.op = 0x0#4 ∨ s.op = 0x3#4) :
    Inv (aeaEntry n s) := by
  have hb : State.Bounded { s with kind := 1#1, aeaLen := 0#7 } := { h with len := Nat.zero_le _ }
  simp only [aeaEntry]
  split
  · exact hb.complete
  · split
    · exact hb.complete
    · next hn h0 =>
      have hpos : n.toNat ≠ 0 := fun e => h0 (BitVec.eq_of_toNat_eq e)
      have hmax : n.toNat ≤ 100 := Nat.le_trans (Nat.not_lt.1 hn) h.cfg.aeaMax
      have hrem : (n.setWidth 7).toNat = n.toNat := by simp only [BitVec.toNat_setWidth]; omega
      have hle : ((n.setWidth 7).toNat) ≤ Memory.size := hrem.trans_le hmax
      refine State.Bounded.sendf { hb with rem := hle } hd rfl ⟨ho, rfl, ?_, ?_⟩
      · exact hrem.symm ▸ Nat.pos_of_ne_zero hpos
      · exact (Nat.zero_add _).trans_le hle

theorem State.Bounded.append {b : Byte} (h : s.Bounded) (ha : aeaAppend b s = .next t) :
    t.Bounded ∧ t.aeaLen.toNat = s.aeaLen.toNat + 1 := by
  obtain ⟨hl, rfl⟩ := aeaAppend_eq_next.1 ha
  have hl : s.aeaLen.toNat < 100 := hl
  have he : (s.aeaLen + 1#7).toNat = s.aeaLen.toNat + 1 := by simp only [BitVec.toNat_add, BitVec.toNat_ofNat]; omega
  refine ⟨{ h with mem := Memory.write_wf _ _ h.mem, memBelow := Memory.write_below h.memBelow hl, len := ?_ }, he⟩
  exact he.trans_le hl

theorem aeaContinue_keepsInv (h : s.Bounded) (hd : s.done = false) (hc : s.ctx = .aea)
    (ho : s.op = 0x0#4 ∨ s.op = 0x3#4) (hk : s.kind = 1#1) (hl : s.aeaLen.toNat + s.rem.toNat ≤ Memory.size) :
    Inv (aeaContinue s) := by
  unfold aeaContinue
  split
  · exact h.complete
  · next hr =>
    have hpos : s.rem.toNat ≠ 0 := fun e => hr (BitVec.eq_of_toNat_eq e)
    refine h.sendf hd (by simp [State.frameInFlight, hc]) ?_
    simp only [State.FlightOk, hc]
    exact ⟨ho, hk, Nat.pos_of_ne_zero hpos, hl⟩

theorem aeaPayload_keepsInv {f : Frame} (h : s.Bounded) (hd : s.done = false) (hc : s.ctx = .aea) (hf : s.FlightOk)
    (hp : aeaPayload f s = .next t) : Inv t := by
  simp only [State.FlightOk, hc] at hf
  obtain ⟨ho, hk, -, hl⟩ := hf
  unfold aeaPayload at hp
  obtain ⟨u, hu, hp⟩ := andThen_eq_next.1 hp
  obtain ⟨hb, hlen⟩ := h.append hu
  obtain ⟨-, rfl⟩ := aeaAppend_eq_next.1 hu
  split at hp
  · next h2 =>
    obtain ⟨v, hv, hp⟩ := andThen_eq_next.1 hp
    obtain ⟨hb', hlen'⟩ := hb.append hv
    obtain ⟨-, rfl⟩ := aeaAppend_eq_next.1 hv
    obtain ⟨⟩ := hp
    have h2 : 2 ≤ s.rem.toNat := h2
    have hrem : (s.rem - 2#7).toNat = s.rem.toNat - 2 := BitVec.toNat_sub_of_le h2
    refine aeaContinue_keepsInv { hb' with rem := hrem.trans_le (Nat.le_trans (Nat.sub_le _ _) h.rem) } hd hc ho hk ?_
    simp only at hlen hlen' ⊢
    omega
  · obtain ⟨⟩ := hp
    exact aeaContinue_keepsInv { hb with rem := Nat.zero_le _ } hd hc ho hk hb.len

theorem gotAea_keepsInv {f : Frame} {st : BitVec 2} (h : s.Bounded) (hd : s.done = false) (hc : s.ctx = .aea)
    (hf : s.FlightOk) (hp : gotAea f st s = .next t) : Inv t := by
  have hb : State.Bounded { s with rxbuf := f } := { h with }
  simp only [gotAea] at hp
  split at hp
  · exact aeaPayload_keepsInv hb hd hc hf hp
  · obtain ⟨⟩ := hp
    exact hb.complete

/-! ## The other handlers of the engine -/

/-- A read that is answered with status 2 goes on as an extended-address read: its opcode is XRD's, since SND drains and XWR
writes. -/
theorem gotMain_keepsInv (f : Frame) (st : BitVec 2) (h : s.Bounded) (hd : s.done = false) (hc : s.ctx = .main)
    (hf : s.FlightOk) (hs : s.op ≠ 0x2#4) : Inv (gotMain f st s) := by
  have hb : State.Bounded { s with rxbuf := f, rspReg := f.b1, value := f.data, kind := 0#1, status := st } := { h with }
  simp only [State.FlightOk, hc] at hf
  simp only [gotMain]
  split
  · next hst =>
    refine aeaEntry_keepsInv _ hb hd ?_
    rcases hf with ⟨ho, -⟩ | ⟨-, hw⟩ | ho
    · exact .inl ho
    · exact absurd (hw.symm.trans hst.2) (by decide)
    · exact absurd ho hs
  · exact hb.complete

theorem gotPoll_keepsInv (f : Frame) (st : BitVec 2) (h : s.Bounded) (hd : s.done = false) (hc : s.ctx = .poll)
    (hf : s.FlightOk) : Inv (gotPoll f st s) := by
  have hb : State.Bounded { s with rxbuf := f, rspReg := f.b1, value := f.data, kind := 0#1, status := st } := { h with }
  simp only [State.FlightOk, hc] at hf
  obtain ⟨ho, hi⟩ := hf
  simp only [gotPoll]
  split
  · exact hb.complete
  · split
    · exact hb.complete
    · have hb' : State.Bounded { s with
        rxbuf := f, rspReg := f.b1, value := f.data, kind := 0#1, status := st, iter := s.iter + 1 } :=
        { hb with iter := hi }
      split
      · exact hb'.complete
      · next hm =>
        refine hb'.sendf hd (by simp [State.frameInFlight, hc]) ?_
        simp only [State.FlightOk, hc]
        exact ⟨ho, Nat.not_le.1 hm⟩

theorem gotGood_keepsInv {f : Frame} {st : BitVec 2} (h : s.Bounded) (hd : s.done = false) (hf : s.FlightOk)
    (hp : gotGood f st s = .next t) : Inv t := by
  unfold gotGood at hp
  split at hp
  · obtain ⟨⟩ := hp
    exact State.Bounded.complete { h with }
  · next hs =>
    split at hp
    · next hc =>
      obtain ⟨⟩ := hp
      exact gotMain_keepsInv f st h hd hc hf fun ho => hs (by simp [State.drains, hc, ho])
    · next hc => exact gotAea_keepsInv h hd hc hf hp
    · next hc =>
      obtain ⟨⟩ := hp
      exact gotPoll_keepsInv f st h hd hc hf

theorem gotBad_keepsInv (f : Frame) (h : s.Bounded) : Inv (gotBad f s) := by
  unfold gotBad
  split
  · exact State.Bounded.complete { h with }
  · split <;> exact State.Bounded.complete { h with }

theorem gotTimeout_keepsInv (h : s.Bounded) : Inv (gotTimeout s) := by
  unfold gotTimeout
  split
  · exact State.Bounded.complete { h with }
  · split <;> exact State.Bounded.complete { h with }

theorem got_keepsInv (h : Inv s) (hp : s.phase = .wait) (h4 : 4 ≤ s.rxCount) (hg : got s = .next t) : Inv t := by
  obtain ⟨f, rest, hf⟩ := popFrame_isSome h4
  have hf := popFrame_eq_some.1 hf
  rw [got_of_frame hp hf] at hg
  have hb := (h.pop hf).bounded
  split at hg
  · refine gotGood_keepsInv hb ?_ (h.flight (.inr hp)).2 hg
    exact Bool.eq_false_iff.2 fun hd => by simp [h.done hd] at hp
  · obtain ⟨⟩ := hg
    exact gotBad_keepsInv f hb

theorem byteGot_keepsInv (h : Inv s) : Inv (byteGot s) := by
  unfold byteGot
  split
  · next b rest hf => exact State.Bounded.complete { (h.pop (l := [b]) hf).bounded with }
  · exact h

theorem byteTimeout_keepsInv (h : Inv s) : Inv (byteTimeout s) := State.Bounded.complete { h.bounded with }

/-! ## The transmit port -/

theorem txAck_keepsInv (h : Inv s) : Inv (txAck s) := by
  have hnd : s.phase = .send → s.done = true → False := fun hp hd => by simp [h.done hd] at hp
  unfold txAck
  split
  · next hp =>
    have hf := h.flight (.inl hp)
    split
    · exact { h with
        timer := Nat.zero_le _, flight := fun _ => hf, bsend := nofun, bwait := nofun
        done := fun hd => (hnd hp hd).elim }
    · exact { h with }
  · exact State.Bounded.complete { h.bounded with }
  · exact h

/-! ## The commands -/

theorem accepted_keepsInv (h : s.Bounded) (hd : s.done = false) (ha : Accepted s t) : Inv t := by
  have hnd : s.done ≠ true := by simp [hd]
  cases ha with
  | transaction reg d ho => exact State.Bounded.sendf { h with } hd rfl ho
  | aea => exact aeaEntry_keepsInv _ { h with } hd (.inr rfl)
  | poll => exact State.Bounded.sendf { h with iter := Nat.zero_le _ } hd rfl ⟨rfl, h.cfg.pollMax⟩
  | flush => exact State.Bounded.complete { h with fifo := Nat.zero_le _ }
  | txb => exact { h with flight := nofun, bsend := fun _ => rfl, bwait := nofun, done := fun e => absurd e hnd }
  | rxb =>
    exact { h with
      timer := Nat.zero_le _, flight := nofun, bsend := nofun, bwait := fun _ => rfl, done := fun e => absurd e hnd }
  | ill => exact State.Bounded.complete { h with }

/-! ## An edge and a step -/

/-- `done` is over before the agent steps of the edge begin, so no command is accepted with `done` still set. -/
theorem perform_keepsInv {a : AgentStep} (h : Inv s) (hd : s.done = false) (hp : perform a s = .next t) : Inv t := by
  unfold perform at hp
  split at hp
  · next ha =>
    cases a with
    | cmd w => exact accepted_keepsInv h.bounded hd (exec_command_of_ready (decodeCommand_space w) ha hp)
    | txAck => obtain ⟨⟩ := hp; exact txAck_keepsInv h
    | rx b => obtain ⟨⟩ := hp; exact receive_keepsInv b h
    | tick => obtain ⟨⟩ := hp; exact tick_keepsInv h
    | got =>
      simp only [enabled, Bool.and_eq_true, decide_eq_true_eq] at ha
      exact got_keepsInv h ha.1 ha.2 hp
    | timeout => obtain ⟨⟩ := hp; exact gotTimeout_keepsInv h.bounded
    | bgot => obtain ⟨⟩ := hp; exact byteGot_keepsInv h
    | btimeout => obtain ⟨⟩ := hp; exact byteTimeout_keepsInv h
    | reset => obtain ⟨⟩ := hp; exact resetBlock_inv h.cfg
  · obtain ⟨⟩ := hp; exact h

theorem perform_option_keepsInv {a : Option AgentStep} (h : Inv s) (hd : s.done = false)
    (hp : performAll a.toList s = .next t) : Inv t := by
  cases a with
  | none => obtain ⟨⟩ := hp; exact h
  | some a => exact perform_keepsInv h hd ((performAll_one a s).symm.trans hp)

theorem ticked_keepsInv (p : Pins) (h : Inv s) : Inv (ticked p s) := by
  unfold ticked; split
  · exact tick_keepsInv h
  · exact h

theorem received_keepsInv (p : Pins) (h : Inv s) : Inv (received p s) := by
  unfold received; split
  · exact receive_keepsInv _ h
  · exact h

theorem edge_keepsInv (h : Inv s) (hu : performAll (edgeSteps s) (endPulse s) = .next t) : Inv t := by
  have h0 : Inv (endPulse s) := { h with done := nofun }
  by_cases hr : s.pins.rst
  · rw [edge_reset hr] at hu
    obtain ⟨⟩ := hu
    exact resetBlock_inv h.cfg
  · obtain ⟨a, he | he⟩ := edgeSteps_shape (Bool.eq_false_iff.2 hr)
    all_goals rw [he, performAll_tick] at hu
    · rw [performAll_rx] at hu
      exact perform_option_keepsInv (received_keepsInv _ (ticked_keepsInv _ h0)) (by simp) hu
    · rw [performAll_before_rx] at hu
      obtain ⟨v, hv, hu⟩ := andThen_eq_next.1 hu
      obtain ⟨⟩ := hu
      exact received_keepsInv _ (perform_option_keepsInv (ticked_keepsInv _ h0) (by simp) hv)

/-- Settles O38: `done` ends first, every agent step of the edge keeps the invariant, and the next clock touches no register. -/
theorem stepKeepsInv : Obligations.StepKeepsInv := by
  intro s t h hs
  obtain ⟨u, hu, rfl⟩ := step_eq_next.1 hs
  exact { edge_keepsInv h hu with }

theorem hardware_legal : Config.Legal Config.hardware :=
  ⟨rfl, by decide, Nat.succ_le_succ (Nat.zero_le _), Nat.le_refl _⟩

/-- Settles O37: the reset state is one that a reset leaves, with the printed parameters. -/
theorem invAtReset : Obligations.InvAtReset := resetBlock_inv (s := State.reset) hardware_legal

end Sys2Proof.Machine
end

section
/-! SUPPORT. The statements of 10_state.md: the receive FIFO, the timer, completions, the transmit log, the ports, reset. -/

namespace Sys2Proof.Machine

variable {s t u : State} {p : Pins}

/-- Settles O21: a command acts through `whenReady`. -/
theorem busyPortTakesNoCommand : Obligations.BusyPortTakesNoCommand :=
  fun _ _ hi hr => exec_command_of_busy hi hr

/-- Settles O46: no tick counts in IDLE, and the byte stands before the command. -/
theorem stepRunsDecodedCommand : Obligations.StepRunsDecodedCommand := by
  intro s hi hr hv
  unfold step
  rw [edge_idle hr hi, if_pos hv]
  rfl

/-- Settles O48: the placed word is on the command port of an idle block, and its low 32 bits are the whole word. -/
theorem fetchWordRunsNext : Obligations.FetchWordRunsNext := by
  intro s w i hw hx hd
  have hi : decodeCommand (BitVec.ofNat 32 (w % 2 ^ 32)) = i := by
    rw [Nat.mod_eq_of_lt hw]
    exact Option.some.inj hd
  have hx' : (s.withFetchWord 32 w).pins.rxValid = false := hx
  rw [stepRunsDecodedCommand _ rfl rfl rfl, hx']
  exact congrArg (fun j => andThen (exec j _) _) hi

/-! ## The receive FIFO -/

/-- The byte of a clock is pushed when there is room. -/
theorem received_of_room (hv : p.rxValid = true) (h : s.rxfifo.length < s.cfg.rxDepth) :
    received p s = { s with rxfifo := s.rxfifo ++ [p.rxData], rxlog := s.rxlog ++ [p.rxData] } := by
  rw [received, if_pos hv, receive_of_room _ h]

/-- Settles O33: the pop stands before the push on one edge, so the popped bytes have made room. -/
theorem receiveFifo : Obligations.ReceiveFifo := by
  refine ⟨fun s b => ⟨fun h => ?_, fun h => ?_⟩, ?_, ?_, rfl⟩
  · rw [perform_rx, receive_of_room b h]
  · rw [perform_rx, receive_of_full b (Nat.not_lt.2 h)]
  · intro s t f rest hp hr hv hf hd hs
    obtain ⟨u, hu, rfl⟩ := step_eq_next.1 hs
    have hlen : s.rxfifo.length = rest.length + 4 := by simp [hf, Frame.bytes]
    have h4 : 4 ≤ s.rxCount := (Nat.le_add_left 4 _).trans_eq hlen.symm
    have hcfg : u.cfg = s.cfg := (performAll_sameEnv hu).cfg
    rw [edge_wait hr hp, if_pos h4] at hu
    obtain ⟨v, hg, hu⟩ := andThen_eq_next.1 hu
    obtain ⟨⟩ := hu
    rw [received_cfg] at hcfg
    have hh := got_handled (s := ticked s.pins (endPulse s)) (by simp [hp]) (by simpa using hf) hg
    have hroom : v.rxfifo.length < v.cfg.rxDepth := by
      rw [hh.rxfifo, hcfg]
      exact Nat.lt_of_lt_of_le (show rest.length < s.rxfifo.length by omega) hd
    rw [received_of_room hv hroom]
    exact ⟨congrArg (· ++ [s.pins.rxData]) hh.rxfifo, hh.rxOvf.trans (ticked_rxOvf _ _)⟩
  · intro s b rest hp hr hv hf hd
    have hlen : s.rxCount = rest.length + 1 := by simp [State.rxCount, hf]
    have hg : byteGot (ticked s.pins (endPulse s)) =
        complete .noError { ticked s.pins (endPulse s) with rxfifo := rest, value := 0x00#8 ++ b } := by
      simp [byteGot, hf]
    have hroom : rest.length < s.cfg.rxDepth := Nat.lt_of_lt_of_le (by simp [hf]) hd
    have hu := edge_bwait hr hp
    rw [if_pos (hlen ▸ Nat.le_add_left ..), hg, received_of_room hv (by simpa using hroom)] at hu
    exact ⟨_, step_eq_next.2 ⟨_, hu, rfl⟩, rfl, ticked_rxOvf _ _, rfl⟩

/-! ## The timer -/

/-- What an agent step other than TICK and reset does to the timer (R33): it enters WAIT or BWAIT and the timer starts at 0, or
it does not and the timer stays. -/
def TimerMove (s t : State) : Prop :=
  (t.timer = s.timer ∧ (t.phase = s.phase ∨ (t.phase ≠ .wait ∧ t.phase ≠ .bwait))) ∨
  (t.timer = 0 ∧ t.phase ≠ s.phase ∧ (t.phase = .wait ∨ t.phase = .bwait))

theorem TimerMove.of_not_waiting (ht : t.timer = s.timer) (hw : t.phase ≠ .wait) (hb : t.phase ≠ .bwait) : TimerMove s t :=
  .inl ⟨ht, .inr ⟨hw, hb⟩⟩

theorem receive_timerMove (b : Byte) (s : State) : TimerMove s (receive b s) := by
  obtain ⟨-, -, hp, -, -, -, ht⟩ := receive_fields b s
  exact .inl ⟨ht, .inl hp⟩

theorem byteGot_timerMove (s : State) : TimerMove s (byteGot s) := by
  unfold byteGot
  split
  · exact .of_not_waiting rfl nofun nofun
  · exact .inl ⟨rfl, .inl rfl⟩

theorem Handled.timerMove (h : Handled s t) : TimerMove s t :=
  .inl ⟨h.timer, .inr (by rcases h.ending with ⟨hp, -⟩ | ⟨hp, -⟩ <;> simp [hp])⟩

theorem Accepted.timerMove (h : Accepted s t) (hi : s.phase = .idle) : TimerMove s t := by
  cases h with
  | transaction => exact .of_not_waiting rfl nofun nofun
  | aea => exact (aeaEntry_handled _ _).timerMove
  | poll => exact .of_not_waiting rfl nofun nofun
  | flush => exact .of_not_waiting rfl nofun nofun
  | txb => exact .of_not_waiting rfl nofun nofun
  | rxb => exact .inr ⟨rfl, by simp [hi], .inr rfl⟩
  | ill => exact .of_not_waiting rfl nofun nofun

theorem txAck_timerMove (s : State) : TimerMove s (txAck s) := by
  unfold txAck
  split
  · next hp =>
    split
    · exact .inr ⟨rfl, by simp [hp], .inl rfl⟩
    · exact .inl ⟨rfl, .inl rfl⟩
  · exact .of_not_waiting rfl nofun nofun
  · exact .inl ⟨rfl, .inl rfl⟩

theorem perform_timerMove {a : AgentStep} (h : perform a s = .next t) (ht : a ≠ .tick) (hr : a ≠ .reset) :
    TimerMove s t := by
  unfold perform at h
  split at h
  · next ha =>
    cases a with
    | cmd w =>
      have hi : s.phase = .idle ∧ s.pins.rst = false := by simpa [enabled, State.cmdReady] using ha
      exact (exec_command_of_ready (decodeCommand_space w) ha h).timerMove hi.1
    | txAck => obtain ⟨⟩ := h; exact txAck_timerMove s
    | rx b => obtain ⟨⟩ := h; exact receive_timerMove b s
    | tick => exact absurd rfl ht
    | got =>
      simp only [enabled, Bool.and_eq_true, decide_eq_true_eq] at ha
      obtain ⟨f, rest, hf⟩ := popFrame_isSome ha.2
      exact (got_handled ha.1 (popFrame_eq_some.1 hf) h).timerMove
    | timeout => obtain ⟨⟩ := h; exact (gotTimeout_handled s).timerMove
    | bgot => obtain ⟨⟩ := h; exact byteGot_timerMove s
    | btimeout => obtain ⟨⟩ := h; exact .of_not_waiting rfl nofun nofun
    | reset => exact absurd rfl hr
  · obtain ⟨⟩ := h; exact .inl ⟨rfl, .inl rfl⟩

/-- A step that enters WAIT or BWAIT starts the timer; TICK and reset enter neither. -/
theorem timer_of_entry {a : AgentStep} {q : Phase} (hq : q = .wait ∨ q = .bwait) (h : perform a s = .next t)
    (hs : s.phase ≠ q) (ht : t.phase = q) : t.timer = 0 := by
  cases a with
  | tick =>
    obtain ⟨⟩ := h
    obtain ⟨-, -, hp, -⟩ := tick_fields s
    exact absurd (hp.symm.trans ht) hs
  | reset =>
    unfold perform at h
    split at h <;> obtain ⟨⟩ := h
    · rcases hq with rfl | rfl <;> cases ht
    · exact absurd ht hs
  | _ =>
    rcases perform_timerMove h nofun nofun with ⟨-, hp | ⟨hw, hb⟩⟩ | ⟨h0, -⟩
    · exact absurd (hp.symm.trans ht) hs
    · rcases hq with rfl | rfl
      · exact absurd ht hw
      · exact absurd ht hb
    · exact h0

/-- Settles O34, by what each agent step does to the timer. -/
theorem timerCountsTicksWhileWaiting : Obligations.TimerCountsTicksWhileWaiting := by
  refine ⟨fun s h => ?_, fun s hw hb => ?_, fun a s t h => timer_of_entry (.inl rfl) h,
    fun a s t h => timer_of_entry (.inr rfl) h, fun a s t h ht hr hp => ?_, rfl⟩
  · rw [perform_tick, tick_of_waiting h]; rfl
  · rw [perform_tick, tick_of_not_waiting (by simp [hw, hb])]
  · rcases perform_timerMove h ht hr with ⟨he, -⟩ | ⟨-, hne, hq⟩
    · exact he
    · rcases hp with hp | ⟨hw, hb⟩
      · exact absurd hp hne
      · exact (hq.elim hw hb).elim

/-! ## Reset, and an idle block -/

/-- Settles O42: with `rst = 1` the edge is the reset alone. -/
theorem resetWinsOverEveryStep : Obligations.ResetWinsOverEveryStep := by
  intro s hr
  refine ⟨by simp [State.cmdReady, hr], by simp [State.txValid, hr], by simp [State.donePort, hr],
    nextClock s (resetBlock (endPulse s)), step_eq_next.2 ⟨_, edge_reset hr, rfl⟩, ?_⟩
  refine ⟨rfl, rfl, rfl, rfl, rfl, rfl, rfl, rfl, rfl, rfl, rfl, rfl, rfl, rfl, rfl, rfl, rfl, rfl, rfl, rfl, rfl,
    fun _ => rfl, rfl, rfl, rfl, rfl, rfl, fun h => ?_⟩
  simp only [State.cmdReady, h]
  rfl

/-- Settles O44: without a command the edge of an idle block is the byte of the clock. -/
theorem idleKeepsResults : Obligations.IdleKeepsResults := by
  intro s hi hr hv
  obtain ⟨l, o, g, he⟩ := received_eq s.pins (endPulse s)
  have hu := edge_idle hr hi
  rw [if_neg (by simp [hv]), he] at hu
  exact ⟨_, step_eq_next.2 ⟨_, hu, rfl⟩, rfl, hi, rfl, rfl, rfl, rfl, rfl, rfl, rfl, fun _ => rfl, rfl⟩

/-! ## Completions and the transmit log -/

/-- The command completes, or the block is busy with `done` and `err` as they were. -/
def Ending (s t : State) : Prop :=
  (t.phase = .idle ∧ t.done = true) ∨ (t.phase ≠ .idle ∧ t.done = s.done ∧ t.err = s.err)

theorem Handled.toEnding (h : Handled s t) : Ending s t :=
  h.ending.imp id fun ⟨hp, hd, he⟩ => ⟨by simp [hp], hd, he⟩

theorem Accepted.txlog (h : Accepted s t) : t.txlog = s.txlog := by
  cases h with
  | aea => exact (aeaEntry_handled _ _).txlog
  | transaction | poll | flush | txb | rxb | ill => rfl

/-- A command completes at its acceptance or makes the block busy. -/
theorem Accepted.toEnding (h : Accepted s t) : Ending s t := by
  cases h with
  | aea => exact (aeaEntry_handled _ _).toEnding
  | flush | ill => exact .inl ⟨rfl, rfl⟩
  | transaction | poll | txb | rxb => exact .inr ⟨nofun, rfl, rfl⟩

theorem txAck_ending (h : s.phase = .send ∨ s.phase = .bsend) : Ending s (txAck s) := by
  unfold txAck
  rcases h with h | h <;> simp only [h]
  · split <;> exact .inr ⟨nofun, rfl, rfl⟩
  · exact .inl ⟨rfl, rfl⟩

theorem txAck_txlog (h : s.phase = .send ∨ s.phase = .bsend) : (txAck s).txlog = s.txlog ++ s.txData.toList := by
  unfold txAck State.txData
  rcases h with h | h <;> simp only [h]
  · split <;> rfl
  · rfl

theorem byteGot_handled {b : Byte} {rest : List Byte} (h : s.rxfifo = b :: rest) :
    Handled { s with rxfifo := rest } (byteGot s) := by
  unfold byteGot
  rw [h]
  exact .of_complete rfl rfl rfl rfl

theorem byteTimeout_handled (s : State) : Handled s (byteTimeout s) := .of_complete rfl rfl rfl rfl

/-- An edge in WAIT or BWAIT: nothing but the tick happens before the byte, or a handler runs, with or without a pop. -/
theorem edge_waiting (hr : s.pins.rst = false) (hi : s.phase = .wait ∨ s.phase = .bwait)
    (hu : performAll (edgeSteps s) (endPulse s) = .next u) :
    ∃ v, u = received s.pins v ∧ (v = ticked s.pins (endPulse s) ∨
      ∃ l, Handled { ticked s.pins (endPulse s) with rxfifo := l } v) := by
  rcases hi with hi | hi
  · rw [edge_wait hr hi] at hu
    obtain ⟨v, hv, hu⟩ := andThen_eq_next.1 hu
    obtain ⟨⟩ := hu
    refine ⟨v, rfl, ?_⟩
    split at hv
    · next h4 =>
      obtain ⟨f, rest, hf⟩ := popFrame_isSome h4
      exact .inr ⟨rest, got_handled (f := f) (by simp [hi]) (by simpa using popFrame_eq_some.1 hf) hv⟩
    · split at hv <;> obtain ⟨⟩ := hv
      · exact .inr ⟨_, gotTimeout_handled _⟩
      · exact .inl rfl
  · rw [edge_bwait hr hi] at hu
    obtain ⟨⟩ := hu
    refine ⟨_, rfl, ?_⟩
    split
    · next h1 =>
      obtain ⟨b, rest, hf⟩ := List.exists_cons_of_length_pos h1
      exact .inr ⟨rest, byteGot_handled (by simpa using hf)⟩
    · split
      · exact .inr ⟨_, byteTimeout_handled _⟩
      · exact .inl rfl

theorem Ending.received {p : Pins} (h : Ending s t) : Ending s (received p t) := by simpa [Ending] using h

theorem ticked_ending (p : Pins) (h : s.phase ≠ .idle) : Ending s (ticked p s) := .inr (by simp [h])

/-- An edge of a busy block, or one that accepts a command, completes the command or leaves `err` alone and the block busy. -/
theorem edge_ending (hr : s.pins.rst = false) (hb : s.phase ≠ .idle ∨ s.pins.cmdValid = true)
    (hu : performAll (edgeSteps s) (endPulse s) = .next u) : Ending (endPulse s) u := by
  rcases phase_kinds s with hi | hi | hi
  · rw [edge_idle hr hi, if_pos (hb.resolve_left (absurd hi))] at hu
    simpa [Ending] using (exec_command_of_ready (decodeCommand_space _) (by simp [State.cmdReady, hi, hr]) hu).toEnding
  · rw [edge_offering hr hi] at hu
    obtain ⟨⟩ := hu
    split
    · simpa [Ending] using txAck_ending (s := received s.pins (endPulse s)) (by simpa using hi)
    · exact Ending.received (.inr ⟨by rcases hi with hi | hi <;> simp [hi], rfl, rfl⟩)
  · obtain ⟨v, rfl, rfl | ⟨l, hh⟩⟩ := edge_waiting hr hi hu
    · exact (ticked_ending _ (by rcases hi with hi | hi <;> simp [hi])).received
    · exact Ending.received (by simpa [Ending] using hh.toEnding)

/-- Settles O43, by the two ways an edge can end; an idle block without a command keeps `err` and does not complete. -/
theorem errChangesOnlyAtCompletion : Obligations.ErrChangesOnlyAtCompletion := by
  intro s t hs hr
  by_cases hb : s.phase ≠ .idle ∨ s.pins.cmdValid = true
  · obtain ⟨u, hu, rfl⟩ := step_eq_next.1 hs
    rcases edge_ending hr hb hu with ⟨hp, hd⟩ | ⟨hp, hd, he⟩
    · exact ⟨fun h => by simp [hd] at h, fun _ _ => hd, fun _ _ _ => hd, fun _ => hp⟩
    · exact ⟨fun _ => he, fun _ h => absurd h hp, fun _ _ h => absurd h hp, fun h => by simp [hd] at h⟩
  · obtain ⟨hi, hv⟩ := not_or.1 hb
    have hi : s.phase = .idle := not_not.1 hi
    obtain ⟨t', hs', hd, hp, he, -⟩ := idleKeepsResults s hi hr (Bool.eq_false_iff.2 hv)
    obtain ⟨⟩ := hs.symm.trans hs'
    exact ⟨fun _ => he, fun h => absurd hi h, fun _ h => absurd h hv, fun _ => hp⟩

/-- An edge in SEND or BSEND logs the offered byte when the transport takes it. -/
theorem edge_txlog_of_offering (hr : s.pins.rst = false) (hi : s.phase = .send ∨ s.phase = .bsend)
    (hu : performAll (edgeSteps s) (endPulse s) = .next u) :
    u.txlog = if s.pins.txReady = true then s.txlog ++ s.txData.toList else s.txlog := by
  have hd : (received s.pins (endPulse s)).txData = s.txData := by simp [State.txData]
  rw [edge_offering hr hi] at hu
  obtain ⟨⟩ := hu
  split
  · rw [txAck_txlog (by simpa using hi), hd]; simp
  · simp

/-- An edge in another phase logs nothing. -/
theorem edge_txlog_of_not_offering (hr : s.pins.rst = false) (hi : ¬ (s.phase = .send ∨ s.phase = .bsend))
    (hu : performAll (edgeSteps s) (endPulse s) = .next u) : u.txlog = s.txlog := by
  rcases phase_kinds s with hp | hp | hp
  · rw [edge_idle hr hp] at hu
    split at hu
    · simpa using (exec_command_of_ready (decodeCommand_space _) (by simp [State.cmdReady, hp, hr]) hu).txlog
    · obtain ⟨⟩ := hu; simp
  · exact absurd hp hi
  · obtain ⟨v, rfl, rfl | ⟨l, hh⟩⟩ := edge_waiting hr hp hu
    · simp
    · simp [hh.txlog]

/-- Settles O45, by whether the phase offers a byte. -/
theorem transmitLogGrowsByOfferedByte : Obligations.TransmitLogGrowsByOfferedByte := by
  intro s t hs
  obtain ⟨u, hu, rfl⟩ := step_eq_next.1 hs
  by_cases hr : s.pins.rst
  · rw [edge_reset hr] at hu
    obtain ⟨⟩ := hu
    simp [State.txValid, hr, resetBlock]
  · have hr : s.pins.rst = false := Bool.eq_false_iff.2 hr
    by_cases hi : s.phase = .send ∨ s.phase = .bsend
    · simpa [State.txValid, hr, hi] using edge_txlog_of_offering hr hi hu
    · simpa [State.txValid, hr, hi] using edge_txlog_of_not_offering hr hi hu

/-! ## The ports -/

/-- Settles O49: a FIFO within RX_DEPTH is shorter than two to the width of the port. -/
theorem resultPortViews : Obligations.ResultPortViews := by
  refine ⟨fun s h => ?_, fun s h => if_pos h, fun s h => if_neg (Nat.not_lt.2 h), fun s => ?_, fun s => rfl⟩
  · have hlt : s.rxCount < 2 ^ rxCountWidth s.cfg := Nat.lt_of_le_of_lt h Nat.lt_log2_self
    exact (BitVec.toNat_ofNat _ _).trans (Nat.mod_eq_of_lt hlt)
  · exact decide_eq_true_iff

end Sys2Proof.Machine
end

section
/-! SUPPORT. A busy block does not read the command port: the agent steps of such an edge do not look at it, so they do
the same whatever it carries. -/

namespace Sys2Proof.Machine

variable {s : State} {v : Bool} {w : Word}

/-- The state with `v` and `w` on the command port. -/
def State.withCommand (v : Bool) (w : Word) (s : State) : State := { s with pins := { s.pins with cmdValid := v, cmd := w } }

/-- An outcome with `v` and `w` on the command port. -/
def reoffer (v : Bool) (w : Word) (r : Result) : Result := andThen r fun t => .next (t.withCommand v w)

theorem andThen_reoffer {k k' : State → Result} (hk : ∀ t, k' (t.withCommand v w) = reoffer v w (k t)) (r : Result) :
    andThen (reoffer v w r) k' = reoffer v w (andThen r k) := by
  cases r with
  | next t => exact hk t
  | fault | refused => rfl

@[simp] theorem withCommand_phase : (s.withCommand v w).phase = s.phase := rfl
@[simp] theorem withCommand_ctx : (s.withCommand v w).ctx = s.ctx := rfl
@[simp] theorem withCommand_rxfifo : (s.withCommand v w).rxfifo = s.rxfifo := rfl
@[simp] theorem withCommand_drains : (s.withCommand v w).drains = s.drains := rfl

theorem tick_withCommand : tick (s.withCommand v w) = (tick s).withCommand v w := by
  unfold tick
  rw [apply_ite (State.withCommand v w)]
  rfl

theorem receive_withCommand {b : Byte} : receive b (s.withCommand v w) = (receive b s).withCommand v w := by
  unfold receive
  rw [apply_ite (State.withCommand v w)]
  rfl

theorem txAck_withCommand : txAck (s.withCommand v w) = (txAck s).withCommand v w := by
  unfold txAck
  rw [withCommand_phase]
  cases s.phase with
  | send =>
    dsimp only
    rw [apply_ite (State.withCommand v w)]
    rfl
  | idle | wait | bsend | bwait => rfl

theorem byteGot_withCommand : byteGot (s.withCommand v w) = (byteGot s).withCommand v w := by
  unfold byteGot
  rw [withCommand_rxfifo]
  cases s.rxfifo <;> rfl

theorem byteTimeout_withCommand : byteTimeout (s.withCommand v w) = (byteTimeout s).withCommand v w := rfl

theorem gotTimeout_withCommand : gotTimeout (s.withCommand v w) = (gotTimeout s).withCommand v w := by
  unfold gotTimeout
  rw [withCommand_ctx, withCommand_drains, apply_ite (State.withCommand v w)]
  cases s.ctx <;> rfl

theorem gotBad_withCommand {f : Frame} : gotBad f (s.withCommand v w) = (gotBad f s).withCommand v w := by
  unfold gotBad
  rw [withCommand_ctx, withCommand_drains, apply_ite (State.withCommand v w)]
  cases s.ctx <;> rfl

theorem aeaEntry_withCommand {n : Half} : aeaEntry n (s.withCommand v w) = (aeaEntry n s).withCommand v w := by
  simp only [aeaEntry, apply_ite (State.withCommand v w)]
  rfl

theorem aeaContinue_withCommand : aeaContinue (s.withCommand v w) = (aeaContinue s).withCommand v w := by
  unfold aeaContinue
  rw [apply_ite (State.withCommand v w)]
  rfl

theorem aeaAppend_withCommand {b : Byte} : aeaAppend b (s.withCommand v w) = reoffer v w (aeaAppend b s) := by
  unfold aeaAppend
  rw [apply_ite (reoffer v w)]
  rfl

theorem aeaPayload_withCommand {f : Frame} : aeaPayload f (s.withCommand v w) = reoffer v w (aeaPayload f s) := by
  unfold aeaPayload
  rw [aeaAppend_withCommand]
  refine andThen_reoffer (fun t => ?_) _
  rw [apply_ite (reoffer v w)]
  refine ite_congr rfl (fun _ => ?_)
    fun _ => congrArg Host.Outcome.next (aeaContinue_withCommand (s := { t with rem := 0#7 }))
  rw [aeaAppend_withCommand]
  refine andThen_reoffer (fun t => ?_) _
  exact congrArg Host.Outcome.next (aeaContinue_withCommand (s := { t with rem := t.rem - 2#7 }))

theorem gotMain_withCommand {f : Frame} {st : BitVec 2} :
    gotMain f st (s.withCommand v w) = (gotMain f st s).withCommand v w := by
  simp only [gotMain, apply_ite (State.withCommand v w), ← aeaEntry_withCommand]
  rfl

theorem gotAea_withCommand {f : Frame} {st : BitVec 2} :
    gotAea f st (s.withCommand v w) = reoffer v w (gotAea f st s) := by
  simp only [gotAea, apply_ite (reoffer v w), ← aeaPayload_withCommand]
  rfl

theorem gotPoll_withCommand {f : Frame} {st : BitVec 2} :
    gotPoll f st (s.withCommand v w) = (gotPoll f st s).withCommand v w := by
  simp only [gotPoll, apply_ite (State.withCommand v w)]
  rfl

theorem gotGood_withCommand {f : Frame} {st : BitVec 2} :
    gotGood f st (s.withCommand v w) = reoffer v w (gotGood f st s) := by
  unfold gotGood
  rw [withCommand_ctx, withCommand_drains, apply_ite (reoffer v w)]
  refine ite_congr rfl (fun _ => rfl) fun _ => ?_
  cases s.ctx with
  | main => exact congrArg Host.Outcome.next gotMain_withCommand
  | aea => exact gotAea_withCommand
  | poll => exact congrArg Host.Outcome.next gotPoll_withCommand

theorem got_withCommand (hp : s.phase = .wait) (h4 : 4 ≤ s.rxCount) : got (s.withCommand v w) = reoffer v w (got s) := by
  obtain ⟨f, rest, hf⟩ := popFrame_isSome h4
  have hf := popFrame_eq_some.1 hf
  rw [got_of_frame hp hf, got_of_frame (s := s.withCommand v w) hp hf, apply_ite (reoffer v w)]
  exact ite_congr rfl (fun _ => gotGood_withCommand (s := { s with rxfifo := rest }))
    fun _ => congrArg Host.Outcome.next (gotBad_withCommand (s := { s with rxfifo := rest }))

theorem ticked_withCommand {u : State} :
    ticked (s.withCommand v w).pins (u.withCommand v w) = (ticked s.pins u).withCommand v w := by
  unfold ticked
  rw [tick_withCommand, apply_ite (State.withCommand v w)]
  rfl

theorem received_withCommand {u : State} :
    received (s.withCommand v w).pins (u.withCommand v w) = (received s.pins u).withCommand v w := by
  unfold received
  rw [receive_withCommand, apply_ite (State.withCommand v w)]
  rfl

/-- An edge of a busy block with something else on the command port. -/
theorem edge_withCommand (hb : s.phase ≠ .idle) :
    performAll (edgeSteps (s.withCommand v w)) (endPulse (s.withCommand v w)) =
      reoffer v w (performAll (edgeSteps s) (endPulse s)) := by
  have he : endPulse (s.withCommand v w) = (endPulse s).withCommand v w := rfl
  by_cases hr : s.pins.rst
  · rw [edge_reset hr, edge_reset (s := s.withCommand v w) hr]; rfl
  · have hr : s.pins.rst = false := Bool.eq_false_iff.2 hr
    rcases phase_kinds s with hp | hp | hp | hp
    · exact absurd hp hb
    · rw [edge_offering hr hp, edge_offering (s := s.withCommand v w) hr hp, he, received_withCommand,
        txAck_withCommand]
      exact congrArg Host.Outcome.next (apply_ite (State.withCommand v w) (s.pins.txReady = true) _ _).symm
    · rw [edge_wait hr hp, edge_wait (s := s.withCommand v w) hr hp, he, ticked_withCommand, gotTimeout_withCommand,
        ← andThen_reoffer (k' := fun u => .next (received (s.withCommand v w).pins u))
          fun _ => congrArg Host.Outcome.next received_withCommand]
      refine congrArg (andThen · _) ?_
      rw [apply_ite (reoffer v w), apply_ite (reoffer v w)]
      exact ite_congr rfl (fun h4 => got_withCommand (by simp [hp]) (by simpa using h4)) fun _ => rfl
    · rw [edge_bwait hr hp, edge_bwait (s := s.withCommand v w) hr hp, he, ticked_withCommand, byteGot_withCommand,
        byteTimeout_withCommand]
      refine congrArg Host.Outcome.next ?_
      rw [← received_withCommand, apply_ite (State.withCommand v w), apply_ite (State.withCommand v w)]
      rfl

/-- The host side sees nothing of the command port of a busy block: its word is not accepted (R23). -/
theorem hostEdge_withCommand (hb : s.phase ≠ .idle) (t : State) :
    hostEdge (s.withCommand v w) (t.withCommand v w) = hostEdge s t := by
  have hc : s.cmdReady = false := by simp [State.cmdReady, hb]
  have hc' : (s.withCommand v w).cmdReady = false := hc
  have ho (h : HostSide) : hostObserve (s.withCommand v w) h = hostObserve s h := by
    unfold hostObserve
    rw [hc, hc']
    cases h.stage with
    | presenting x => simp
    | ready | waiting | seenDone | abandoned | opening | pausing => rfl
  unfold hostEdge
  rw [ho]
  rfl

/-- Settles O41: neither the agent steps nor the host side of a busy block's edge read the command port. -/
theorem busyStepIgnoresCommandPort : Obligations.BusyStepIgnoresCommandPort := by
  intro s v w hb
  change step (s.withCommand v w) = step s
  unfold step
  rw [edge_withCommand hb]
  cases performAll (edgeSteps s) (endPulse s) with
  | next t =>
    refine congrArg Host.Outcome.next ?_
    unfold nextClock
    rw [hostEdge_withCommand hb]
    rfl
  | fault | refused => rfl

end Sys2Proof.Machine
end

section
/-! SUPPORT. What the decoder and the encoder answer, one equation per row of R95 and R99, and the statements on 30_encoding.md that
rest on them. -/

namespace Sys2Proof

/-! ## The fields of a command word -/

/-- A field of a field of a word is a field of the word. -/
theorem extractLsb'_extractLsb' {n a k i l : Nat} (x : BitVec n) (h : i + l ≤ k) :
    (x.extractLsb' a k).extractLsb' i l = x.extractLsb' (a + i) l := by
  ext j hj
  have : i + j < k := by omega
  simp [this, Nat.add_assoc]

/-- Two words that agree outside a mask agree in every field that the mask leaves clear. -/
theorem extractLsb'_congr_of_or {n i l : Nat} {w w' m : BitVec n} (h : w ||| m = w' ||| m) (hm : m.extractLsb' i l = 0#l) :
    w.extractLsb' i l = w'.extractLsb' i l := by
  simpa [BitVec.extractLsb'_or, hm] using congrArg (BitVec.extractLsb' i l) h

/-- R98: four fields and the reserved bits 27:25 make up a command word. -/
theorem append_fields (w : Word) : cmdOp w ++ w.extractLsb' 25 3 ++ cmdRw w ++ cmdReg w ++ cmdData w = w := by
  unfold cmdOp cmdRw cmdReg cmdData
  rw [BitVec.extractLsb'_append_extractLsb'_eq_extractLsb' (show 28 = 25 + 3 from rfl),
    BitVec.extractLsb'_append_extractLsb'_eq_extractLsb' (show 25 = 24 + 1 from rfl),
    BitVec.extractLsb'_append_extractLsb'_eq_extractLsb' (show 24 = 16 + 8 from rfl),
    BitVec.extractLsb'_append_extractLsb'_eq_extractLsb' (show 16 = 0 + 16 from rfl)]
  exact BitVec.extractLsb'_eq_self

/-- R99: the low bits of the opcode are the `sub` of ILL. -/
theorem cmdOp_low (w : Word) : (cmdOp w).extractLsb' 0 3 = w.extractLsb' 28 3 := extractLsb'_extractLsb' w (by decide)

/-- All bits of the opcode but the lowest, 000 for XRD and XWR alone. -/
theorem cmdOp_high (w : Word) : (cmdOp w).extractLsb' 1 3 = w.extractLsb' 29 3 := extractLsb'_extractLsb' w (by decide)

/-- R100: the top bit of the opcode, set for ILL alone. -/
theorem cmdOp_top (w : Word) : (cmdOp w).extractLsb' 3 1 = w.extractLsb' 31 1 := extractLsb'_extractLsb' w (by decide)

/-- Masking a word with 000 in bits 27:25 and `m` in bit 24 leaves the word of its fields. -/
theorem and_fieldMask (w : Word) (m : BitVec 1) :
    w &&& (BitVec.allOnes 4 ++ 0#3 ++ m ++ BitVec.allOnes 8 ++ BitVec.allOnes 16 : BitVec 32) =
      cmdWord (cmdOp w) (cmdRw w &&& m) (cmdReg w) (cmdData w) := by
  have h : ∀ (op : BitVec 4) (z : BitVec 3) (rw : BitVec 1) (reg : Byte) (d : Half),
      (op ++ z ++ rw ++ reg ++ d : BitVec 32) &&&
          (BitVec.allOnes 4 ++ 0#3 ++ m ++ BitVec.allOnes 8 ++ BitVec.allOnes 16 : BitVec 32) =
        cmdWord op (rw &&& m) reg d := by
    intros
    simp only [cmdWord, BitVec.and_append, BitVec.and_allOnes, BitVec.and_zero]
  conv_lhs => rw [← append_fields w]
  exact h ..

/-- Appending is shifting and adding. -/
theorem append_toNat {m n : Nat} (x : BitVec m) (y : BitVec n) : (x ++ y).toNat = x.toNat * 2 ^ n + y.toNat := by
  rw [BitVec.toNat_append, ← Nat.shiftLeft_add_eq_or_of_lt y.isLt, Nat.shiftLeft_eq]

/-- The value of a word is the sum of its shifted fields (R109). -/
theorem cmdWord_toNat (op : BitVec 4) (rw : BitVec 1) (reg : Byte) (d : Half) :
    (cmdWord op rw reg d).toNat = op.toNat * 2 ^ 28 + rw.toNat * 2 ^ 24 + reg.toNat * 2 ^ 16 + d.toNat := by
  simp only [cmdWord, append_toNat, BitVec.toNat_zero]
  ring

/-! ## The rows of the command decoder -/

section Rows

variable {w w' : Word}

theorem decodeCommand_xrd (h : cmdOp w = 0x0#4) : decodeCommand w = .xrd (cmdReg w) (cmdData w) := by simp [decodeCommand, h]

theorem decodeCommand_xwr (h : cmdOp w = 0x1#4) : decodeCommand w = .xwr (cmdReg w) (cmdData w) := by simp [decodeCommand, h]

theorem decodeCommand_snd (h : cmdOp w = 0x2#4) : decodeCommand w = .snd (cmdRw w) (cmdReg w) (cmdData w) := by
  simp [decodeCommand, h]

theorem decodeCommand_aea (h : cmdOp w = 0x3#4) : decodeCommand w = .aea (cmdRw w) (cmdReg w) (cmdData w) := by
  simp [decodeCommand, h]

theorem decodeCommand_poll (h : cmdOp w = 0x4#4) : decodeCommand w = .poll (cmdRw w) (cmdReg w) (cmdData w) := by
  simp [decodeCommand, h]

theorem decodeCommand_flush (h : cmdOp w = 0x5#4) : decodeCommand w = .flush (cmdRw w) (cmdReg w) (cmdData w) := by
  simp [decodeCommand, h]

theorem decodeCommand_txb (h : cmdOp w = 0x6#4) :
    decodeCommand w = .txb (cmdRw w) (cmdReg w) (dataHi (cmdData w)) (dataLo (cmdData w)) := by simp [decodeCommand, h]

theorem decodeCommand_rxb (h : cmdOp w = 0x7#4) : decodeCommand w = .rxb (cmdRw w) (cmdReg w) (cmdData w) := by
  simp [decodeCommand, h]

/-- An opcode with its top bit set is none of the eight others (R99). -/
theorem decodeCommand_ill (h : (cmdOp w).extractLsb' 3 1 = 1#1) :
    decodeCommand w = .ill ((cmdOp w).extractLsb' 0 3) (cmdRw w) (cmdReg w) (cmdData w) := by
  rw [cmdOp_low]
  unfold decodeCommand
  split
  case h_9 => rfl
  all_goals next ho => simp [ho] at h

/-- R99: the opcode is one of the eight rows, or its top bit is set. -/
theorem opcode_cases (op : BitVec 4) :
    op = 0x0#4 ∨ op = 0x1#4 ∨ op = 0x2#4 ∨ op = 0x3#4 ∨ op = 0x4#4 ∨ op = 0x5#4 ∨ op = 0x6#4 ∨ op = 0x7#4 ∨
      op.extractLsb' 3 1 = 1#1 := by
  revert op; decide

/-- The decoder reads the four fields and nothing else (R100). -/
theorem decodeCommand_congr (ho : cmdOp w = cmdOp w') (hrw : cmdRw w = cmdRw w') (hr : cmdReg w = cmdReg w')
    (hd : cmdData w = cmdData w') : decodeCommand w = decodeCommand w' := by
  simp only [decodeCommand, ← cmdOp_low, ho, hrw, hr, hd]

/-- The encoding of a decoded word has the word's fields, bit 24 being 0 for XRD and XWR (R190, R191). -/
theorem encode_decodeCommand (w : Word) :
    encode (decodeCommand w) =
      some (cmdWord (cmdOp w) (if (cmdOp w).extractLsb' 1 3 = 0#3 then 0#1 else cmdRw w) (cmdReg w) (cmdData w)) := by
  rcases opcode_cases (cmdOp w) with h | h | h | h | h | h | h | h | h
  · rw [decodeCommand_xrd h, h]; rfl
  · rw [decodeCommand_xwr h, h]; rfl
  · rw [decodeCommand_snd h, h]; rfl
  · rw [decodeCommand_aea h, h]; rfl
  · rw [decodeCommand_poll h, h]; rfl
  · rw [decodeCommand_flush h, h]; rfl
  · rw [decodeCommand_txb h, h, encode, dataHi_append_dataLo]; rfl
  · rw [decodeCommand_rxb h, h]; rfl
  · have hop : ∀ op : BitVec 4, op.extractLsb' 3 1 = 1#1 → 1#1 ++ op.extractLsb' 0 3 = op ∧ op.extractLsb' 1 3 ≠ 0#3 := by
      decide
    obtain ⟨hsub, hne⟩ := hop _ h
    rw [decodeCommand_ill h, encode, hsub, if_neg hne]

end Rows

/-! ## The rows of the frame decoders -/

theorem decodeResponse_of_ok {f : Frame} (h : f.ok = true) :
    decodeResponse f = .ok (responseOf f.statusBits f.ignoredBits f.b1 f.data) := by simp [decodeResponse, h]

theorem decodeResponse_of_bad {f : Frame} (h : f.ok = false) : decodeResponse f = .error .badChecksum := by
  simp [decodeResponse, h]

/-- R132: `ok` is the comparison of the checksum nibbles. -/
theorem Frame.ok_iff (f : Frame) : f.ok = true ↔ Sys2Proof.csum f.b0 f.b1 f.b2 f.b3 = f.b0.extractLsb' 4 4 := decide_eq_true_iff

/-- A built response frame is the response it was built for. -/
theorem decodeResponse_rspFrame (x st : BitVec 2) (reg : Byte) (d : Half) :
    decodeResponse (rspFrame x st reg d) = .ok (responseOf st x reg d) := by
  rw [decodeResponse_of_ok (rspFrame_ok ..)]; simp

/-- Byte0[3:0] of a request frame is 000 and `rw` (R91). -/
theorem encFrame_lowNibble (rw : BitVec 1) (reg : Byte) (d : Half) :
    (encFrame rw reg d).b0.extractLsb' 0 4 = rw.setWidth 4 := by
  rw [encFrame, sealFrame_b0]
  exact lowNibble_append _ _

/-- A built request frame is the request of its `rw` (R94). -/
theorem decodeRequest_encFrame (rw : BitVec 1) (reg : Byte) (d : Half) :
    decodeRequest (encFrame rw reg d) = .ok (if rw = 0#1 then .rdf reg d else .wrf reg d) := by
  have hrw : ∀ b : BitVec 1, b = 0#1 ∨ b = 1#1 := by decide
  have hok : (encFrame rw reg d).ok = true := sealFrame_ok ..
  have hr : (encFrame rw reg d).b1 = reg := rfl
  have hd : (encFrame rw reg d).data = d := sealFrame_data ..
  rcases hrw rw with rfl | rfl <;> simp [decodeRequest, encFrame_lowNibble, hok, hr, hd]

/-- A good frame with 000 and `rw` in byte0[3:0] is the request frame of its own fields. -/
theorem encFrame_of_ok {f : Frame} {rw : BitVec 1} (h : f.ok = true) (hn : f.b0.extractLsb' 0 4 = rw.setWidth 4) :
    encFrame rw f.b1 f.data = f := by
  rw [encFrame, ← hn, sealFrame_of_ok h]

theorem status_cases (st : BitVec 2) : st = 0#2 ∨ st = 1#2 ∨ st = 2#2 ∨ st = 3#2 := by revert st; decide

/-- The word of the response kind of a status is the frame with that status. -/
theorem encode_responseOf (st x : BitVec 2) (reg : Byte) (d : Half) :
    encode (responseOf st x reg d) = some (rspFrame x st reg d).toWord := by
  rcases status_cases st with rfl | rfl | rfl | rfl <;> rfl

/-- R95: bits 25:24 of a good frame are its status. -/
theorem toWord_and_statusMask {f : Frame} (h : f.ok = true) :
    f.toWord &&& 0x03000000#32 = (0#6 ++ f.statusBits ++ 0#24 : BitVec 32) := by
  conv_lhs => rw [← rspFrame_of_ok h]
  exact Laws.TableRow.rsp_row ..

/-! ## Decode of encode -/

section DecodeOfEncode

variable {i : Instr} {w : Word}

/-- The operands of a command stand in the fields of its word. -/
theorem decodeCommand_of_encode (hs : i.space = .command) (he : encode i = some w) : decodeCommand w = i := by
  cases i with
  | xrd | xwr | snd | aea | poll | flush | txb | rxb =>
    obtain ⟨⟩ := he
    simp [decodeCommand]
  | ill sub rw reg d =>
    obtain ⟨⟩ := he
    have htop : (1#1 ++ sub : BitVec 4).extractLsb' 3 1 = 1#1 := BitVec.extractLsb'_append_eq_left
    have hsub : (1#1 ++ sub : BitVec 4).extractLsb' 0 3 = sub := BitVec.extractLsb'_append_eq_right
    rw [decodeCommand_ill (by rwa [cmdOp_cmdWord])]
    simp [hsub]
  | rdf | wrf | rspOk | rspXe | rspAea | rspCp | csum | enc | dec => cases hs

/-- The low nibble of a built request says which of the two it is. -/
theorem decodeRequest_of_encode (hs : i.space = .wireRequest) (he : encode i = some w) :
    decodeRequest (Frame.ofWord w) = .ok i := by
  cases i with
  | rdf reg d => obtain ⟨⟩ := he; rw [Frame.ofWord_toWord, decodeRequest_encFrame]; rfl
  | wrf reg d => obtain ⟨⟩ := he; rw [Frame.ofWord_toWord, decodeRequest_encFrame]; rfl
  | _ => cases hs

/-- The status bits of a built response say which of the four it is. -/
theorem decodeResponse_of_encode (hs : i.space = .wireResponse) (he : encode i = some w) :
    decodeResponse (Frame.ofWord w) = .ok i := by
  cases i with
  | rspOk | rspXe | rspAea | rspCp => obtain ⟨⟩ := he; rw [Frame.ofWord_toWord, decodeResponse_rspFrame]; rfl
  | _ => cases hs

/-- R90: a codec function has no word. -/
theorem encode_of_codecPort (hs : i.space = .codecPort) : encode i = none := by
  cases i with
  | csum | enc | dec => rfl
  | _ => cases hs

end DecodeOfEncode

/-- Settles O8: the decoder of each space reads the operands back from the word built of them. -/
theorem decodeOfEncodeIsIdentity : Obligations.DecodeOfEncodeIsIdentity := by
  intro i w _ he
  cases hs : i.space with
  | command => exact congrArg Except.ok (decodeCommand_of_encode hs he)
  | wireRequest => exact decodeRequest_of_encode hs he
  | wireResponse => exact decodeResponse_of_encode hs he
  | codecPort => rw [encode_of_codecPort hs] at he; cases he

/-! ## Encode of decode -/

/-- Settles O9: an opcode below 2 is XRD or XWR, which force bit 24; the other rows keep it. -/
theorem commandWordReencodes : Obligations.CommandWordReencodes := by
  intro w
  have h0 : w &&& 0xF0FFFFFF#32 = cmdWord (cmdOp w) 0#1 (cmdReg w) (cmdData w) := by
    simpa using and_fieldMask w 0#1
  have h1 : w &&& 0xF1FFFFFF#32 = cmdWord (cmdOp w) (cmdRw w) (cmdReg w) (cmdData w) := by
    have := and_fieldMask w (BitVec.allOnes 1)
    rwa [BitVec.and_allOnes] at this
  rw [encode_decodeCommand, cmdOp_high, h0, h1]
  split <;> rfl

/-- A frame that decodes as a response is the frame of the response. -/
theorem encode_of_decodeResponse {f : Frame} {i : Instr} (h : decodeResponse f = .ok i) : encode i = some f.toWord := by
  cases hok : f.ok with
  | true =>
    rw [decodeResponse_of_ok hok] at h
    obtain ⟨⟩ := h
    rw [encode_responseOf, rspFrame_of_ok hok]
  | false => rw [decodeResponse_of_bad hok] at h; cases h

/-- A frame that decodes as a request is the frame of the request. -/
theorem encode_of_decodeRequest {f : Frame} {i : Instr} (h : decodeRequest f = .ok i) : encode i = some f.toWord := by
  unfold decodeRequest at h
  split at h
  · next hn =>
    split at h
    · next hok => obtain ⟨⟩ := h; rw [encode, encFrame_of_ok (rw := 0#1) hok hn]
    · cases h
  · next hn =>
    split at h
    · next hok => obtain ⟨⟩ := h; rw [encode, encFrame_of_ok (rw := 1#1) hok hn]
    · cases h
  · cases h

/-- Settles O10: a good frame is the one built of its own fields. -/
theorem wireFrameReencodes : Obligations.WireFrameReencodes :=
  fun _ _ h => h.elim encode_of_decodeResponse encode_of_decodeRequest

/-! ## Which words decode to what -/

/-- Settles O6: the decoder looks at the checksum nibble alone, and that nibble is a function of the other 28 bits. -/
theorem everyByteGroupIsClassified : Obligations.EveryByteGroupIsClassified := by
  refine ⟨fun f => ?_, fun f h => ⟨_, decodeResponse_of_ok (f.ok_iff.2 h)⟩, fun n b1 b2 b3 => ?_⟩
  · rw [Ne, ← f.ok_iff]
    cases hok : f.ok <;> simp [decodeResponse, hok]
  · simp only [csum_append, topNibble_append]
    exact ⟨_, rfl, fun _ h => h.symm⟩

/-- Settles O7: the mask picks the status bits, and the status picks the kind; a request's bits 1:0 are 0 and `rw`. -/
theorem responseKindsAndLoopback : Obligations.ResponseKindsAndLoopback := by
  refine ⟨fun f hok => ?_, fun f hbad i h => ?_, fun reg d => ⟨?_, ?_⟩⟩
  · rw [decodeResponse_of_ok hok, toWord_and_statusMask hok]
    rcases status_cases f.statusBits with h | h | h | h <;> simp [responseOf, h]
  · rw [decodeResponse_of_bad hbad] at h; cases h
  · exact decodeResponse_rspFrame 0#2 0#2 reg d
  · exact decodeResponse_rspFrame 0#2 1#2 reg d

/-- Settles O11: the rows of the decoder; bits that a row does not read do not matter. -/
theorem commandDecodeByOpcode : Obligations.CommandDecodeByOpcode := by
  refine ⟨fun w => ⟨decodeCommand_xrd, decodeCommand_xwr, decodeCommand_snd, decodeCommand_aea, decodeCommand_poll,
    decodeCommand_flush, fun h => ?_, decodeCommand_rxb, fun h => ?_⟩, fun w w' h => ?_, fun w w' ht h => ?_⟩
  · rw [decodeCommand_txb h]
    unfold cmdData dataHi dataLo
    rw [extractLsb'_extractLsb' w (by decide), extractLsb'_extractLsb' w (by decide)]
    rfl
  · rw [decodeCommand_ill ((cmdOp_top w).trans h), cmdOp_low]
    rfl
  · exact decodeCommand_congr (extractLsb'_congr_of_or h (by decide)) (extractLsb'_congr_of_or h (by decide))
      (extractLsb'_congr_of_or h (by decide)) (extractLsb'_congr_of_or h (by decide))
  · have ho : cmdOp w = cmdOp w' := extractLsb'_congr_of_or h (by decide)
    have hr : cmdReg w = cmdReg w' := extractLsb'_congr_of_or h (by decide)
    have hd : cmdData w = cmdData w' := extractLsb'_congr_of_or h (by decide)
    have hlow : ∀ op : BitVec 4, op.extractLsb' 1 3 = 0#3 → op = 0x0#4 ∨ op = 0x1#4 := by decide
    rcases hlow (cmdOp w) ((cmdOp_high w).trans ht) with h0 | h1
    · rw [decodeCommand_xrd h0, decodeCommand_xrd (ho ▸ h0), hr, hd]
    · rw [decodeCommand_xwr h1, decodeCommand_xwr (ho ▸ h1), hr, hd]

/-- Settles O12: the fields of each word, read off. -/
theorem sampleWordsDecode : Obligations.SampleWordsDecode := by
  refine ⟨?_, ?_, ?_, ?_, ?_, ?_, ?_, ?_, ?_, ?_, ?_, ?_⟩ <;> decide

/-! ## The fold of an integer operand -/

/-- R96 on the domain. -/
theorem foldData_of_domain {v : Int} (h1 : -65536 ≤ v) (h2 : v ≤ 65535) : foldData v = some (BitVec.ofInt 16 v) := by
  simp [foldData, dataInDomain, h1, h2]

/-- R96 outside the domain. -/
theorem foldData_of_outside {v : Int} (h : v < -65536 ∨ 65535 < v) : foldData v = none := by
  have : ¬ (-65536 ≤ v ∧ v ≤ 65535) := by omega
  simpa [foldData, dataInDomain] using this

end Sys2Proof
end

section
/-! SUPPORT. The statements on assembled words, and on what an instruction does with its operands: ignored operands, the request
rows, the response rows, and the error codes they report. -/

namespace Sys2Proof.Machine

variable {s t t' : State}

/-! ## The assembler -/

/-- Settles O13: the assembled word is the word of the line's fields, whose value is their sum. -/
theorem assembledWordLayout : Obligations.AssembledWordLayout := by
  intro c reg v rw n b
  have hv : (BitVec.ofInt 16 v).toNat = (v % 65536).toNat := BitVec.toNat_ofInt v
  refine ⟨fun h1 h2 => ?_, fun h => ?_, ?_, rfl, rfl, ?_, rfl, rfl, rfl⟩
  · have hf := foldData_of_domain h1 h2
    refine ⟨?_, ?_, ?_, rfl, rfl⟩ <;> simp [assembleWord, assemble, hf, encode, cmdWord_toNat, hv]
  · have hf := foldData_of_outside h
    refine ⟨?_, ?_, ?_⟩ <;> simp [assembleWord, assemble, hf]
  · simp [assembleWord, assemble, encode, cmdWord_toNat]
  · have hb : (0#8 ++ b : Half).toNat = b.toNat := (append_toNat 0#8 b).trans (by simp)
    simp [assembleWord, assemble, encode, cmdWord_toNat, hb]

/-! ## Ignored operands -/

/-- The two states differ in the latched `rw`, `reg` and `data` at most. -/
def SameButOperands (t t' : State) : Prop := { t' with rw := t.rw, reg := t.reg, data := t.data } = t

/-- The two states differ in the latched `rw` and `reg` at most. -/
def SameButRwReg (t t' : State) : Prop := { t' with rw := t.rw, reg := t.reg } = t

/-- Two acceptances on one state are related when the accepting functions relate their results and every state is related to
itself, the block being busy. -/
theorem whenReady_related {R : State → State → Prop} {f g : State → State} (h : whenReady f s = .next t)
    (h' : whenReady g s = .next t') (hs : R s s) (hfg : R (f s) (g s)) : R t t' := by
  rcases whenReady_eq_next h with ⟨hr, rfl⟩ | ⟨hr, rfl⟩
  · rw [whenReady_of_ready hr] at h'; obtain ⟨⟩ := h'; exact hfg
  · rw [whenReady_of_busy hr] at h'; obtain ⟨⟩ := h'; exact hs

/-- AEA-entry reads neither the latched `rw` nor the latched `reg`. -/
theorem aeaEntry_sameButRwReg (n : Half) (h : SameButRwReg t t') : SameButRwReg (aeaEntry n t) (aeaEntry n t') := by
  have he : aeaEntry n t = { aeaEntry n t' with rw := t.rw, reg := t.reg } := by
    rw [← h]
    simp only [aeaEntry]
    split
    · rfl
    · split <;> rfl
  rw [he]
  rfl

/-- Settles O22: a command acts through `whenReady`, and what it does at acceptance reads none of the ignored operands. -/
theorem ignoredOperandsReachOnlyTheLatch : Obligations.IgnoredOperandsReachOnlyTheLatch := by
  intro s t t' rw rw' reg reg' hi hi' b d d'
  refine ⟨?_, ?_, ?_, ?_, ?_⟩
  · rw [exec, exec, execAea, execAea]
    refine fun h h' => whenReady_related (R := SameButRwReg) h h' rfl (aeaEntry_sameButRwReg d ?_)
    rfl
  · rw [exec, exec, execPoll, execPoll]
    exact fun h h' => whenReady_related (R := SameButOperands) h h' rfl rfl
  · rw [exec, exec, execFlush, execFlush]
    exact fun h h' => whenReady_related (R := SameButOperands) h h' rfl rfl
  · rw [exec, exec, execTxb, execTxb]
    exact fun h h' => whenReady_related (R := SameButOperands) h h' rfl rfl
  · rw [exec, exec, execRxb, execRxb]
    exact fun h h' => whenReady_related (R := SameButOperands) h h' rfl rfl

/-- Settles O23: a request row is SENDF of its frame. -/
theorem requestRowsStartSending : Obligations.RequestRowsStartSending :=
  fun _ _ _ => ⟨rfl, rfl⟩

/-! ## Responses to XRD and XWR -/

/-- With ctx MAIN and another command than SND, a good frame goes to the Got-handler MAIN (R193). -/
theorem gotGood_main {f : Frame} {st : BitVec 2} (hc : s.ctx = .main) (ho : s.op ≠ 0x2#4) :
    gotGood f st s = .next (gotMain f st s) := by
  simp [gotGood, State.drains, hc, ho]

/-- A status that starts no continuation is reported (R193). -/
theorem gotMain_reported {f : Frame} {st : BitVec 2} (h : ¬ (st = 2#2 ∧ s.rw = 0#1)) :
    gotMain f st s = complete (.ofStatus st)
      { s with rxbuf := f, rspReg := f.b1, value := f.data, kind := 0#1, status := st } := if_neg h

/-- A response row that starts no continuation reports its operands and its status. -/
theorem response_reported {x st : BitVec 2} {reg : Byte} {data : Half} (hp : s.phase = .wait) (hc : s.ctx = .main)
    (ho : s.op ≠ 0x2#4) (h : ¬ (st = 2#2 ∧ s.rw = 0#1)) :
    whenWaiting (gotGood (rspFrame x st reg data) st) s = .next (complete (.ofStatus st)
      { s with rxbuf := rspFrame x st reg data, rspReg := reg, value := data, kind := 0#1, status := st }) := by
  rw [whenWaiting_of_wait hp, gotGood_main hc ho, gotMain_reported h, rspFrame_b1, rspFrame_data]

/-- Settles O28: each row is the Got-handler MAIN on the frame of its own status, and only status 2 on a read continues. -/
theorem responsesInMain : Obligations.ResponsesInMain :=
  fun _ _ _ _ hp hc ho => ⟨response_reported hp hc ho nofun, response_reported hp hc ho nofun,
    fun hw => response_reported hp hc ho fun h => hw h.2, response_reported hp hc ho nofun⟩

/-! ## Error codes -/

/-- Settles O27: the table of R104, read off. -/
theorem errorCodeNumbers : Obligations.ErrorCodeNumbers := by
  refine ⟨by decide, rfl, rfl, rfl, rfl, rfl, rfl, rfl, rfl, rfl, rfl, fun e => ?_⟩
  cases e <;> decide

end Sys2Proof.Machine
end

section
/-! SUPPORT. The codec on its ports: the checksum as an exclusive or of nibbles and the syndrome it gives a frame, the fields of a
packed and of an unpacked frame, and the statements on 40_codec.md that rest on them. -/

namespace Sys2Proof

/-! ## The checksum nibble -/

/-- A byte shifted and masked onto one nibble is the exclusive or of its two nibbles. -/
theorem nibbleFold_eq_xor (b : Byte) :
    ((b >>> 4) ^^^ (b &&& 0x0F#8)).setWidth 4 = b.extractLsb' 4 4 ^^^ b.extractLsb' 0 4 := by
  revert b; decide

theorem topNibble_and_lowMask (b : Byte) : (b &&& 0x0F#8).extractLsb' 4 4 = 0#4 := by
  revert b; decide

theorem lowNibble_and_lowMask (b : Byte) : (b &&& 0x0F#8).extractLsb' 0 4 = b.extractLsb' 0 4 := by
  revert b; decide

/-- R130: the document's formula takes the exclusive or of the bytes first; taken nibble by nibble it is the seven nibbles'. -/
theorem csum_eq_xor_nibbles (b0 b1 b2 b3 : Byte) :
    csum b0 b1 b2 b3 =
      b0.extractLsb' 0 4 ^^^ b1.extractLsb' 4 4 ^^^ b1.extractLsb' 0 4 ^^^ b2.extractLsb' 4 4 ^^^ b2.extractLsb' 0 4 ^^^
        b3.extractLsb' 4 4 ^^^ b3.extractLsb' 0 4 := by
  rw [csum, nibbleFold_eq_xor]
  simp only [BitVec.extractLsb'_xor, topNibble_and_lowMask, lowNibble_and_lowMask, BitVec.zero_xor]
  ac_rfl

/-- R136 (d): the checksum does not see the order of byte1 and byte2. -/
theorem csum_swap_b1_b2 (b0 b1 b2 b3 : Byte) : csum b0 b2 b1 b3 = csum b0 b1 b2 b3 := by
  rw [csum_eq_xor_nibbles, csum_eq_xor_nibbles]
  ac_rfl

/-- R136 (d): the checksum does not see the order of byte2 and byte3. -/
theorem csum_swap_b2_b3 (b0 b1 b2 b3 : Byte) : csum b0 b1 b3 b2 = csum b0 b1 b2 b3 := by
  rw [csum_eq_xor_nibbles, csum_eq_xor_nibbles]
  ac_rfl

/-! ## The syndrome of a frame -/

/-- The exclusive or of all eight nibbles of a word read as a frame: what DEC recomputes against what the frame carries. -/
def syndrome (w : Word) : Nibble := (Frame.ofWord w).csum ^^^ (Frame.ofWord w).b0.extractLsb' 4 4

/-- R132: a frame is good exactly when its syndrome is 0. -/
theorem ok_ofWord_iff (w : Word) : (Frame.ofWord w).ok = true ↔ syndrome w = 0#4 :=
  (Frame.ok_iff _).trans BitVec.xor_eq_zero_iff.symm

theorem syndrome_toWord_of_ok {f : Frame} (h : f.ok = true) : syndrome f.toWord = 0#4 := by
  rwa [← ok_ofWord_iff, Frame.ofWord_toWord]

/-- R136: the syndrome is linear, so what an error does to it does not depend on the frame. -/
theorem syndrome_xor (w e : Word) : syndrome (w ^^^ e) = syndrome w ^^^ syndrome e := by
  simp only [syndrome, Frame.csum, Frame.ofWord, csum_eq_xor_nibbles, BitVec.extractLsb'_xor]
  ac_rfl

/-- An error in one bit shows at that bit's position in its nibble. -/
theorem syndrome_bit (i : Fin 32) : syndrome (1#32 <<< i.val) = 1#4 <<< (i.val % 4) := by
  revert i; decide

theorem syndrome_bit_ne_zero (i : Fin 32) : syndrome (1#32 <<< i.val) ≠ 0#4 := by
  revert i; decide

/-! ## The fields of a packed frame -/

/-- R131: the checksum is taken of 0000000 and `rw`, so byte0 is built of the two. -/
theorem encFrame_topNibble (rw : BitVec 1) (reg : Byte) (d : Half) :
    (encFrame rw reg d).b0.extractLsb' 4 4 = csum (0#7 ++ rw) reg (dataHi d) (dataLo d) := by
  have hrw : (rw.setWidth 4).setWidth 8 = (0#7 ++ rw : Byte) := by revert rw; decide
  rw [encFrame, sealFrame_b0, topNibble_append, hrw]

/-- A field of the low nibble of a packed byte0 is a field of 000 and `rw`. -/
theorem encFrame_lowField (rw : BitVec 1) (reg : Byte) (d : Half) {i l : Nat} (h : i + l ≤ 4) :
    (encFrame rw reg d).b0.extractLsb' i l = (rw.setWidth 4).extractLsb' i l := by
  rw [← encFrame_lowNibble rw reg d, extractLsb'_extractLsb' _ h, Nat.zero_add]

/-- R131: bits 3:1 of a packed byte0 are 0. -/
theorem encFrame_reservedBits (rw : BitVec 1) (reg : Byte) (d : Half) : (encFrame rw reg d).b0.extractLsb' 1 3 = 0#3 := by
  rw [encFrame_lowField _ _ _ (by decide)]
  revert rw; decide

/-- R131: bit 0 of a packed byte0 is `rw`. -/
theorem encFrame_rwBit (rw : BitVec 1) (reg : Byte) (d : Half) : (encFrame rw reg d).b0.extractLsb' 0 1 = rw := by
  rw [encFrame_lowField _ _ _ (by decide)]
  revert rw; decide

@[simp] theorem encFrame_ok (rw : BitVec 1) (reg : Byte) (d : Half) : (encFrame rw reg d).ok = true := sealFrame_ok ..
@[simp] theorem encFrame_data (rw : BitVec 1) (reg : Byte) (d : Half) : (encFrame rw reg d).data = d := sealFrame_data ..

/-- R131: ENC is injective, since each operand is read back from the frame. -/
theorem encFrame_injective {rw rw' : BitVec 1} {reg reg' : Byte} {d d' : Half}
    (h : encFrame rw reg d = encFrame rw' reg' d') : rw = rw' ∧ reg = reg' ∧ d = d' := by
  refine ⟨?_, congrArg Frame.b1 h, ?_⟩
  · rw [← encFrame_rwBit rw reg d, h, encFrame_rwBit]
  · rw [← encFrame_data rw reg d, h, encFrame_data]

/-- R134: byte2 is the quotient of the data by 256. -/
theorem dataHi_toNat (d : Half) : (dataHi d).toNat = d.toNat / 256 := by
  have := d.isLt
  rw [dataHi, BitVec.extractLsb'_toNat, Nat.shiftRight_eq_div_pow]
  omega

/-- R134: byte3 is the remainder of the data by 256. -/
theorem dataLo_toNat (d : Half) : (dataLo d).toNat = d.toNat % 256 := by
  rw [dataLo, BitVec.extractLsb'_toNat, Nat.shiftRight_zero]

/-- R96: the folded operand is `v mod 65536`. -/
theorem ofInt_toNat_cast (v : Int) : ((BitVec.ofInt 16 v).toNat : Int) = v % 65536 := by
  rw [BitVec.toNat_ofInt]
  omega

/-- R96, R131: on the domain ENC of an integer is ENC of the fold. -/
theorem encInt_of_domain (rw : BitVec 1) (reg : Byte) {v : Int} (h1 : -65536 ≤ v) (h2 : v ≤ 65535) :
    encInt rw reg v = some (encFrame rw reg (BitVec.ofInt 16 v)) := by
  rw [encInt, foldData_of_domain h1 h2, Option.map_some]

/-! ## The fields of an unpacked frame -/

/-- R132: the status of a good frame is byte0 masked with 3. -/
theorem statusBits_eq_and (f : Frame) : f.statusBits = (f.b0 &&& 0x03#8).setWidth 2 := by
  rw [Frame.statusBits]
  generalize f.b0 = b
  revert b; decide

theorem decFrame_of_ok {f : Frame} (h : f.ok = true) : decFrame f = ⟨true, f.statusBits, f.b1, f.data⟩ := by
  simp [decFrame, h]

theorem decFrame_status_of_bad {f : Frame} (h : f.ok = false) : (decFrame f).status = 0#2 := by simp [decFrame, h]

/-- R92: the data is byte2 times 256 and byte3. -/
theorem data_toNat (f : Frame) : f.data.toNat = f.b2.toNat * 256 + f.b3.toNat := append_toNat f.b2 f.b3

/-- R133: the packed frame unpacks to its operands, with `rw` for the status. -/
theorem decFrame_encFrame (rw : BitVec 1) (reg : Byte) (d : Half) :
    decFrame (encFrame rw reg d) = ⟨true, rw.setWidth 2, reg, d⟩ := by
  have hst : (encFrame rw reg d).statusBits = rw.setWidth 2 := by
    rw [Frame.statusBits, encFrame_lowField _ _ _ (by decide)]
    revert rw; decide
  rw [decFrame_of_ok (encFrame_ok ..), hst, encFrame_data]
  rfl

/-- Bits 3:1 of byte0 being 0, its low nibble is its bit 0. -/
theorem lowNibble_of_reservedBits {b : Byte} (h : b.extractLsb' 1 3 = 0#3) :
    b.extractLsb' 0 4 = (b.extractLsb' 0 1).setWidth 4 := by
  revert b; decide

/-! ## The statements on the frames -/

/-- Settles O4: the fields ENC writes are the fields DEC reads; a good frame is determined by its fields, and ENC's have 000. -/
theorem codecRoundTrip : Obligations.CodecRoundTrip := by
  refine ⟨fun rw reg v h1 h2 => ⟨_, encInt_of_domain rw reg h1 h2, ?_⟩, fun f hok => ⟨?_, fun h => ?_⟩⟩
  · rw [decFrame_encFrame]
    have hrw : (rw.setWidth 2).toNat = rw.toNat := BitVec.toNat_setWidth_of_le (by decide)
    exact ⟨rfl, hrw, rfl, ofInt_toNat_cast v⟩
  · rintro ⟨rw, reg, d, rfl⟩
    exact encFrame_reservedBits rw reg d
  · exact ⟨_, _, _, encFrame_of_ok hok (lowNibble_of_reservedBits h)⟩

/-- Settles O5: an error adds its own syndrome to the frame's 0; one bit's is not 0, and two bits at one place of a nibble cancel. -/
theorem checksumDetectsSingleBitErrors : Obligations.ChecksumDetectsSingleBitErrors := by
  refine ⟨fun f i hok => ?_, fun b0 b1 b2 b3 => ⟨csum_swap_b1_b2 b0 b1 b2 b3, csum_swap_b2_b3 b0 b1 b2 b3⟩,
    fun f i j hij _ hok => ?_⟩
  · rw [← Bool.not_eq_true, ok_ofWord_iff, syndrome_xor, syndrome_toWord_of_ok hok, BitVec.zero_xor]
    exact syndrome_bit_ne_zero i
  · rw [ok_ofWord_iff, syndrome_xor, syndrome_xor, syndrome_toWord_of_ok hok, BitVec.zero_xor, syndrome_bit, syndrome_bit, hij,
      BitVec.xor_self]

end Sys2Proof

namespace Sys2Proof.Machine

/-! ## The codec ports -/

/-- R130: CSUM's operands go to the decoder port. -/
theorem exec_csum (b0 b1 b2 b3 : Byte) (s : State) : exec (.csum b0 b1 b2 b3) s = .next (driveDecoder ⟨b0, b1, b2, b3⟩ s) := rfl

/-- R132: DEC's operands go to the decoder port. -/
theorem exec_dec (b0 b1 b2 b3 : Byte) (s : State) : exec (.dec b0 b1 b2 b3) s = .next (driveDecoder ⟨b0, b1, b2, b3⟩ s) := rfl

/-- R131: on the domain ENC's operands go to the encoder port, the integer folded. -/
theorem exec_enc_of_domain (rw : BitVec 1) (reg : Byte) {v : Int} (s : State) (h1 : -65536 ≤ v) (h2 : v ≤ 65535) :
    exec (.enc rw reg v) s = .next (driveEncoder rw reg (BitVec.ofInt 16 v) s) := by
  rw [exec, execEnc, foldData_of_domain h1 h2]

/-- R96: outside the domain ENC is refused. -/
theorem exec_enc_of_outside (rw : BitVec 1) (reg : Byte) {v : Int} (s : State) (h : v < -65536 ∨ 65535 < v) :
    exec (.enc rw reg v) s = .refused .dataOutsideDomain := by
  rw [exec, execEnc, foldData_of_outside h]

@[simp] theorem driveDecoder_decCsum (f : Frame) (s : State) : (driveDecoder f s).decCsum = f.csum := rfl
@[simp] theorem driveDecoder_decoded (f : Frame) (s : State) : (driveDecoder f s).decoded = decFrame f := rfl
@[simp] theorem driveEncoder_encFrame (rw : BitVec 1) (reg : Byte) (d : Half) (s : State) :
    (driveEncoder rw reg d s).encFrame = Sys2Proof.encFrame rw reg d := rfl

/-! ## The statements on the ports -/

/-- Settles O1: the port shows the formula, and the formula is the seven nibbles'. -/
theorem csumIsXorOfSevenNibbles : Obligations.CsumIsXorOfSevenNibbles := by
  refine ⟨fun b0 b1 b2 b3 s => ⟨exec_csum b0 b1 b2 b3 s, ?_, rfl⟩, ?_, ?_, ?_⟩
  · exact csum_eq_xor_nibbles b0 b1 b2 b3
  all_goals decide

/-- Settles O2: each field of the packed frame is one of the operands or the checksum, and the operand is the fold. -/
theorem encPacksRequestFrame : Obligations.EncPacksRequestFrame := by
  refine ⟨fun rw reg v s h1 h2 => ⟨_, exec_enc_of_domain rw reg s h1 h2, rfl, ?_⟩,
    fun rw reg v s => exec_enc_of_outside rw reg s, fun _ _ _ _ _ _ => encFrame_injective, ?_, ?_, ?_, ?_, ?_, ?_⟩
  · rw [driveEncoder_encFrame]
    refine ⟨rfl, ?_, ?_, encFrame_topNibble .., encFrame_reservedBits .., encFrame_rwBit ..⟩
    · rw [← ofInt_toNat_cast]
      exact_mod_cast dataHi_toNat _
    · rw [← ofInt_toNat_cast]
      exact_mod_cast dataLo_toNat _
  all_goals decide

/-- Settles O3: the port shows DEC of the frame, which is raw but for the status of a bad frame. -/
theorem decValidatesAndUnpacks : Obligations.DecValidatesAndUnpacks := by
  refine ⟨fun b0 b1 b2 b3 s => ⟨_, exec_dec b0 b1 b2 b3 s, rfl, ?_⟩, ?_, ?_, ?_, ?_⟩
  · rw [driveDecoder_decoded]
    refine ⟨Frame.ok_iff _, rfl, data_toNat _, fun hok => ?_, decFrame_status_of_bad⟩
    rw [decFrame_of_ok hok]
    exact statusBits_eq_and _
  all_goals decide

end Sys2Proof.Machine
end

section
/-! SUPPORT. What the acceptance of a command writes and what it leaves unchanged, and the statements of 41_byte_primitives.md
on acceptance. -/

namespace Sys2Proof.Machine

variable {s t : State} {f : Frame}

/-! ## AEA-entry and the continuation -/

/-- What AEA-entry does (R220): overflow, an empty payload, or the first continuation read. -/
theorem aeaEntry_cases (n : Half) (s : State) :
    (s.cfg.aeaMax < n.toNat ∧ aeaEntry n s = complete .extendedAddressOverflow { s with kind := 1#1, aeaLen := 0#7 }) ∨
    (n = 0#16 ∧ n.toNat ≤ s.cfg.aeaMax ∧ aeaEntry n s = complete .noError { s with kind := 1#1, aeaLen := 0#7 }) ∨
    (n ≠ 0#16 ∧ n.toNat ≤ s.cfg.aeaMax ∧ aeaEntry n s = sendf (continuationFrame s.cfg)
      { s with kind := 1#1, aeaLen := 0#7, rem := n.setWidth 7, ctx := .aea }) := by
  simp only [aeaEntry]
  split
  · next h => exact .inl ⟨h, rfl⟩
  · next h =>
    split
    · next h0 => exact .inr (.inl ⟨h0, Nat.not_lt.1 h, rfl⟩)
    · next h0 => exact .inr (.inr ⟨h0, Nat.not_lt.1 h, rfl⟩)

/-- AEA-entry writes `kind`, `aea_len`, and what a completion or the start of a frame writes. -/
theorem aeaEntry_eq (n : Half) (s : State) : ∃ e p d r c b i, aeaEntry n s =
    { s with kind := 1#1, aeaLen := 0#7, err := e, phase := p, done := d, rem := r, ctx := c, txbuf := b, txi := i } := by
  rcases aeaEntry_cases n s with ⟨-, h⟩ | ⟨-, -, h⟩ | ⟨-, -, h⟩ <;> exact ⟨_, _, _, _, _, _, _, h⟩

@[simp] theorem aeaEntry_op (n : Half) (s : State) : (aeaEntry n s).op = s.op := by
  obtain ⟨e, p, d, r, c, b, i, h⟩ := aeaEntry_eq n s; rw [h]
@[simp] theorem aeaEntry_data (n : Half) (s : State) : (aeaEntry n s).data = s.data := by
  obtain ⟨e, p, d, r, c, b, i, h⟩ := aeaEntry_eq n s; rw [h]
@[simp] theorem aeaEntry_aeaBuf (n : Half) (s : State) : (aeaEntry n s).aeaBuf = s.aeaBuf := by
  obtain ⟨e, p, d, r, c, b, i, h⟩ := aeaEntry_eq n s; rw [h]
@[simp] theorem aeaEntry_rxbuf (n : Half) (s : State) : (aeaEntry n s).rxbuf = s.rxbuf := by
  obtain ⟨e, p, d, r, c, b, i, h⟩ := aeaEntry_eq n s; rw [h]
@[simp] theorem aeaEntry_rxlog (n : Half) (s : State) : (aeaEntry n s).rxlog = s.rxlog := by
  obtain ⟨e, p, d, r, c, b, i, h⟩ := aeaEntry_eq n s; rw [h]
@[simp] theorem aeaEntry_iter (n : Half) (s : State) : (aeaEntry n s).iter = s.iter := by
  obtain ⟨e, p, d, r, c, b, i, h⟩ := aeaEntry_eq n s; rw [h]

/-- AEA-entry sends a frame for a count from 1 to AEA_MAX, and completes for every other. -/
theorem aeaEntry_phase (n : Half) (s : State) :
    (aeaEntry n s).phase = if 1 ≤ n.toNat ∧ n.toNat ≤ s.cfg.aeaMax then .send else .idle := by
  rcases aeaEntry_cases n s with ⟨h, e⟩ | ⟨rfl, -, e⟩ | ⟨h0, h, e⟩
  · simp [e, Nat.not_le.2 h]
  · simp [e]
  · have h1 : 1 ≤ n.toNat := Nat.pos_of_ne_zero fun hz => h0 (BitVec.eq_of_toNat_eq hz)
    simp [e, h, h1]

/-- The continuation goes on while bytes remain (R221). -/
theorem aeaContinue_sends_iff : (aeaContinue s).phase = .send ↔ s.rem ≠ 0#7 := by
  unfold aeaContinue; split <;> simp_all

@[simp] theorem aeaContinue_rxbuf (s : State) : (aeaContinue s).rxbuf = s.rxbuf := by
  unfold aeaContinue; split <;> rfl

/-- The payload of a continuation frame goes to the AEA buffer, then the continuation runs on what remains (R221). -/
theorem aeaPayload_eq_continue (h : aeaPayload f s = .next t) : ∃ buf len, t = aeaContinue
    { s with aeaBuf := buf, aeaLen := len, rem := if 2 ≤ s.rem.toNat then s.rem - 2#7 else 0#7 } := by
  unfold aeaPayload at h
  obtain ⟨u, hu, h⟩ := andThen_eq_next.1 h
  obtain ⟨-, rfl⟩ := aeaAppend_eq_next.1 hu
  split at h
  · next h2 =>
    obtain ⟨v, hv, h⟩ := andThen_eq_next.1 h
    obtain ⟨-, rfl⟩ := aeaAppend_eq_next.1 hv
    obtain ⟨⟩ := h
    rw [if_pos h2]
    exact ⟨_, _, rfl⟩
  · next h2 =>
    obtain ⟨⟩ := h
    rw [if_neg h2]
    exact ⟨_, _, rfl⟩

/-! ## What the acceptance of a command leaves unchanged -/

/-- No command writes the AEA buffer, `rxbuf` or the log of received bytes. -/
theorem Accepted.keeps (h : Accepted s t) : t.aeaBuf = s.aeaBuf ∧ t.rxbuf = s.rxbuf ∧ t.rxlog = s.rxlog := by
  cases h with
  | aea => exact ⟨aeaEntry_aeaBuf _ _, aeaEntry_rxbuf _ _, aeaEntry_rxlog _ _⟩
  | transaction | poll | flush | txb | rxb | ill => exact ⟨rfl, rfl, rfl⟩

/-- FLUSH alone writes the FIFO and its overflow flag (R165). -/
theorem Accepted.fifo (h : Accepted s t) : t.op = 0x5#4 ∨ (t.rxfifo = s.rxfifo ∧ t.rxOvf = s.rxOvf) := by
  cases h with
  | flush => exact .inl rfl
  | aea => exact .inr ⟨(aeaEntry_handled _ _).rxfifo, (aeaEntry_handled _ _).rxOvf⟩
  | transaction | poll | txb | rxb | ill => exact .inr ⟨rfl, rfl⟩

/-- AEA alone writes result registers other than `err` (R222). -/
theorem Accepted.results (h : Accepted s t) : t.op = 0x3#4 ∨
    (t.value = s.value ∧ t.kind = s.kind ∧ t.status = s.status ∧ t.rspReg = s.rspReg ∧ t.aeaLen = s.aeaLen ∧
      t.rem = s.rem) := by
  cases h with
  | aea => exact .inl (aeaEntry_op _ _)
  | transaction | poll | flush | txb | rxb | ill => exact .inr ⟨rfl, rfl, rfl, rfl, rfl, rfl⟩

/-- POLL alone writes the poll counter (R225). -/
theorem Accepted.iter (h : Accepted s t) : t.op = 0x4#4 ∨ t.iter = s.iter := by
  cases h with
  | poll => exact .inl rfl
  | aea => exact .inr (aeaEntry_iter _ _)
  | transaction | flush | txb | rxb | ill => exact .inr rfl

/-- RXB alone writes the timer (R164). -/
theorem Accepted.timer (h : Accepted s t) : t.op = 0x7#4 ∨ t.timer = s.timer := by
  cases h with
  | rxb => exact .inl rfl
  | aea => exact .inr (aeaEntry_handled _ _).timer
  | transaction | poll | flush | txb | ill => exact .inr rfl

/-- A command that completes at its acceptance starts no frame. -/
theorem Accepted.noFrame (h : Accepted s t) (hi : t.phase = .idle) :
    t.txbuf = s.txbuf ∧ t.txi = s.txi ∧ t.ctx = s.ctx := by
  cases h with
  | aea rw reg n =>
    rcases aeaEntry_cases n _ with ⟨-, e⟩ | ⟨-, -, e⟩ | ⟨-, -, e⟩ <;> rw [e] at hi ⊢
    · exact ⟨rfl, rfl, rfl⟩
    · exact ⟨rfl, rfl, rfl⟩
    · cases hi
  | flush | ill => exact ⟨rfl, rfl, rfl⟩
  | transaction | poll | txb | rxb => cases hi

/-- At acceptance the latch is loaded with the fields of the word (R98, R168). -/
theorem exec_latches {w : Word} (hr : s.cmdReady = true) (h : exec (decodeCommand w) s = .next t) :
    t.op = cmdOp w ∧ t.data = cmdData w := by
  suffices ∃ g : State → State, exec (decodeCommand w) s = whenReady g s ∧ (g s).op = cmdOp w ∧ (g s).data = cmdData w by
    obtain ⟨g, hg, hl⟩ := this
    rw [hg, whenReady_of_ready hr] at h
    obtain ⟨⟩ := h
    exact hl
  rcases opcode_cases (cmdOp w) with h | h | h | h | h | h | h | h | h
  · rw [decodeCommand_xrd h, h]; exact ⟨_, by rw [exec, execXrd], rfl, rfl⟩
  · rw [decodeCommand_xwr h, h]; exact ⟨_, by rw [exec, execXwr], rfl, rfl⟩
  · rw [decodeCommand_snd h, h]; exact ⟨_, by rw [exec, execSnd], rfl, rfl⟩
  · rw [decodeCommand_aea h, h]
    exact ⟨_, by rw [exec, execAea], aeaEntry_op _ _, aeaEntry_data _ _⟩
  · rw [decodeCommand_poll h, h]; exact ⟨_, by rw [exec, execPoll], rfl, rfl⟩
  · rw [decodeCommand_flush h, h]; exact ⟨_, by rw [exec, execFlush], rfl, rfl⟩
  · rw [decodeCommand_txb h, h]; exact ⟨_, by rw [exec, execTxb], rfl, dataHi_append_dataLo _⟩
  · rw [decodeCommand_rxb h, h]; exact ⟨_, by rw [exec, execRxb], rfl, rfl⟩
  · have hsub : ∀ op : BitVec 4, op.extractLsb' 3 1 = 1#1 → 1#1 ++ op.extractLsb' 0 3 = op := by decide
    rw [decodeCommand_ill h]; exact ⟨_, by rw [exec, execIll], hsub _ h, rfl⟩

/-- Every command instruction is the decoding of its word. -/
theorem exists_decodeCommand {i : Instr} (hi : i.space = .command) : ∃ w, i = decodeCommand w := by
  cases i with
  | xrd | xwr | snd | aea | poll | flush | txb | rxb | ill => exact ⟨_, (decodeCommand_of_encode rfl rfl).symm⟩
  | rdf | wrf | rspOk | rspXe | rspAea | rspCp | csum | enc | dec => cases hi

/-- Settles O35: the opcode in the latch names the one command that writes a register family; a busy port takes nothing. -/
theorem commandFrame : Obligations.CommandFrame := by
  intro i s t hi h
  by_cases hr : s.cmdReady = true
  · obtain ⟨hcfg, hpins, hin, hhost⟩ := exec_sameEnv (by simp [hi]) h
    have ha := exec_command_of_ready hi hr h
    obtain ⟨w, rfl⟩ := exists_decodeCommand hi
    obtain ⟨hop, -⟩ := exec_latches hr h
    obtain ⟨hbuf, hrx, hrl⟩ := ha.keeps
    refine ⟨fun a => congrArg (Memory.read · a) hbuf, hrx, ha.txlog, hrl, hcfg, hpins, hin, hhost, ?_, ?_, ?_, ?_,
      fun hp => ?_, ha.noFrame⟩
    · exact ha.fifo.imp_left fun ho => ⟨_, _, _, decodeCommand_flush (hop.symm.trans ho)⟩
    · exact ha.results.imp_left fun ho => ⟨_, _, _, decodeCommand_aea (hop.symm.trans ho)⟩
    · exact ha.iter.imp_left fun ho => ⟨_, _, _, decodeCommand_poll (hop.symm.trans ho)⟩
    · exact ha.timer.imp_left fun ho => ⟨_, _, _, decodeCommand_rxb (hop.symm.trans ho)⟩
    · rcases ha.toEnding with ⟨hidle, -⟩ | ⟨-, hd, he⟩
      · exact absurd hidle hp
      · exact ⟨he, hd⟩
  · rw [exec_command_of_busy hi (by simpa using hr)] at h
    obtain ⟨⟩ := h
    exact ⟨fun _ => rfl, rfl, rfl, rfl, rfl, rfl, rfl, rfl, .inr ⟨rfl, rfl⟩, .inr ⟨rfl, rfl, rfl, rfl, rfl, rfl⟩, .inr rfl,
      .inr rfl, fun _ => ⟨rfl, rfl⟩, fun _ => ⟨rfl, rfl, rfl⟩⟩

/-! ## The commands XRD, XWR, SND, FLUSH -/

/-- Settles O14: with `cmd_ready = 1` the latch is loaded and SENDF starts on the request frame. -/
theorem transactionsAccepted : Obligations.TransactionsAccepted :=
  fun _ _ _ _ hr => ⟨if_pos hr, if_pos hr, if_pos hr⟩

/-- FLUSH at `cmd_ready = 1` (R165). -/
theorem exec_flush_of_ready (rw : BitVec 1) (reg : Byte) (data : Half) (hr : s.cmdReady = true) :
    exec (.flush rw reg data) s =
      .next (complete .noError { latch 0x5#4 rw reg data s with rxfifo := [], rxOvf := false }) :=
  if_pos hr

/-- `cmd_ready = 1` means IDLE with `rst` low (R23). -/
theorem cmdReady_iff : s.cmdReady = true ↔ s.phase = .idle ∧ s.pins.rst = false := by
  simp [State.cmdReady]

/-- Settles O16: on the accepting edge the byte stands before the command, which then empties the FIFO. -/
theorem flushDiscardsPendingInput : Obligations.FlushDiscardsPendingInput := by
  refine ⟨fun s rw reg data hr => exec_flush_of_ready rw reg data hr, fun s hr hv hop => ?_⟩
  obtain ⟨hi, hrst⟩ := cmdReady_iff.1 hr
  have hu := edge_idle hrst hi
  rw [if_pos hv, decodeCommand_flush hop, exec_flush_of_ready _ _ _ (cmdReady_iff.2 (by simp [hi, hrst]))] at hu
  exact ⟨_, step_eq_next.2 ⟨_, hu, rfl⟩, rfl, rfl, rfl, by simp⟩

end Sys2Proof.Machine
end

section
/-! SUPPORT. The bytes that go out and come in (41_byte_primitives.md R160 to R164): one equation per agent step in the phase that
enables it, and the engine's step of an edge. -/

namespace Sys2Proof.Machine

variable {s t : State} {a : AgentStep} {f : Frame} {st : BitVec 2}

/-! ## The bytes that go out -/

/-- TXACK in a phase that offers a byte (R160, R163). -/
theorem perform_txAck (h : s.phase = .send ∨ s.phase = .bsend) : perform .txAck s = .next (txAck s) := by
  simp [perform, enabled, h]

/-- TXACK before byte3 (R160). -/
theorem perform_txAck_before_last (hp : s.phase = .send) (hx : s.txi ≠ 3#2) :
    perform .txAck s = .next { s with txlog := s.txlog ++ [s.txbuf.byte s.txi], txi := s.txi + 1#2 } := by
  simp [perform_txAck, txAck, hp, hx]

/-- TXACK of byte3 starts the response timer (R160). -/
theorem perform_txAck_last (hp : s.phase = .send) (hx : s.txi = 3#2) :
    perform .txAck s = .next { s with txlog := s.txlog ++ [s.txbuf.b3], timer := 0, phase := .wait } := by
  simp [perform_txAck, txAck, hp, hx, Frame.byte]

/-- TXACK of the byte of a TXB completes it (R163). -/
theorem perform_txAck_of_bsend (hp : s.phase = .bsend) :
    perform .txAck s = .next (complete .noError { s with txlog := s.txlog ++ [s.txbuf.b0] }) := by
  simp [perform_txAck, txAck, hp]

/-- Settles O17: TXB goes from its acceptance to BSEND, and TXACK completes it. -/
theorem rawByteWrite : Obligations.RawByteWrite :=
  ⟨fun _ _ _ _ _ hr => if_pos hr, fun _ hp => perform_txAck_of_bsend hp⟩

/-- Settles O24: the offered byte is `txbuf[txi]`, and TXACK moves `txi` from byte0 to byte3. -/
theorem sendFrameByteByByte : Obligations.SendFrameByteByByte := by
  refine ⟨fun _ _ => rfl, fun s hp => ⟨?_, ?_, ?_, perform_txAck_before_last hp, perform_txAck_last hp⟩, fun s hp hx => ?_⟩
  · simp [State.txData, hp]
  · simp [State.txValid, hp]
  · simp [enabled, hp]
  · simp [performAll, perform_txAck_before_last, perform_txAck_last, hp, hx, Frame.byte]

/-! ## The bytes that come in -/

/-- The steps that the tick and the byte of a clock put on an edge are TICK and RX. -/
theorem not_mem_inputSteps (p : Pins) (ht : a ≠ .tick) (hx : ∀ b, a ≠ .rx b) : a ∉ tickSteps p ∧ a ∉ rxSteps p := by
  constructor
  · unfold tickSteps; split <;> simp [ht]
  · unfold rxSteps; split <;> simp [hx]

/-- The engine step of an edge in WAIT (R161). -/
theorem mem_edgeSteps_wait (hp : s.phase = .wait) (hr : s.pins.rst = false) (ht : a ≠ .tick) (hx : ∀ b, a ≠ .rx b) :
    a ∈ edgeSteps s ↔ a ∈ waitSteps s := by
  simp [edgeSteps, hr, hp, not_mem_inputSteps s.pins ht hx]

/-- The engine step of an edge in BWAIT (R164). -/
theorem mem_edgeSteps_bwait (hp : s.phase = .bwait) (hr : s.pins.rst = false) (ht : a ≠ .tick) (hx : ∀ b, a ≠ .rx b) :
    a ∈ edgeSteps s ↔ a ∈ byteWaitSteps s := by
  simp [edgeSteps, hr, hp, not_mem_inputSteps s.pins ht hx]

/-- BGOT in BWAIT with a byte there (R164). -/
theorem perform_bgot {b : Byte} {rest : List Byte} (hp : s.phase = .bwait) (hf : s.rxfifo = b :: rest) :
    perform .bgot s = .next (complete .noError { s with rxfifo := rest, value := 0x00#8 ++ b }) := by
  simp [perform, enabled, hp, State.rxCount, hf, byteGot]

/-- BTIMEOUT in BWAIT at the inter-byte timeout with no byte there (R164). -/
theorem perform_btimeout (hp : s.phase = .bwait) (h0 : s.rxCount = 0) (ht : s.cfg.tIb ≤ s.timer) :
    perform .btimeout s = .next (byteTimeout s) := by
  simp [perform, enabled, hp, h0, ht]

/-- Settles O18: the engine's step in BWAIT is chosen by the FIFO first and by the timer second. -/
theorem byteReadWithTimeout : Obligations.ByteReadWithTimeout := by
  refine ⟨fun _ _ _ _ hr => if_pos hr, fun s b rest hp hf => ?_, fun s hp hf ht => ?_, fun s hp hf ht => ?_⟩
  · have h1 : 1 ≤ s.rxCount := by simp [State.rxCount, hf]
    refine ⟨perform_bgot hp hf, ?_, fun hr => ?_⟩
    · simp [enabled, Nat.ne_of_gt h1]
    · simp [mem_edgeSteps_bwait hp hr, byteWaitSteps, h1]
  · have h0 : s.rxCount = 0 := by simp [State.rxCount, hf]
    refine ⟨perform_btimeout hp h0 ht, fun hr => ?_⟩
    · simp [mem_edgeSteps_bwait hp hr, byteWaitSteps, h0, ht]
  · have h0 : s.rxCount = 0 := by simp [State.rxCount, hf]
    have ht := Nat.not_le.2 ht
    refine ⟨?_, ?_, fun hr => ?_⟩
    · simp [enabled, h0]
    · simp [enabled, ht]
    · simp [mem_edgeSteps_bwait hp hr, byteWaitSteps, h0, ht]

/-- GOT in WAIT with four bytes there (R161). -/
theorem perform_got (hp : s.phase = .wait) (h4 : 4 ≤ s.rxCount) : perform .got s = got s := by
  simp [perform, enabled, hp, h4]

/-- TIMEOUT in WAIT at the deadline with fewer than four bytes there (R161). -/
theorem perform_timeout (hp : s.phase = .wait) (h4 : s.rxCount < 4) (ht : s.cfg.tResp ≤ s.timer) :
    perform .timeout s = .next (gotTimeout s) := by
  simp [perform, enabled, hp, h4, ht]

theorem gotMain_rxbuf (f : Frame) (st : BitVec 2) (s : State) : (gotMain f st s).rxbuf = f := by
  simp only [gotMain]
  split
  · exact aeaEntry_rxbuf _ _
  · rfl

theorem gotAea_rxbuf (h : gotAea f st s = .next t) : t.rxbuf = f := by
  simp only [gotAea] at h
  split at h
  · obtain ⟨buf, len, rfl⟩ := aeaPayload_eq_continue h
    exact aeaContinue_rxbuf _
  · obtain ⟨⟩ := h
    rfl

theorem gotPoll_rxbuf (f : Frame) (st : BitVec 2) (s : State) : (gotPoll f st s).rxbuf = f := by
  simp only [gotPoll]
  split
  · rfl
  · split
    · rfl
    · split <;> rfl

theorem drains_of_not_snd (ho : s.op ≠ 0x2#4) : s.drains = false := by simp [State.drains, ho]

/-- A good frame is shown in `rxbuf`, unless the command is a SND (R193, R221, R225). -/
theorem gotGood_rxbuf (ho : s.op ≠ 0x2#4) (h : gotGood f st s = .next t) : t.rxbuf = f := by
  unfold gotGood at h
  rw [drains_of_not_snd ho, if_neg Bool.false_ne_true] at h
  split at h
  · obtain ⟨⟩ := h; exact gotMain_rxbuf f st s
  · exact gotAea_rxbuf h
  · obtain ⟨⟩ := h; exact gotPoll_rxbuf f st s

/-- A bad frame is shown in `rxbuf`, unless the command is a SND (R193, R194). -/
theorem gotBad_rxbuf (f : Frame) (ho : s.op ≠ 0x2#4) : (gotBad f s).rxbuf = f := by
  unfold gotBad
  rw [drains_of_not_snd ho]
  cases s.ctx <;> rfl

/-- The deadline ends every command with NoResponse (R192, R195, R221, R225). -/
theorem gotTimeout_eq_complete (s : State) : ∃ u, gotTimeout s = complete .noResponse u := by
  unfold gotTimeout
  split
  · exact ⟨_, rfl⟩
  · split <;> exact ⟨_, rfl⟩

/-- Settles O25: the engine's step in WAIT is chosen by the FIFO first and by the timer second; GOT pops and then a handler runs,
TIMEOUT is a handler alone. -/
theorem receiveFrameUnderDeadline : Obligations.ReceiveFrameUnderDeadline := by
  refine ⟨fun s hp hr => ?_, fun s t b0 b1 b2 b3 rest hp hf => ?_, fun s hp h4 ht => ?_⟩
  · rw [mem_edgeSteps_wait hp hr (by nofun) (by nofun), mem_edgeSteps_wait hp hr (by nofun) (by nofun), waitSteps]
    by_cases h4 : 4 ≤ s.rxCount
    · simp [h4]
    · by_cases ht : s.cfg.tResp ≤ s.timer
      · simp [h4, ht, Nat.not_le.1 h4]
      · simp [h4, ht]
  · have hf' : s.rxfifo = (⟨b0, b1, b2, b3⟩ : Frame).bytes ++ rest := hf
    have h4 : 4 ≤ s.rxCount := by simp [State.rxCount, hf]
    rw [perform_got hp h4]
    refine ⟨by simp [enabled, Nat.not_lt.2 h4], fun h => (got_handled hp hf' h).rxfifo, fun ho h => ?_⟩
    rw [got_of_frame hp hf'] at h
    split at h
    · exact gotGood_rxbuf (s := { s with rxfifo := rest }) ho h
    · obtain ⟨⟩ := h
      exact gotBad_rxbuf (s := { s with rxfifo := rest }) _ ho
  · obtain ⟨u, hu⟩ := gotTimeout_eq_complete s
    exact ⟨_, perform_timeout hp h4 ht, (gotTimeout_handled s).rxfifo, by rw [hu]; rfl, by rw [hu]; rfl⟩

/-- GOT on a frame that is a response runs that response (R95, R161). -/
theorem got_of_response {rest : List Byte} {i : Instr} (hf : s.rxfifo = f.bytes ++ rest) (hd : decodeResponse f = .ok i) :
    got s = exec i { s with rxfifo := rest } := by
  simp only [got, popFrame_eq_some.2 hf, hd]

/-- In WAIT the tick of a clock counts. -/
theorem ticked_of_wait (p : Pins) (hp : s.phase = .wait) :
    ticked p s = { s with timer := if p.tick then min (s.timer + 1) (timerTop s.cfg) else s.timer } := by
  unfold ticked
  rw [tick_of_waiting (.inl hp)]
  split <;> rfl

theorem andThen_assoc (r : Result) (k k' : State → Result) :
    andThen (andThen r k) k' = andThen r fun s => andThen (k s) k' := by
  cases r <;> rfl

/-- Settles O47: the edge in WAIT is the tick, GOT and the byte. -/
theorem stepRunsDecodedResponse : Obligations.StepRunsDecodedResponse := by
  intro s f rest i hp hr hf hd
  have h4 : 4 ≤ s.rxCount := by simp [State.rxCount, hf, Frame.bytes]
  unfold step
  rw [edge_wait hr hp, if_pos h4, got_of_response (by rwa [ticked_rxfifo]) hd, ticked_of_wait (s := endPulse s) _ hp,
    andThen_assoc]
  rfl

end Sys2Proof.Machine
end

section
/-! SUPPORT. The transition relation of the phase (41_byte_primitives.md R169): when each handler goes on with another frame. -/

namespace Sys2Proof.Machine

variable {s t : State} {f : Frame} {st : BitVec 2}

/-- The phase that a command's acceptance enters, by the opcode and the data in the latch (R168, R169, R220). -/
def acceptedPhase (c : Config) (op : BitVec 4) (n : Half) : Phase :=
  if op = 0x0#4 ∨ op = 0x1#4 ∨ op = 0x2#4 ∨ op = 0x4#4 ∨ (op = 0x3#4 ∧ 1 ≤ n.toNat ∧ n.toNat ≤ c.aeaMax) then .send
  else if op = 0x6#4 then .bsend
  else if op = 0x7#4 then .bwait
  else .idle

/-- An opcode of ILL is none of the rows that make the block busy (R99). -/
theorem opcode_ne_of_top {op : BitVec 4} (h : op.extractLsb' 3 1 = 1#1) : op ≠ 0x0#4 ∧ op ≠ 0x1#4 ∧ op ≠ 0x2#4 ∧
    op ≠ 0x3#4 ∧ op ≠ 0x4#4 ∧ op ≠ 0x6#4 ∧ op ≠ 0x7#4 := by
  revert op; decide

/-- The rows CMD of the table of R169. -/
theorem acceptedPhase_table (c : Config) (op : BitVec 4) (n : Half) :
    (acceptedPhase c op n = .send ↔ op = 0x0#4 ∨ op = 0x1#4 ∨ op = 0x2#4 ∨ op = 0x4#4 ∨
      (op = 0x3#4 ∧ 1 ≤ n.toNat ∧ n.toNat ≤ c.aeaMax)) ∧
    (acceptedPhase c op n = .bsend ↔ op = 0x6#4) ∧ (acceptedPhase c op n = .bwait ↔ op = 0x7#4) ∧
    acceptedPhase c op n ≠ .wait := by
  rcases opcode_cases op with rfl | rfl | rfl | rfl | rfl | rfl | rfl | rfl | h
  · simp [acceptedPhase]
  · simp [acceptedPhase]
  · simp [acceptedPhase]
  · by_cases hn : 1 ≤ n.toNat ∧ n.toNat ≤ c.aeaMax
    · simp [acceptedPhase, hn]
    · simp [acceptedPhase, hn]
  · simp [acceptedPhase]
  · simp [acceptedPhase]
  · simp [acceptedPhase]
  · simp [acceptedPhase]
  · simp [acceptedPhase, opcode_ne_of_top h]

/-- The phase is entered by the kind of the command alone, and for AEA by its count. -/
theorem Accepted.phase (h : Accepted s t) : t.phase = acceptedPhase s.cfg t.op t.data := by
  cases h with
  | transaction reg d ho => rcases ho with ⟨rfl, -⟩ | ⟨rfl, -⟩ | rfl <;> rfl
  | aea rw reg n => simp [aeaEntry_phase, acceptedPhase]
  | poll | flush | txb | rxb => rfl
  | ill sub rw reg d =>
    have htop : (1#1 ++ sub : BitVec 4).extractLsb' 3 1 = 1#1 := BitVec.extractLsb'_append_eq_left
    simp [acceptedPhase, opcode_ne_of_top htop]

/-- The phase after a command word is accepted. -/
theorem exec_command_phase {w : Word} (hr : s.cmdReady = true) (h : exec (decodeCommand w) s = .next t) :
    t.phase = acceptedPhase s.cfg (cmdOp w) (cmdData w) := by
  obtain ⟨hop, hdata⟩ := exec_latches hr h
  rw [← hop, ← hdata]
  exact (exec_command_of_ready (decodeCommand_space w) hr h).phase

/-- The Got-handler MAIN goes on for status 2 on a read with a count from 1 to AEA_MAX (R193, R220). -/
theorem gotMain_sends_iff : (gotMain f st s).phase = .send ↔
    st = 2#2 ∧ s.rw = 0#1 ∧ 1 ≤ f.data.toNat ∧ f.data.toNat ≤ s.cfg.aeaMax := by
  by_cases h : st = 2#2 ∧ s.rw = 0#1
  · simp [gotMain, h, aeaEntry_phase]
  · rw [gotMain_reported h]
    simpa using fun h1 h2 => absurd ⟨h1, h2⟩ h

/-- Bytes remain after a continuation frame when more than two were left before it (R221). -/
theorem remAfter_ne_zero_iff {r : BitVec 7} :
    (if 2 ≤ r.toNat then r - 2#7 else 0#7) ≠ 0#7 ↔ 2 < r.toNat := by
  rw [ne_eq, ← BitVec.toNat_inj]
  split
  · next h2 =>
    have hr : (r - 2#7).toNat = r.toNat - 2 := BitVec.toNat_sub_of_le h2
    rw [hr, BitVec.toNat_zero]
    omega
  · next h2 =>
    rw [BitVec.toNat_zero]
    omega

/-- The extended-address loop goes on after a successful frame while more than two bytes were left (R221). -/
theorem gotAea_sends_iff (h : gotAea f st s = .next t) : t.phase = .send ↔ st = 0#2 ∧ 2 < s.rem.toNat := by
  simp only [gotAea] at h
  split at h
  · next h0 =>
    obtain ⟨buf, len, rfl⟩ := aeaPayload_eq_continue h
    exact aeaContinue_sends_iff.trans (remAfter_ne_zero_iff.trans (by simp [h0]))
  · next h0 =>
    obtain ⟨⟩ := h
    simp [h0]

/-- A poll goes on after a busy reply below POLL_MAX (R225). -/
theorem gotPoll_sends_iff : (gotPoll f st s).phase = .send ↔ st = 0#2 ∧ f.b2 ≠ 0#8 ∧ s.iter + 1 < s.cfg.pollMax := by
  simp only [gotPoll]
  split
  · next h => simp [h]
  · next h =>
    have h : st = 0#2 := not_not.1 h
    split
    · next hb => simp [hb]
    · next hb =>
      split
      · next hm => simp [Nat.not_lt.2 hm]
      · next hm => simp [h, hb, Nat.not_le.1 hm]

/-- A good frame is followed by another frame as the handler of the command in flight says (R169). -/
theorem gotGood_sends_iff (h : gotGood f st s = .next t) : t.phase = .send ↔
    (s.ctx = .main ∧ s.op ≠ 0x2#4 ∧ st = 2#2 ∧ s.rw = 0#1 ∧ 1 ≤ f.data.toNat ∧ f.data.toNat ≤ s.cfg.aeaMax) ∨
    (s.ctx = .aea ∧ st = 0#2 ∧ 2 < s.rem.toNat) ∨
    (s.ctx = .poll ∧ st = 0#2 ∧ f.b2 ≠ 0#8 ∧ s.iter + 1 < s.cfg.pollMax) := by
  unfold gotGood at h
  split at h
  · next hd =>
    obtain ⟨hc, ho⟩ : s.ctx = .main ∧ s.op = 0x2#4 := by simpa [State.drains] using hd
    obtain ⟨⟩ := h
    simp [gotDrained, hc, ho]
  · next hd =>
    split at h
    · next hc =>
      obtain ⟨⟩ := h
      have ho : s.op ≠ 0x2#4 := fun ho => hd (by simp [State.drains, hc, ho])
      simp [gotMain_sends_iff, hc, ho]
    · next hc => simp [gotAea_sends_iff h, hc]
    · next hc =>
      obtain ⟨⟩ := h
      simp [gotPoll_sends_iff, hc]

/-- A bad frame ends every command (R193, R194, R221, R225). -/
theorem gotBad_phase (f : Frame) (s : State) : (gotBad f s).phase = .idle := by
  unfold gotBad
  split
  · rfl
  · split <;> rfl

/-- The row GOT of the table of R169. -/
theorem got_sends_iff {rest : List Byte} (hp : s.phase = .wait) (hf : s.rxfifo = f.bytes ++ rest) (h : got s = .next t) :
    t.phase = .send ↔ f.ok = true ∧
      ((s.ctx = .main ∧ s.op ≠ 0x2#4 ∧ f.statusBits = 2#2 ∧ s.rw = 0#1 ∧ 1 ≤ f.data.toNat ∧
          f.data.toNat ≤ s.cfg.aeaMax) ∨
       (s.ctx = .aea ∧ f.statusBits = 0#2 ∧ 2 < s.rem.toNat) ∨
       (s.ctx = .poll ∧ f.statusBits = 0#2 ∧ f.b2 ≠ 0#8 ∧ s.iter + 1 < s.cfg.pollMax)) := by
  rw [got_of_frame hp hf] at h
  split at h
  · next hok => simpa [hok] using gotGood_sends_iff h
  · next hok =>
    obtain ⟨⟩ := h
    simp [gotBad_phase, hok]

/-- The rows TXACK of the table of R169. -/
theorem txAck_phase (h : s.phase = .send ∨ s.phase = .bsend) :
    (s.phase = .send ∧ s.txi.toNat < 3 ∧ (txAck s).phase = .send) ∨
    (s.phase = .send ∧ s.txi = 3#2 ∧ (txAck s).phase = .wait) ∨
    (s.phase = .bsend ∧ (txAck s).phase = .idle ∧ (txAck s).done = true) := by
  rcases h with h | h
  · by_cases hx : s.txi = 3#2
    · exact .inr (.inl ⟨h, hx, by simp [txAck, h, hx]⟩)
    · have hlt : ∀ x : BitVec 2, x ≠ 3#2 → x.toNat < 3 := by decide
      exact .inl ⟨h, hlt _ hx, by simp [txAck, h, hx]⟩
  · exact .inr (.inr ⟨h, by simp [txAck, h], by simp [txAck, h]⟩)

/-- Settles O40, row by row of R169: what a step needs is its `enabled`, and the phase after it is its operation's. -/
theorem phaseTransitionRelation : Obligations.PhaseTransitionRelation := by
  refine ⟨fun w s t he h => ?_, fun s t he h => ?_, fun s t f rest hf he h => ?_, fun s t he h => ?_, fun s t he h => ?_,
    fun s t he h => ?_, fun s t he h => ?_, fun b s t h => ?_, fun a s he => ?_⟩
  · obtain ⟨hi, -⟩ := cmdReady_iff.1 he
    replace h : exec (decodeCommand w) s = .next t := (if_pos he).symm.trans h
    have hend := (exec_command_of_ready (decodeCommand_space w) he h).toEnding
    obtain ⟨hsend, hbsend, hbwait, hwait⟩ := acceptedPhase_table s.cfg (cmdOp w) (cmdData w)
    have hp := exec_command_phase he h
    rw [hp]
    refine ⟨hi, hsend, hbsend, hbwait, hwait, fun e => ?_⟩
    rcases hend with ⟨-, hd⟩ | ⟨hne, -⟩
    · exact hd
    · exact absurd (hp.trans e) hne
  · have hp : s.phase = .send ∨ s.phase = .bsend := by simpa [enabled] using he
    rw [perform_txAck hp] at h
    obtain ⟨⟩ := h
    exact txAck_phase hp
  · obtain ⟨hp, h4⟩ : s.phase = .wait ∧ 4 ≤ s.rxCount := by simpa [enabled] using he
    rw [perform_got hp h4] at h
    refine ⟨hp, ?_, got_sends_iff hp hf h⟩
    rcases (got_handled hp hf h).ending with hi | ⟨hs, -⟩
    · exact .inr hi
    · exact .inl hs
  · obtain ⟨⟨hp, h4⟩, ht⟩ : (s.phase = .wait ∧ s.rxCount < 4) ∧ s.cfg.tResp ≤ s.timer := by simpa [enabled] using he
    rw [perform_timeout hp h4 ht] at h
    obtain ⟨⟩ := h
    obtain ⟨u, hu⟩ := gotTimeout_eq_complete s
    rw [hu]
    exact ⟨hp, h4, ht, rfl, rfl, rfl⟩
  · obtain ⟨hp, h1⟩ : s.phase = .bwait ∧ 1 ≤ s.rxCount := by simpa [enabled] using he
    obtain ⟨b, rest, hf⟩ := List.exists_cons_of_length_pos h1
    rw [perform_bgot hp hf] at h
    obtain ⟨⟩ := h
    exact ⟨hp, h1, rfl, rfl⟩
  · obtain ⟨⟨hp, h0⟩, ht⟩ : (s.phase = .bwait ∧ s.rxCount = 0) ∧ s.cfg.tIb ≤ s.timer := by simpa [enabled] using he
    rw [perform_btimeout hp h0 ht] at h
    obtain ⟨⟩ := h
    exact ⟨hp, h0, ht, rfl, rfl, rfl⟩
  · rw [perform, if_pos he] at h
    obtain ⟨⟩ := h
    exact ⟨rfl, rfl⟩
  · rcases h with h | h <;> obtain ⟨⟩ := h
    · obtain ⟨-, -, hp, -⟩ := tick_fields s
      exact hp
    · obtain ⟨-, -, hp, -⟩ := receive_fields b s
      exact hp
  · exact if_neg (by simp [he])

end Sys2Proof.Machine
end

section
/-! SUPPORT. A transaction that nobody answers, followed from its acceptance to the TIMEOUT step (41_byte_primitives.md R161). -/

namespace Sys2Proof.Machine

variable {s : State}

/-- R190, R191: an opcode below 2 starts the transaction whose direction is the low bit of the opcode. -/
theorem exec_transaction {w : Word} (hw : w.extractLsb' 29 3 = 0#3) (hr : s.cmdReady = true) :
    exec (decodeCommand w) s = .next (sendf (encFrame (w.extractLsb' 28 1) (cmdReg w) (cmdData w))
      { latch (cmdOp w) (w.extractLsb' 28 1) (cmdReg w) (cmdData w) s with ctx := .main }) := by
  have hlow : ∀ op : BitVec 4, op.extractLsb' 1 3 = 0#3 → op = 0x0#4 ∨ op = 0x1#4 := by decide
  have hbit : (cmdOp w).extractLsb' 0 1 = w.extractLsb' 28 1 := extractLsb'_extractLsb' w (by decide)
  rcases hlow (cmdOp w) ((cmdOp_high w).trans hw) with h | h
  · rw [decodeCommand_xrd h, ← hbit, h]; exact if_pos hr
  · rw [decodeCommand_xwr h, ← hbit, h]; exact if_pos hr

/-- An opcode below 2 is not SND's. -/
theorem cmdOp_ne_snd {w : Word} (hw : w.extractLsb' 29 3 = 0#3) : cmdOp w ≠ 0x2#4 := fun h => by
  rw [← cmdOp_high, h] at hw
  cases hw

/-- The block after the request frame of the transaction `w` went out and `n` ticks were counted, in a clock with pins `p` and
the inputs `l` to come; every other register is as the command found it. -/
def awaiting (w : Word) (n : Nat) (p : Pins) (l : List Pins) (s : State) : State :=
  { s with
    op := cmdOp w, rw := w.extractLsb' 28 1, reg := cmdReg w, data := cmdData w, ctx := .main
    txbuf := encFrame (w.extractLsb' 28 1) (cmdReg w) (cmdData w), txi := 3#2, phase := .wait, timer := n, done := false
    txlog := s.txlog ++ (encFrame (w.extractLsb' 28 1) (cmdReg w) (cmdData w)).bytes, pins := p, inputs := l }

/-- A transaction is accepted and its request frame goes out, one byte a clock. -/
theorem run_request {w : Word} {later : List Pins} (hi : s.phase = .idle) (hr : s.host.stage = .ready)
    (hp : s.pins = Pins.command w) (hin : s.inputs = txScript ++ later) (hw : w.extractLsb' 29 3 = 0#3) :
    core.run 5 s = .next (awaiting w 0 (hostDrive s.host (later.headD Pins.quiet)) later.tail s) := by
  have hc : (endPulse s).cmdReady = true := cmdReady_iff.2 ⟨hi, by rw [endPulse_pins, hp]; rfl⟩
  refine (run_succ (step_command hr hp hi (exec_transaction hw hc))).trans (run_send (later := later) ?_ ?_ ?_ ?_ ?_)
  · exact hr
  · exact (congrArg (fun l => hostDrive s.host (l.headD Pins.quiet)) hin).trans (hostDrive_of_noCommand hr rfl)
  · rfl
  · rfl
  · exact congrArg List.tail hin

/-- Silence after the request: the last tick brings the deadline, and the block still waits. -/
theorem run_silence {w : Word} {later : List Pins} (hi : s.phase = .idle) (h4 : s.rxCount < 4) (hr : s.host.stage = .ready)
    (hp : s.pins = Pins.command w) (hin : s.inputs = silenceScript s.cfg ++ later) (hw : w.extractLsb' 29 3 = 0#3) :
    core.run (5 + s.cfg.tResp) s = .next (awaiting w s.cfg.tResp Pins.quiet later s) := by
  have hin' : s.inputs = txScript ++ (List.replicate s.cfg.tResp Pins.ticking ++ Pins.quiet :: later) := by
    simp [hin, silenceScript]
  have hq : hostDrive s.host Pins.quiet = Pins.quiet := hostDrive_of_noCommand hr rfl
  refine (run_add 5 s.cfg.tResp (run_request hi hr hp hin' hw)).trans ?_
  refine (run_ticks (later := Pins.quiet :: later) s.cfg.tResp ?_ ?_ ?_ ?_ ?_ ?_ ?_).trans
    (congrArg (fun p => (.next (awaiting w s.cfg.tResp p later s) : Result)) hq)
  · exact hr
  · rfl
  · exact h4
  · rfl
  · rfl
  · rfl
  · exact Nat.zero_add _

/-- The Timeout-handler MAIN of XRD and XWR (R195). -/
theorem gotTimeout_main (hc : s.ctx = .main) (ho : s.op ≠ 0x2#4) : gotTimeout s = complete .noResponse
    { s with rxbuf := Frame.allOnes, value := 0xFFFF#16, rspReg := 0xFF#8, status := 0#2, kind := 0#1 } := by
  simp [gotTimeout, State.drains, hc, ho]

/-- Settles O52: the clock after the silence is the TIMEOUT step of XRD and XWR, which leaves the FIFO alone. -/
theorem silenceEndsInNoResponse : Obligations.SilenceEndsInNoResponse := by
  intro s w later hi h4 hr hp hin hw _
  have hrun := run_silence hi h4 hr hp hin hw
  have hstep : step (awaiting w s.cfg.tResp Pins.quiet later s) = _ :=
    step_timeout hr rfl rfl h4 (Nat.le_refl _)
  rw [gotTimeout_main rfl (cmdOp_ne_snd hw)] at hstep
  refine ⟨⟨_, hrun, rfl, rfl, rfl⟩, ?_⟩
  rw [show 6 + s.cfg.tResp = 5 + s.cfg.tResp + 1 by omega]
  exact ⟨_, (run_add _ 1 hrun).trans (run_succ hstep), rfl, rfl, rfl, rfl, rfl, rfl, rfl, rfl, rfl, rfl⟩

end Sys2Proof.Machine
end

section
/-! SUPPORT. The transactions XRD, XWR and SND (42_transactions.md): the engine's steps on their replies, and one of them followed
from its acceptance to its completion. -/

namespace Sys2Proof.Machine

variable {s : State} {f : Frame} {rest : List Byte}

/-! ## The engine's steps -/

/-- GOT in WAIT with a frame at the head of the FIFO runs the handler of the popped frame (R161). -/
theorem perform_got_of_frame (hp : s.phase = .wait) (hf : s.rxfifo = f.bytes ++ rest) :
    perform .got s =
      if f.ok then gotGood f f.statusBits { s with rxfifo := rest } else .next (gotBad f { s with rxfifo := rest }) := by
  have h4 : 4 ≤ s.rxCount := by simp [State.rxCount, hf, Frame.bytes]
  rw [perform_got hp h4, got_of_frame hp hf]

/-- A bad frame in MAIN of XRD and XWR (R193, R194). -/
theorem gotBad_main (hc : s.ctx = .main) (ho : s.op ≠ 0x2#4) : gotBad f s = complete .checksumError
    { s with rxbuf := f, rspReg := f.b1, value := f.data, kind := 0#1, status := 0#2 } := by
  simp [gotBad, State.drains, hc, ho]

/-- A good frame in MAIN of XRD and XWR that starts no continuation is reported (R193, R194). -/
theorem gotGood_reported (hc : s.ctx = .main) (ho : s.op ≠ 0x2#4) (h : ¬ (f.statusBits = 2#2 ∧ s.rw = 0#1)) :
    gotGood f f.statusBits s = .next (complete (.ofStatus f.statusBits)
      { s with rxbuf := f, rspReg := f.b1, value := f.data, kind := 0#1, status := f.statusBits }) := by
  rw [gotGood_main hc ho, gotMain_reported h]

/-- A good frame with status 2 in MAIN of a read goes on as AEA-entry of its data word (R193). -/
theorem gotGood_continued (hc : s.ctx = .main) (ho : s.op ≠ 0x2#4) (hw : s.rw = 0#1) :
    gotGood f 2#2 s = .next (aeaEntry f.data
      { s with rxbuf := f, rspReg := f.b1, value := f.data, kind := 0#1, status := 2#2 }) := by
  rw [gotGood_main hc ho]
  exact congrArg Host.Outcome.next (if_pos ⟨rfl, hw⟩)

/-- Settles O26: the checksum picks the handler, and a good frame continues exactly for status 2 on a read. -/
theorem mainGotHandler : Obligations.MainGotHandler := by
  intro s f rest hp hc ho hf
  rw [perform_got_of_frame hp hf]
  refine ⟨fun hb => ?_, fun hok hst => ?_, fun hok hst hw => ?_⟩
  · rw [if_neg (by simp [hb])]
    exact congrArg Host.Outcome.next (gotBad_main (s := { s with rxfifo := rest }) hc ho)
  · rw [if_pos hok]
    exact gotGood_reported (s := { s with rxfifo := rest }) hc ho (not_and_or.2 hst)
  · rw [if_pos hok, hst]
    exact gotGood_continued (s := { s with rxfifo := rest }) hc ho hw

/-- The command in flight is a SND (R192). -/
theorem drains_of_snd (hc : s.ctx = .main) (ho : s.op = 0x2#4) : s.drains = true := by simp [State.drains, hc, ho]

/-- Settles O31: with a SND in flight good and bad frames are thrown away alike. -/
theorem sendOnlyTransaction : Obligations.SendOnlyTransaction := by
  refine ⟨fun s rw reg data hr => if_pos hr, fun s b0 b1 b2 b3 rest hp hc ho hf => ?_, fun s hp hc ho h4 ht => ?_⟩
  · have hd : State.drains { s with rxfifo := rest } = true := drains_of_snd hc ho
    rw [perform_got_of_frame (f := ⟨b0, b1, b2, b3⟩) hp hf, gotGood, if_pos hd, gotBad, if_pos hd, ite_self]
    rfl
  · rw [perform_timeout hp h4 ht, gotTimeout, if_pos (drains_of_snd hc ho)]
    rfl

/-- Settles O32: TIMEOUT runs the Timeout-handler MAIN. -/
theorem mainTimeoutHandler : Obligations.MainTimeoutHandler := by
  intro s hp hc ho h4 ht
  rw [perform_timeout hp h4 ht, gotTimeout_main hc ho]
  rfl

/-! ## A transaction end to end -/

/-- GOT on a waiting block whose FIFO holds just a good frame that starts no continuation (R161, R193). -/
theorem got_reported (hp : s.phase = .wait) (hf : s.rxfifo = f.bytes) (hc : s.ctx = .main) (ho : s.op ≠ 0x2#4)
    (hok : f.ok = true) (hst : f.statusBits ≠ 2#2) : got s = .next (complete (.ofStatus f.statusBits)
      { s with rxfifo := [], rxbuf := f, rspReg := f.b1, value := f.data, kind := 0#1, status := f.statusBits }) := by
  rw [got_of_frame hp (hf.trans (List.append_nil _).symm), if_pos hok]
  exact gotGood_reported (s := { s with rxfifo := [] }) hc ho fun h => hst h.1

/-- Settles O50: the accepting clock starts the request frame, nine clocks carry the exchange, and the Got-handler MAIN reports
the reply. -/
theorem transactionEndToEnd : Obligations.TransactionEndToEnd := by
  intro s w f later hi hf hd ht hr hp hin hw hok hst
  have hc : (endPulse s).cmdReady = true := cmdReady_iff.2 ⟨hi, by rw [endPulse_pins, hp]; rfl⟩
  have hstart := step_command hr hp hi (exec_transaction hw hc)
  have hpins : hostDrive s.host (s.inputs.headD Pins.quiet) = Pins.accept := by
    rw [hin]
    exact hostDrive_of_noCommand hr rfl
  exact ⟨_, (run_succ hstart).trans (run_exchange (f := f) (later := later) hr rfl rfl hf hd ht hpins (congrArg List.tail hin)
    (got_reported rfl rfl rfl (cmdOp_ne_snd hw) hok hst)), rfl, rfl, rfl, rfl, rfl, rfl, rfl, rfl, rfl, rfl, rfl,
    fun _ => rfl, rfl⟩

end Sys2Proof.Machine
end

section
/-! SUPPORT. What the handler of a response leaves unchanged (42_transactions.md R192, R193, 43_extended_and_poll.md R221, R225):
the registers it writes first, and that it then completes the command or sends the next frame. -/

namespace Sys2Proof.Machine

variable {s t u : State} {f : Frame} {st : BitVec 2}

/-! ## How a handler ends -/

/-- `t` comes from `u` by a completion or by the start of a frame. -/
inductive Concludes (u : State) : State → Prop
  | completes (e : ErrorCode) : Concludes u (complete e u)
  | sends (f : Frame) (c : Ctx) : Concludes u (sendf f { u with ctx := c })

/-- The end of a handler writes `err`, the phase, `done`, the transmit frame and `ctx`, and no other register. -/
theorem Concludes.eq (h : Concludes u t) : t =
    { u with err := t.err, phase := t.phase, done := t.done, txbuf := t.txbuf, txi := t.txi, ctx := t.ctx } := by
  cases h <;> rfl

/-- A handler that sends nothing leaves the transmit frame and `ctx` alone. -/
theorem Concludes.noFrame (h : Concludes u t) (hp : t.phase ≠ .send) :
    t.txbuf = u.txbuf ∧ t.txi = u.txi ∧ t.ctx = u.ctx := by
  cases h with
  | completes => exact ⟨rfl, rfl, rfl⟩
  | sends => exact absurd rfl hp

theorem aeaEntry_concludes (n : Half) (s : State) :
    ∃ r, Concludes { s with kind := 1#1, aeaLen := 0#7, rem := r } (aeaEntry n s) := by
  rcases aeaEntry_cases n s with ⟨-, h⟩ | ⟨-, -, h⟩ | ⟨-, -, h⟩ <;> rw [h]
  · exact ⟨s.rem, .completes _⟩
  · exact ⟨s.rem, .completes _⟩
  · exact ⟨_, .sends _ _⟩

theorem gotMain_concludes (f : Frame) (st : BitVec 2) (s : State) : ∃ k l r, Concludes
    { s with rxbuf := f, rspReg := f.b1, value := f.data, kind := k, status := st, aeaLen := l, rem := r }
    (gotMain f st s) := by
  simp only [gotMain]
  split
  · obtain ⟨r, h⟩ := aeaEntry_concludes f.data
      { s with rxbuf := f, rspReg := f.b1, value := f.data, kind := 0#1, status := st }
    exact ⟨_, _, r, h⟩
  · exact ⟨_, s.aeaLen, s.rem, .completes _⟩

theorem aeaContinue_concludes (s : State) : Concludes s (aeaContinue s) := by
  unfold aeaContinue
  split
  · exact .completes _
  · exact .sends _ s.ctx

/-- The bytes of the AEA buffer that a successful continuation frame may write: the one at `aea_len` and, while two or more
remain, the one after it (R221). -/
def State.payloadAt (s : State) (a : Nat) : Prop :=
  a = s.aeaLen.toNat ∨ (2 ≤ s.rem.toNat ∧ a = s.aeaLen.toNat + 1)

/-- An append to the AEA buffer leaves the byte at every other address alone (R221). -/
theorem aeaAppend_read_other {b : Byte} {a : Nat} (h : aeaAppend b s = .next t) (ha : a ≠ s.aeaLen.toNat) :
    t.aeaBuf.read a = s.aeaBuf.read a := by
  obtain ⟨-, rfl⟩ := aeaAppend_eq_next.1 h
  exact Memory.read_write_other _ _ _ _ ha

/-- After an append the next address is the next byte's: the buffer is smaller than the register's range (R41). -/
theorem aeaAppend_aeaLen {b : Byte} (h : aeaAppend b s = .next t) : t.aeaLen.toNat = s.aeaLen.toNat + 1 := by
  obtain ⟨hl, rfl⟩ := aeaAppend_eq_next.1 h
  have hl : s.aeaLen.toNat < 100 := hl
  simp only [BitVec.toNat_add, BitVec.toNat_ofNat]
  omega

theorem aeaPayload_concludes (h : aeaPayload f s = .next t) : ∃ buf len r,
    (∀ a, ¬ s.payloadAt a → buf.read a = s.aeaBuf.read a) ∧
    Concludes { s with aeaBuf := buf, aeaLen := len, rem := r } t := by
  unfold aeaPayload at h
  obtain ⟨u, hu, h⟩ := andThen_eq_next.1 h
  have hread {a : Nat} (ha : a ≠ s.aeaLen.toNat) := aeaAppend_read_other hu ha
  have hlen := aeaAppend_aeaLen hu
  obtain ⟨-, rfl⟩ := aeaAppend_eq_next.1 hu
  split at h
  · next h2 =>
    obtain ⟨v, hv, h⟩ := andThen_eq_next.1 h
    have hread' {a : Nat} (ha : a ≠ s.aeaLen.toNat + 1) := aeaAppend_read_other hv (hlen ▸ ha)
    obtain ⟨-, rfl⟩ := aeaAppend_eq_next.1 hv
    obtain ⟨⟩ := h
    refine ⟨_, _, _, fun a ha => ?_, aeaContinue_concludes _⟩
    obtain ⟨h0, h1⟩ := not_or.1 ha
    exact (hread' fun e => h1 ⟨h2, e⟩).trans (hread h0)
  · obtain ⟨⟩ := h
    refine ⟨_, _, _, fun a ha => ?_, aeaContinue_concludes _⟩
    exact hread (not_or.1 ha).1

theorem gotAea_concludes (h : gotAea f st s = .next t) : ∃ buf len r,
    (∀ a, ¬ (st = 0#2 ∧ s.payloadAt a) → buf.read a = s.aeaBuf.read a) ∧
    Concludes { s with rxbuf := f, aeaBuf := buf, aeaLen := len, rem := r } t := by
  simp only [gotAea] at h
  split at h
  · next h0 =>
    obtain ⟨buf, len, r, hread, hc⟩ := aeaPayload_concludes h
    exact ⟨buf, len, r, fun a ha => hread a fun hp => ha ⟨h0, hp⟩, hc⟩
  · obtain ⟨⟩ := h
    exact ⟨s.aeaBuf, s.aeaLen, s.rem, fun _ _ => rfl, .completes _⟩

theorem gotPoll_concludes (f : Frame) (st : BitVec 2) (s : State) : ∃ n, Concludes
    { s with rxbuf := f, rspReg := f.b1, value := f.data, kind := 0#1, status := st, iter := n } (gotPoll f st s) := by
  simp only [gotPoll]
  split
  · exact ⟨s.iter, .completes _⟩
  · split
    · exact ⟨s.iter, .completes _⟩
    · split
      · exact ⟨_, .completes _⟩
      · exact ⟨_, .sends _ s.ctx⟩

/-! ## What a handler writes before it ends -/

/-- The registers after the handler of a good frame with status `st` and before its end, one case for each kind of command in
flight. -/
inductive Answered (st : BitVec 2) (s : State) : State → Prop
  | drained (hc : s.ctx = .main) (ho : s.op = 0x2#4) :
      Answered st s { s with value := 0x0000#16, kind := 0#1, status := 0#2 }
  | main (hc : s.ctx = .main) (ho : s.op ≠ 0x2#4) (f : Frame) (k : BitVec 1) (l r : BitVec 7) :
      Answered st s
        { s with rxbuf := f, rspReg := f.b1, value := f.data, kind := k, status := st, aeaLen := l, rem := r }
  | aea (hc : s.ctx = .aea) (f : Frame) (buf : Memory) (l r : BitVec 7)
      (hread : ∀ a, ¬ (st = 0#2 ∧ s.payloadAt a) → buf.read a = s.aeaBuf.read a) :
      Answered st s { s with rxbuf := f, aeaBuf := buf, aeaLen := l, rem := r }
  | poll (hc : s.ctx = .poll) (f : Frame) (n : Nat) :
      Answered st s { s with rxbuf := f, rspReg := f.b1, value := f.data, kind := 0#1, status := st, iter := n }

/-- What the handler of a good frame can do: the registers of the command in flight are written, and then it ends. -/
theorem gotGood_concludes (h : gotGood f st s = .next t) : ∃ u, Answered st s u ∧ Concludes u t := by
  unfold gotGood at h
  split at h
  · next hd =>
    obtain ⟨hc, ho⟩ : s.ctx = .main ∧ s.op = 0x2#4 := by simpa [State.drains] using hd
    obtain ⟨⟩ := h
    exact ⟨_, .drained hc ho, .completes _⟩
  · next hd =>
    split at h
    · next hc =>
      obtain ⟨⟩ := h
      obtain ⟨k, l, r, he⟩ := gotMain_concludes f st s
      exact ⟨_, .main hc (fun ho => hd (drains_of_snd hc ho)) f k l r, he⟩
    · next hc =>
      obtain ⟨buf, l, r, hread, he⟩ := gotAea_concludes h
      exact ⟨_, .aea hc f buf l r hread, he⟩
    · next hc =>
      obtain ⟨⟩ := h
      obtain ⟨n, he⟩ := gotPoll_concludes f st s
      exact ⟨_, .poll hc f n, he⟩

/-- No handler writes the latch, the log of received bytes, the transmit frame or `ctx` before it ends. -/
theorem Answered.keeps (h : Answered st s u) : u.op = s.op ∧ u.rw = s.rw ∧ u.reg = s.reg ∧ u.data = s.data ∧
    u.rxlog = s.rxlog ∧ u.txbuf = s.txbuf ∧ u.txi = s.txi ∧ u.ctx = s.ctx := by
  cases h <;> exact ⟨rfl, rfl, rfl, rfl, rfl, rfl, rfl, rfl⟩

/-- POLL alone counts its replies (R225). -/
theorem Answered.iter (h : Answered st s u) (hc : s.ctx ≠ .poll) : u.iter = s.iter := by
  cases h with
  | poll hc' => exact absurd hc' hc
  | drained | main | aea => rfl

/-- A continuation frame leaves the results of the first reply alone (R221). -/
theorem Answered.results (h : Answered st s u) (hc : s.ctx = .aea) :
    u.value = s.value ∧ u.kind = s.kind ∧ u.status = s.status ∧ u.rspReg = s.rspReg := by
  cases h with
  | aea => exact ⟨rfl, rfl, rfl, rfl⟩
  | drained hc' | main hc' | poll hc' => simp [hc] at hc'

/-- A poll reply leaves the extended-address counters alone (R225). -/
theorem Answered.counters (h : Answered st s u) (hc : s.ctx = .poll) : u.aeaLen = s.aeaLen ∧ u.rem = s.rem := by
  cases h with
  | poll => exact ⟨rfl, rfl⟩
  | drained hc' | main hc' | aea hc' => simp [hc] at hc'

/-- A reply to SND is shown nowhere (R192). -/
theorem Answered.discarded (h : Answered st s u) (hc : s.ctx = .main) (ho : s.op = 0x2#4) :
    u.rxbuf = s.rxbuf ∧ u.rspReg = s.rspReg ∧ u.aeaLen = s.aeaLen ∧ u.rem = s.rem := by
  cases h with
  | drained => exact ⟨rfl, rfl, rfl, rfl⟩
  | main _ ho' => exact absurd ho ho'
  | aea hc' | poll hc' => simp [hc] at hc'

/-- The AEA buffer is written by the payload of a successful continuation frame alone (R221). -/
theorem Answered.aeaByte {a : Nat} (h : Answered st s u) (ha : ¬ (s.ctx = .aea ∧ st = 0#2 ∧ s.payloadAt a)) :
    u.aeaByte a = s.aeaByte a := by
  cases h with
  | aea hc f buf l r hread => exact hread a fun hp => ha ⟨hc, hp⟩
  | drained | main | poll => rfl

/-! ## The response rows -/

/-- A response row is the handler of its own frame, and RSP.OK is the row with status 0 (R95). -/
theorem exec_response {i : Instr} (hi : i.space = .wireResponse) : ∃ f st,
    (st = 0#2 → ∃ x reg d, i = .rspOk x reg d) ∧ ∀ s, exec i s = whenWaiting (gotGood f st) s := by
  cases i with
  | rspOk x reg d => exact ⟨_, _, fun _ => ⟨x, reg, d, rfl⟩, fun s => by rw [exec, execRspOk]⟩
  | rspXe => exact ⟨_, 1#2, nofun, fun s => by rw [exec, execRspXe]⟩
  | rspAea => exact ⟨_, 2#2, nofun, fun s => by rw [exec, execRspAea]⟩
  | rspCp => exact ⟨_, 3#2, nofun, fun s => by rw [exec, execRspCp]⟩
  | rdf | wrf | xrd | xwr | snd | aea | poll | flush | txb | rxb | ill | csum | enc | dec => cases hi

/-- Settles O36: outside WAIT nothing happens; in WAIT each kind of command in flight writes its own registers and then ends. -/
theorem responseFrame : Obligations.ResponseFrame := by
  intro i s t hi h
  obtain ⟨hcfg, hpins, hin, hhost⟩ := exec_sameEnv (by simp [hi]) h
  obtain ⟨f, st, hrow, hexec⟩ := exec_response hi
  rw [hexec] at h
  by_cases hp : s.phase = .wait
  · rw [whenWaiting_of_wait hp] at h
    obtain ⟨htimer, htxlog, hfifo, hovf, hend⟩ := gotGood_handled h
    obtain ⟨u, hu, he⟩ := gotGood_concludes h
    obtain ⟨hop, hrw, hreg, hdata, hrxlog, htxbuf, htxi, hctx⟩ := hu.keeps
    have hbyte {a : Nat} (ha : ¬ (s.ctx = .aea ∧ st = 0#2 ∧ s.payloadAt a)) : t.aeaByte a = s.aeaByte a :=
      (congrArg (State.aeaByte · a) he.eq).trans (hu.aeaByte ha)
    refine ⟨(congrArg State.op he.eq).trans hop, (congrArg State.rw he.eq).trans hrw,
      (congrArg State.reg he.eq).trans hreg, (congrArg State.data he.eq).trans hdata, hfifo, hovf, htxlog,
      (congrArg State.rxlog he.eq).trans hrxlog, htimer, hcfg, hpins, hin, hhost, fun hne => absurd hp hne,
      fun hc => (congrArg State.iter he.eq).trans (hu.iter hc), fun hc => ?_, fun hc => ?_, fun hc ho => ?_, fun hne => ?_,
      fun hne => ?_, fun a _ h0 h1 => ?_, fun hne a => ?_⟩
    · rw [he.eq]; exact hu.results hc
    · rw [he.eq]; exact hu.counters hc
    · rw [he.eq]; exact hu.discarded hc ho
    · rcases hend with ⟨hidle, -⟩ | ⟨-, hdone, herr⟩
      · exact absurd hidle hne
      · exact ⟨herr, hdone⟩
    · rw [← htxbuf, ← htxi, ← hctx]; exact he.noFrame hne
    · exact hbyte fun ⟨_, _, ha⟩ => ha.elim h0 fun ⟨h2, e⟩ => h1 h2 e
    · exact hbyte fun ⟨hc, h0, _⟩ => hne ⟨hp, hc, hrow h0⟩
  · rw [whenWaiting_of_not_wait hp] at h
    obtain ⟨⟩ := h
    simp

end Sys2Proof.Machine
end

section
/-! SUPPORT. The extended-address procedure, POLL and ILL (43_extended_and_poll.md): the equations of their acceptance and of the
handlers of their replies, and the statements that rest on them. -/

namespace Sys2Proof.Machine

variable {s : State} {f : Frame} {st : BitVec 2}

/-! ## ILL -/

/-- An opcode with its top bit set is that bit followed by the `sub` of ILL (R99). -/
theorem opcode_of_top {op : BitVec 4} (h : op.extractLsb' 3 1 = 1#1) : 1#1 ++ op.extractLsb' 0 3 = op := by
  revert op; decide

/-- ILL at `cmd_ready = 1` (R229). -/
theorem exec_ill_of_ready (sub : BitVec 3) (rw : BitVec 1) (reg : Byte) (data : Half) (hr : s.cmdReady = true) :
    exec (.ill sub rw reg data) s = .next (complete .illegalCommand (latch (1#1 ++ sub) rw reg data s)) :=
  if_pos hr

/-- Settles O20: ILL is a completion after the latch. -/
theorem illegalInstructionCompletes : Obligations.IllegalInstructionCompletes :=
  fun _ sub rw reg data hr => exec_ill_of_ready sub rw reg data hr

/-- Settles O19: a word with its top bit set decodes to ILL, whose opcode is the word's. -/
theorem illegalCommandCompletes : Obligations.IllegalCommandCompletes := by
  intro s w hr hw
  have htop : (cmdOp w).extractLsb' 3 1 = 1#1 := (cmdOp_top w).trans hw
  rw [decodeCommand_ill htop, exec_ill_of_ready _ _ _ _ hr, opcode_of_top htop]
  rfl

/-! ## AEA-entry -/

/-- A payload count that fits the AEA buffer fits `rem` (R32, R41). -/
theorem rem_of_count {n : Half} (h : n.toNat ≤ Memory.size) : (n.setWidth 7).toNat = n.toNat := by
  have h : n.toNat ≤ 100 := h
  rw [BitVec.toNat_setWidth]
  omega

/-- A count above AEA_MAX (R220). -/
theorem aeaEntry_of_overflow {n : Half} (h : s.cfg.aeaMax < n.toNat) :
    aeaEntry n s = complete .extendedAddressOverflow { s with kind := 1#1, aeaLen := 0#7 } :=
  if_pos h

/-- A count of 0 (R220). -/
theorem aeaEntry_of_empty {n : Half} (h0 : n = 0#16) (h : n.toNat ≤ s.cfg.aeaMax) :
    aeaEntry n s = complete .noError { s with kind := 1#1, aeaLen := 0#7 } :=
  (if_neg (Nat.not_lt.2 h)).trans (if_pos h0)

/-- A count from 1 to AEA_MAX (R220). -/
theorem aeaEntry_of_count {n : Half} (h0 : n ≠ 0#16) (h : n.toNat ≤ s.cfg.aeaMax) : aeaEntry n s =
    sendf (continuationFrame s.cfg) { s with kind := 1#1, aeaLen := 0#7, rem := n.setWidth 7, ctx := .aea } :=
  (if_neg (Nat.not_lt.2 h)).trans (if_neg h0)

/-- The three ends of a step that runs AEA-entry (R220). -/
theorem outcome_of_aeaEntry {n : Half} {r : Result} (hr : r = .next (aeaEntry n s)) (hmax : s.cfg.aeaMax ≤ Memory.size) :
    (s.cfg.aeaMax < n.toNat → r = .next (complete .extendedAddressOverflow { s with kind := 1#1, aeaLen := 0#7 })) ∧
    (n = 0#16 → n.toNat ≤ s.cfg.aeaMax → r = .next (complete .noError { s with kind := 1#1, aeaLen := 0#7 })) ∧
    (n ≠ 0#16 → n.toNat ≤ s.cfg.aeaMax →
      r = .next (sendf (continuationFrame s.cfg) { s with kind := 1#1, aeaLen := 0#7, rem := n.setWidth 7, ctx := .aea }) ∧
      (n.setWidth 7).toNat = n.toNat) := by
  subst hr
  refine ⟨fun h => ?_, fun h0 h => ?_, fun h0 h => ⟨?_, rem_of_count (h.trans hmax)⟩⟩
  · rw [aeaEntry_of_overflow h]
  · rw [aeaEntry_of_empty h0 h]
  · rw [aeaEntry_of_count h0 h]

/-- AEA at `cmd_ready = 1` (R222). -/
theorem exec_aea_of_ready (rw : BitVec 1) (reg : Byte) (n : Half) (hr : s.cmdReady = true) :
    exec (.aea rw reg n) s =
      .next (aeaEntry n { latch 0x3#4 rw reg n s with value := n, status := 0#2, rspReg := s.cfg.aeaReg }) :=
  if_pos hr

/-- Settles O15: the AEA command and a status 2 reply to a read both run AEA-entry. -/
theorem aeaEntryRule : Obligations.AeaEntryRule := by
  refine ⟨fun s rw reg n hmax hr => ?_, fun s f rest hmax hp hc ho hw hf hok hst => ?_⟩
  · exact outcome_of_aeaEntry (exec_aea_of_ready rw reg n hr) hmax
  · have hgot := perform_got_of_frame hp hf
    rw [if_pos hok, hst, gotGood_continued (s := { s with rxfifo := rest }) hc ho hw] at hgot
    exact outcome_of_aeaEntry hgot hmax

/-! ## The extended-address loop -/

theorem gotGood_aea (hc : s.ctx = .aea) : gotGood f st s = gotAea f st s := by simp [gotGood, State.drains, hc]

theorem gotBad_aea (hc : s.ctx = .aea) : gotBad f s = complete .checksumError { s with rxbuf := f } := by
  simp [gotBad, State.drains, hc]

theorem gotTimeout_aea (hc : s.ctx = .aea) : gotTimeout s = complete .noResponse { s with rxbuf := Frame.allOnes } := by
  simp [gotTimeout, State.drains, hc]

/-- An append below the end of the AEA buffer (R221). -/
theorem aeaAppend_of_room {b : Byte} (h : s.aeaLen.toNat < 100) : aeaAppend b s =
    .next { s with aeaBuf := s.aeaBuf.write s.aeaLen.toNat b, aeaLen := s.aeaLen + 1#7 } :=
  if_pos h

/-- While two or more bytes remain a successful frame brings two of them (R221). -/
theorem aeaPayload_of_two (h2 : 2 ≤ s.rem.toNat) (hl : s.aeaLen.toNat + 2 ≤ 100) : aeaPayload f s = .next (aeaContinue
    { s with
      aeaBuf := (s.aeaBuf.write s.aeaLen.toNat f.b2).write (s.aeaLen.toNat + 1) f.b3
      aeaLen := s.aeaLen + 2#7, rem := s.rem - 2#7 }) := by
  have hlen : (s.aeaLen + 1#7).toNat = s.aeaLen.toNat + 1 := by
    rw [BitVec.toNat_add, BitVec.toNat_ofNat]
    omega
  have hsum : s.aeaLen + 1#7 + 1#7 = s.aeaLen + 2#7 := BitVec.add_assoc ..
  rw [aeaPayload, aeaAppend_of_room (by omega), andThen_next, if_pos h2, aeaAppend_of_room (by simp only [hlen]; omega),
    andThen_next]
  simp only [hlen, hsum]

/-- The last byte of an odd count is byte2 (R221). -/
theorem aeaPayload_of_last (h2 : s.rem.toNat < 2) (hl : s.aeaLen.toNat < 100) : aeaPayload f s = .next (complete .noError
    { s with aeaBuf := s.aeaBuf.write s.aeaLen.toNat f.b2, aeaLen := s.aeaLen + 1#7, rem := 0#7 }) := by
  rw [aeaPayload, aeaAppend_of_room hl, andThen_next, if_neg (Nat.not_le.2 h2)]
  rfl

theorem aeaContinue_of_done (h : s.rem = 0#7) : aeaContinue s = complete .noError s := if_pos h

theorem aeaContinue_of_more (h : s.rem ≠ 0#7) : aeaContinue s = sendf (continuationFrame s.cfg) s := if_neg h

/-- A successful frame shows in `rxbuf`, and its payload is stored (R221). -/
theorem gotAea_of_success (f : Frame) (s : State) : gotAea f 0#2 s = aeaPayload f { s with rxbuf := f } := by
  rw [gotAea, if_pos rfl]

/-- A successful frame with more to fetch after it (R221). -/
theorem gotAea_of_more (hr : 2 < s.rem.toNat) (hl : s.aeaLen.toNat + 2 ≤ 100) :
    gotAea f 0#2 s = .next (sendf (continuationFrame s.cfg)
      { s with
        rxbuf := f, aeaBuf := (s.aeaBuf.write s.aeaLen.toNat f.b2).write (s.aeaLen.toNat + 1) f.b3
        aeaLen := s.aeaLen + 2#7, rem := s.rem - 2#7 }) := by
  have hmore : s.rem - 2#7 ≠ 0#7 := by simpa [Nat.le_of_lt hr] using remAfter_ne_zero_iff.2 hr
  rw [gotAea_of_success, aeaPayload_of_two (s := { s with rxbuf := f }) (Nat.le_of_lt hr) hl]
  exact congrArg Host.Outcome.next (aeaContinue_of_more hmore)

/-- The successful frame that brings the last two bytes (R221). -/
theorem gotAea_of_last_two (hr : s.rem = 2#7) (hl : s.aeaLen.toNat + 2 ≤ 100) :
    gotAea f 0#2 s = .next (complete .noError
      { s with
        rxbuf := f, aeaBuf := (s.aeaBuf.write s.aeaLen.toNat f.b2).write (s.aeaLen.toNat + 1) f.b3
        aeaLen := s.aeaLen + 2#7, rem := 0#7 }) := by
  rw [gotAea_of_success, aeaPayload_of_two (s := { s with rxbuf := f }) (by simp [hr]) hl, hr]
  rfl

/-- The successful frame that brings the last byte of an odd count (R221). -/
theorem gotAea_of_last_one (hr : s.rem.toNat < 2) (hl : s.aeaLen.toNat + 1 ≤ 100) :
    gotAea f 0#2 s = .next (complete .noError
      { s with rxbuf := f, aeaBuf := s.aeaBuf.write s.aeaLen.toNat f.b2, aeaLen := s.aeaLen + 1#7, rem := 0#7 }) :=
  (gotAea_of_success f s).trans (aeaPayload_of_last (s := { s with rxbuf := f }) hr hl)

/-- Settles O29: the handler of the loop by the status of the frame and by what remains. -/
theorem extendedAddressLoop : Obligations.ExtendedAddressLoop := by
  refine ⟨fun s x reg hi lo hp hc => ?_, fun s f rest hp hc hf hok => ?_, fun s hp hc h4 ht => ?_⟩
  · have hrow (st : BitVec 2) :
        whenWaiting (gotGood (rspFrame x st reg (hi ++ lo)) st) s = gotAea (rspFrame x st reg (hi ++ lo)) st s :=
      (whenWaiting_of_wait hp).trans (gotGood_aea hc)
    have hok : exec (.rspOk x reg (hi ++ lo)) s = gotAea (rspFrame x 0#2 reg (hi ++ lo)) 0#2 s := hrow 0#2
    refine ⟨fun hr hl => ?_, fun hr hl => ?_, fun hr hl => ?_, hrow 1#2, hrow 2#2, hrow 3#2⟩
    · rw [hok, gotAea_of_more hr hl, rspFrame_b2, rspFrame_b3, dataHi_append, dataLo_append]; rfl
    · rw [hok, gotAea_of_last_two hr hl, rspFrame_b2, rspFrame_b3, dataHi_append, dataLo_append]; rfl
    · rw [hok, gotAea_of_last_one hr hl, rspFrame_b2, dataHi_append]; rfl
  · rw [perform_got_of_frame hp hf, if_neg (by simp [hok]), gotBad_aea (s := { s with rxfifo := rest }) hc]
    rfl
  · rw [perform_timeout hp h4 ht, gotTimeout_aea hc]
    rfl

/-! ## POLL -/

theorem gotGood_poll (hc : s.ctx = .poll) : gotGood f st s = .next (gotPoll f st s) := by
  simp [gotGood, State.drains, hc]

theorem gotBad_poll (hc : s.ctx = .poll) : gotBad f s = complete .checksumError
    { s with rxbuf := f, rspReg := f.b1, value := f.data, kind := 0#1, status := 0#2 } := by
  simp [gotBad, State.drains, hc]

theorem gotTimeout_poll (hc : s.ctx = .poll) : gotTimeout s = complete .noResponse
    { s with rxbuf := Frame.allOnes, value := 0xFFFF#16, rspReg := 0xFF#8, status := 0#2, kind := 0#1 } := by
  simp [gotTimeout, State.drains, hc]

/-- A nonzero status ends the poll (R225). -/
theorem gotPoll_of_error (h : st ≠ 0#2) : gotPoll f st s = complete (.ofStatus st)
    { s with rxbuf := f, rspReg := f.b1, value := f.data, kind := 0#1, status := st } :=
  if_pos h

/-- A clear high byte ends the poll (R225). -/
theorem gotPoll_of_idle (h : f.b2 = 0#8) : gotPoll f 0#2 s = complete .noError
    { s with rxbuf := f, rspReg := f.b1, value := f.data, kind := 0#1, status := 0#2 } :=
  if_pos h

/-- A busy reply is counted, and at POLL_MAX it is the last (R225). -/
theorem gotPoll_of_busy (h : f.b2 ≠ 0#8) : gotPoll f 0#2 s =
    if s.cfg.pollMax ≤ s.iter + 1 then complete .pollTimeout
      { s with rxbuf := f, rspReg := f.b1, value := f.data, kind := 0#1, status := 0#2, iter := s.iter + 1 }
    else sendf (pollFrame s.cfg)
      { s with rxbuf := f, rspReg := f.b1, value := f.data, kind := 0#1, status := 0#2, iter := s.iter + 1 } :=
  if_neg h

/-- Settles O30: the handler of a poll by the checksum, the status, the high byte and the count. -/
theorem pollCommand : Obligations.PollCommand := by
  refine ⟨fun s rw reg data hr => if_pos hr, fun s f rest hp hc hf hok => ?_, fun s f rest hp hc hf hok => ?_,
    fun s hp hc h4 ht => ?_⟩
  · rw [perform_got_of_frame hp hf, if_pos hok, gotGood_poll (s := { s with rxfifo := rest }) hc]
    refine ⟨fun hst => ?_, fun hst hb => ?_, fun hst hb hm => ?_, fun hst hb hm => ?_⟩
    · exact congrArg Host.Outcome.next (gotPoll_of_error hst)
    · rw [hst, gotPoll_of_idle hb]; rfl
    · rw [hst, gotPoll_of_busy hb]; exact congrArg Host.Outcome.next (if_pos hm)
    · rw [hst, gotPoll_of_busy hb]; exact congrArg Host.Outcome.next (if_neg (Nat.not_le.2 hm))
  · rw [perform_got_of_frame hp hf, if_neg (by simp [hok]), gotBad_poll (s := { s with rxfifo := rest }) hc]
    rfl
  · rw [perform_timeout hp h4 ht, gotTimeout_poll hc]
    rfl

end Sys2Proof.Machine
end

section
/-! SUPPORT. A complete extended-address read, followed from its acceptance to its last reply (43_extended_and_poll.md R221,
R222): an induction on the replies. -/

namespace Sys2Proof.Machine

/-! ## Storing bytes one after the other -/

/-- Bytes stored from an address upwards, in order (R64, R221). -/
def Memory.writeAll : Memory → Nat → List Byte → Memory
  | m, _, [] => m
  | m, a, b :: bs => Memory.writeAll (m.write a b) (a + 1) bs

theorem Memory.writeAll_append (m : Memory) (a : Nat) (bs cs : List Byte) :
    m.writeAll a (bs ++ cs) = (m.writeAll a bs).writeAll (a + bs.length) cs := by
  induction bs generalizing m a with
  | nil => rfl
  | cons b bs ih => rw [List.cons_append, writeAll, writeAll, ih, List.length_cons, Nat.add_right_comm, Nat.add_assoc]

/-- Addresses outside the stored run keep their bytes. -/
theorem Memory.read_writeAll_outside (m : Memory) {a i : Nat} (bs : List Byte) (h : i < a ∨ a + bs.length ≤ i) :
    (m.writeAll a bs).read i = m.read i := by
  induction bs generalizing m a with
  | nil => rfl
  | cons b bs ih =>
    rw [List.length_cons] at h
    rw [writeAll, ih _ (by omega), Memory.read_write_other _ _ _ _ (by omega)]

/-- The `i`-th stored byte stands `i` above the first address. -/
theorem Memory.read_writeAll_inside {m : Memory} (hm : m.wf) (a : Nat) {i : Nat} {bs : List Byte} (h : i < bs.length) :
    some ((m.writeAll a bs).read (a + i)) = bs[i]? := by
  induction bs generalizing m a i with
  | nil => exact absurd h (Nat.not_lt_zero _)
  | cons b bs ih =>
    cases i with
    | zero =>
      have hfirst : ((m.write a b).writeAll (a + 1) bs).read a = b :=
        (Memory.read_writeAll_outside _ bs (.inl (Nat.lt_succ_self a))).trans (Memory.read_write_same _ _ _ hm)
      exact congrArg some hfirst
    | succ i =>
      rw [writeAll, List.getElem?_cons_succ, ← ih (Memory.write_wf a b hm) (a + 1) (Nat.lt_of_succ_lt_succ h),
        Nat.add_assoc, Nat.add_comm 1 i]

/-! ## One reply -/

variable {s : State}

/-- The two payload bytes of a continuation reply, in fetch order (R64). -/
def payload (f : Frame) : List Byte := [f.b2, f.b3]

/-- The registers after the wanted part of the payload of `f`, `k` bytes, was stored (R221). -/
def stored (f : Frame) (k : BitVec 7) (s : State) : State :=
  { s with
    aeaBuf := s.aeaBuf.writeAll s.aeaLen.toNat ((payload f).take s.rem.toNat), aeaLen := s.aeaLen + k, rem := s.rem - k }

/-- A successful frame stores two bytes, or the last one (R221). -/
theorem aeaPayload_stores (f : Frame) (hpos : 1 ≤ s.rem.toNat) (hroom : s.aeaLen.toNat + s.rem.toNat ≤ 100) :
    ∃ k : BitVec 7, k.toNat = min s.rem.toNat 2 ∧ aeaPayload f s = .next (aeaContinue (stored f k s)) := by
  by_cases h2 : 2 ≤ s.rem.toNat
  · refine ⟨2#7, (Nat.min_eq_right h2).symm, ?_⟩
    rw [aeaPayload_of_two h2 (by omega), stored, List.take_of_length_le h2]
    rfl
  · have h1 : s.rem = 1#7 := BitVec.eq_of_toNat_eq (show s.rem.toNat = 1 by omega)
    refine ⟨1#7, by rw [h1]; rfl, ?_⟩
    rw [aeaPayload_of_last (Nat.not_le.1 h2) (by omega), stored, h1]
    rfl

/-- GOT in the loop on a FIFO that holds just a successful reply (R161, R221). -/
theorem got_of_continuation {f : Frame} (hp : s.phase = .wait) (hc : s.ctx = .aea) (hf : s.rxfifo = f.bytes)
    (hok : f.ok = true) (hst : f.statusBits = 0#2) : got s = aeaPayload f { s with rxfifo := [], rxbuf := f } := by
  rw [got_of_frame hp (hf.trans (List.append_nil _).symm), if_pos hok, hst, gotGood_aea (s := { s with rxfifo := [] }) hc,
    gotAea_of_success]

/-! ## All replies -/

/-- The block at the start of a continuation read, with the replies `fs` to come, just enough for the bytes that remain. -/
structure Fetching (fs : List Frame) (later : List Pins) (s : State) : Prop where
  phase : s.phase = .send
  ctx : s.ctx = .aea
  frame : s.txbuf = continuationFrame s.cfg
  first : s.txi = 0#2
  fifo : s.rxfifo = []
  depth : 4 ≤ s.cfg.rxDepth
  deadline : 1 ≤ s.cfg.tResp
  host : s.host.stage = .ready
  pins : s.pins = Pins.accept
  inputs : s.inputs = (fs.flatMap exchangeScript ++ later).tail
  pos : 1 ≤ s.rem.toNat
  room : s.aeaLen.toNat + s.rem.toNat ≤ 100
  count : fs.length = (s.rem.toNat + 1) / 2
  good : ∀ f ∈ fs, f.ok = true ∧ f.statusBits = 0#2

/-- The waiting block after the frame in its register went out and the reply `f` came in and was popped, with the inputs `l` to
come. -/
def replied (f : Frame) (l : List Pins) (s : State) : State :=
  { s with
    phase := .wait, rxfifo := [], rxbuf := f, rxlog := s.rxlog ++ f.bytes, txlog := s.txlog ++ s.txbuf.bytes, txi := 3#2
    timer := 0, done := false, pins := Pins.quiet, inputs := l }

/-- The block after the last of the replies `fs`: their payload is stored from `aea_len` on, as much of it as was wanted, and a
continuation frame went out for each of them. -/
def fetched (fs : List Frame) (later : List Pins) (s : State) : State :=
  { s with
    phase := .idle, done := true, err := .noError, txi := 3#2, timer := 0, rem := 0#7, rxfifo := []
    rxbuf := fs.getLastD s.rxbuf
    aeaBuf := s.aeaBuf.writeAll s.aeaLen.toNat ((fs.flatMap payload).take s.rem.toNat), aeaLen := s.aeaLen + s.rem
    txlog := s.txlog ++ fs.flatMap fun _ => (continuationFrame s.cfg).bytes, rxlog := s.rxlog ++ fs.flatMap Frame.bytes
    pins := hostDrive s.host (later.headD Pins.quiet), inputs := later.tail }

section Loop

variable {fs : List Frame} {f : Frame} {later : List Pins} {k : BitVec 7}

/-- A continuation read and its reply: nine clocks, after which the loop goes on or is done (R221). -/
theorem run_continuation (h : Fetching (f :: fs) later s) : ∃ k : BitVec 7, k.toNat = min s.rem.toNat 2 ∧
    core.run 9 s = .next (advance (aeaContinue (stored f k (replied f (fs.flatMap exchangeScript ++ later) s)))) := by
  obtain ⟨hok, hst⟩ := h.good f List.mem_cons_self
  obtain ⟨k, hk, hstore⟩ :=
    aeaPayload_stores (s := replied f (fs.flatMap exchangeScript ++ later) s) f h.pos h.room
  refine ⟨k, hk, run_exchange h.host h.phase h.first h.fifo h.depth h.deadline h.pins
    (h.inputs.trans (by rw [List.flatMap_cons, List.append_assoc])) ?_⟩
  refine (got_of_continuation ?_ ?_ ?_ hok hst).trans hstore
  · rfl
  · exact h.ctx
  · rfl

/-- The bytes that remain after a reply. -/
theorem rem_of_stored (hk : k.toNat = min s.rem.toNat 2) : (s.rem - k).toNat = s.rem.toNat - 2 := by
  have hle : k.toNat ≤ s.rem.toNat := hk.trans_le (Nat.min_le_left _ _)
  rw [BitVec.toNat_sub_of_le hle]
  omega

/-- The address after the bytes of a reply. -/
theorem aeaLen_of_stored (hk : k.toNat = min s.rem.toNat 2) (hroom : s.aeaLen.toNat + s.rem.toNat ≤ 100) :
    (s.aeaLen + k).toNat = s.aeaLen.toNat + ((payload f).take s.rem.toNat).length := by
  have hlen : ((payload f).take s.rem.toNat).length = min s.rem.toNat 2 := List.length_take
  rw [hlen, BitVec.toNat_add]
  omega

/-- The payload of the first reply and then that of the others is the payload of all. -/
theorem fetched_cons (h : Fetching (f :: fs) later s) (hk : k.toNat = min s.rem.toNat 2) :
    fetched fs later (advance (sendf (continuationFrame s.cfg)
      (stored f k (replied f (fs.flatMap exchangeScript ++ later) s)))) = fetched (f :: fs) later s := by
  have hsum : s.aeaLen + k + (s.rem - k) = s.aeaLen + s.rem := by bv_omega
  have hbuf : (s.aeaBuf.writeAll s.aeaLen.toNat ((payload f).take s.rem.toNat)).writeAll (s.aeaLen + k).toNat
      ((fs.flatMap payload).take (s.rem - k).toNat) =
      s.aeaBuf.writeAll s.aeaLen.toNat (((f :: fs).flatMap payload).take s.rem.toNat) := by
    rw [aeaLen_of_stored (f := f) hk h.room, rem_of_stored hk, ← Memory.writeAll_append, List.flatMap_cons,
      List.take_append]
    rfl
  simp only [fetched, advance, sendf, stored, replied, hsum, hbuf, h.frame, List.flatMap_cons, List.append_assoc,
    List.getLastD_cons]

/-- The last reply completes the payload. -/
theorem fetched_last (h : Fetching [f] later s) (hlast : s.rem - k = 0#7) :
    advance (complete .noError (stored f k (replied f later s))) = fetched [f] later s := by
  have hk : k = s.rem := (sub_eq_zero.1 hlast).symm
  subst hk
  simp only [fetched, advance, complete, stored, replied, h.frame, hlast, List.flatMap_cons, List.flatMap_nil,
    List.append_nil, List.getLastD_cons, List.getLastD_nil]

/-- The first clock of an exchange accepts a byte. -/
theorem hostDrive_of_exchanges {h : HostSide} (hr : h.stage = .ready) (hfs : 0 < fs.length) :
    hostDrive h ((fs.flatMap exchangeScript ++ later).headD Pins.quiet) = Pins.accept := by
  obtain ⟨g, gs, rfl⟩ := List.exists_cons_of_length_pos hfs
  exact hostDrive_of_noCommand hr rfl

/-- After a reply with more to fetch the next continuation read starts. -/
theorem Fetching.next (h : Fetching (f :: fs) later s) (hk : k.toNat = min s.rem.toNat 2) (hmore : s.rem - k ≠ 0#7) :
    Fetching fs later (advance (sendf (continuationFrame s.cfg)
      (stored f k (replied f (fs.flatMap exchangeScript ++ later) s)))) := by
  have hrem := rem_of_stored hk
  have hcons : fs.length + 1 = (s.rem.toNat + 1) / 2 := h.count
  have hpos : (s.rem - k).toNat ≠ 0 := fun e => hmore (BitVec.eq_of_toNat_eq e)
  have hroom : (s.aeaLen + k).toNat + (s.rem - k).toNat ≤ 100 := by
    have := h.room
    rw [hrem, BitVec.toNat_add]
    omega
  have hcount : fs.length = ((s.rem - k).toNat + 1) / 2 := by omega
  have hpins := hostDrive_of_exchanges (later := later) h.host (show 0 < fs.length by omega)
  exact { h with
    phase := rfl, frame := rfl, first := rfl, fifo := rfl, pins := hpins, inputs := rfl, pos := Nat.pos_of_ne_zero hpos
    room := hroom, count := hcount
    good := fun g hg => h.good g (List.mem_cons_of_mem f hg) }

/-- The loop fetches the whole payload. -/
theorem run_continuations (h : Fetching fs later s) : core.run (9 * fs.length) s = .next (fetched fs later s) := by
  induction fs generalizing s with
  | nil =>
    have hcount : 0 = (s.rem.toNat + 1) / 2 := h.count
    have hpos := h.pos
    omega
  | cons f fs ih =>
    obtain ⟨k, hk, hrun⟩ := run_continuation h
    rw [List.length_cons, Nat.mul_succ, Nat.add_comm, run_add 9 _ hrun]
    by_cases hmore : s.rem - k = 0#7
    · have hnil : fs = [] := by
        have hcount : fs.length + 1 = (s.rem.toNat + 1) / 2 := h.count
        have hrem := rem_of_stored hk
        rw [hmore, BitVec.toNat_zero] at hrem
        exact List.eq_nil_of_length_eq_zero (by omega)
      subst hnil
      rw [aeaContinue_of_done hmore]
      exact congrArg Host.Outcome.next (fetched_last h hmore)
    · rw [aeaContinue_of_more hmore, ← fetched_cons h hk]
      exact ih (h.next hk hmore)

end Loop

/-! ## From the command to the payload -/

/-- The block at the first continuation read of AEA n (R220, R222). -/
def aeaStarted (rw : BitVec 1) (reg : Byte) (n : Half) (s : State) : State :=
  sendf (continuationFrame s.cfg) { latch 0x3#4 rw reg n s with
    value := n, status := 0#2, rspReg := s.cfg.aeaReg, kind := 1#1, aeaLen := 0#7, rem := n.setWidth 7, ctx := .aea }

theorem exec_aea_starts {n : Half} (rw : BitVec 1) (reg : Byte) (hr : s.cmdReady = true) (hn : n ≠ 0#16)
    (hmax : n.toNat ≤ s.cfg.aeaMax) : exec (.aea rw reg n) s = .next (aeaStarted rw reg n s) :=
  (exec_aea_of_ready rw reg n hr).trans (congrArg Host.Outcome.next (aeaEntry_of_count hn hmax))

theorem length_flatMap_payload (fs : List Frame) : (fs.flatMap payload).length = 2 * fs.length := by
  induction fs with
  | nil => rfl
  | cons f fs ih => rw [List.flatMap_cons, List.length_append, ih, List.length_cons, Nat.mul_succ, Nat.add_comm]; rfl

/-- Settles O51: the accepting clock starts the first continuation read, and the loop fetches the payload from address 0 on. -/
theorem extendedReadDeliversPayload : Obligations.ExtendedReadDeliversPayload := by
  intro s rw reg n replies later hinv ht hi hf hr hp hin hpos hmax hcount hgood
  have hfits : n.toNat ≤ 100 := hmax.trans hinv.cfg.aeaMax
  have hrem : (n.setWidth 7).toNat = n.toNat := rem_of_count hfits
  have hready : (endPulse s).cmdReady = true := cmdReady_iff.2 ⟨hi, by rw [endPulse_pins, hp]; rfl⟩
  have hn : n ≠ 0#16 := by rintro rfl; exact absurd hpos (by decide)
  have hstart : step s = .next (advance (aeaStarted rw reg n (endPulse s))) :=
    step_command hr hp hi (by simpa [decodeCommand] using exec_aea_starts rw reg hready hn hmax)
  have hpins : hostDrive s.host (s.inputs.headD Pins.quiet) = Pins.accept := by
    rw [hin]
    exact hostDrive_of_exchanges hr (by omega)
  have hfetch : Fetching replies later (advance (aeaStarted rw reg n (endPulse s))) :=
    { phase := rfl, ctx := rfl, frame := rfl, first := rfl, fifo := hf, depth := hinv.cfg.rxDepth, deadline := ht
      host := hr, pins := hpins, inputs := congrArg List.tail hin, pos := hpos.trans_eq hrem.symm
      room := (Nat.zero_add _).trans_le (hrem.trans_le hfits), count := hcount.trans (by rw [← hrem]; rfl), good := hgood }
  have hlen : ((replies.flatMap payload).take (n.setWidth 7).toNat).length = n.toNat := by
    rw [List.length_take, length_flatMap_payload, hrem]
    omega
  rw [Nat.add_comm, run_succ hstart, run_continuations hfetch]
  refine ⟨_, rfl, rfl, rfl, rfl, rfl, rfl, rfl, rfl, ?_, fun a ha => ?_, fun a ha => ?_, rfl, rfl⟩
  · exact (congrArg BitVec.toNat (BitVec.zero_add _)).trans hrem
  · have hread := Memory.read_writeAll_inside hinv.mem 0 (ha.trans_eq hlen.symm)
    rw [Nat.zero_add, List.getElem?_take_of_lt (ha.trans_eq hrem.symm)] at hread
    exact hread
  · exact Memory.read_writeAll_outside _ _ (.inr ((Nat.zero_add _).trans_le (hlen.trans_le ha)))

end Sys2Proof.Machine
end

section
/-! SUPPORT. A property of the host software along a step, and what the moves of the host software do to the ticket queue
(47_host_sequences.md R251 to R255): the order of the line and the eviction of waiters. -/

namespace Sys2Proof.Machine

variable {s t u pre : State} {h h' : HostSide} {tk : Ticket} {rest : List Ticket} {ev : HostEvent}

/-! ## A property of the host software along a step -/

/-- What watching the ports keeps, and every host event, is kept by a step. -/
theorem step_host_keeps {P : HostSide → Prop} (observe : ∀ h, P h → P (hostObserve s h))
    (move : ∀ (u : State) (h h' : HostSide) (ev : HostEvent), u.cfg = s.cfg → HostMove u h h' ev → P h → P h')
    (hs : step s = .next t) (h0 : P s.host) : P t.host := by
  obtain ⟨u, hcfg, -, -, ⟨-, e⟩ | ⟨ev, -, m⟩⟩ := step_host hs
  · exact e ▸ observe _ h0
  · exact move u _ _ ev hcfg m (observe _ h0)

/-- No step changes the parameters. -/
theorem step_keeps_cfg (hs : step s = .next t) : t.cfg = s.cfg := by
  obtain ⟨u, hu, rfl⟩ := step_eq_next.1 hs
  exact (performAll_sameEnv hu).cfg

/-! ## The ticket queue -/

/-- The tickets in line, head first (R251). -/
def HostSide.ids (h : HostSide) : List Nat := h.conn.queue.map Ticket.id

theorem ids_of_head (hq : h.conn.queue = tk :: rest) : h.ids = tk.id :: rest.map Ticket.id := by
  simp [HostSide.ids, hq]

theorem ordered_iff : h.Ordered ↔ h.ids.Pairwise (· < ·) ∧ ∀ n ∈ h.ids, n < h.conn.nextTicket := by
  constructor
  · rintro ⟨hr, hi⟩
    exact ⟨List.pairwise_map.2 hr, by simpa [HostSide.ids] using hi⟩
  · rintro ⟨hr, hi⟩
    exact ⟨List.pairwise_map.1 hr, by simpa [HostSide.ids] using hi⟩

/-- What a move of the host software can do to the line: tickets leave it, and the next one may be issued to its end (R251, R253,
R255, R257, R275). -/
inductive TicketMove (h h' : HostSide) : Prop where
  | leave (sub : h'.ids.Sublist h.ids) (counter : h'.conn.nextTicket = h.conn.nextTicket)
  | issue (l : List Nat) (sub : l.Sublist h.ids) (ids : h'.ids = l ++ [h.conn.nextTicket])
      (counter : h'.conn.nextTicket = h.conn.nextTicket + 1)

theorem TicketMove.of_conn (e : h'.conn = h.conn) : TicketMove h h' :=
  .leave (by simp [HostSide.ids, e]) (by rw [e])

/-- A move that starts from the same line. -/
theorem TicketMove.of_line {g : HostSide} (m : TicketMove g h') (ids : g.ids = h.ids)
    (counter : g.conn.nextTicket = h.conn.nextTicket) : TicketMove h h' := by
  cases m with
  | leave sub c => exact .leave (ids ▸ sub) (c.trans counter)
  | issue l sub e c => exact .issue l (ids ▸ sub) (counter ▸ e) (counter ▸ c)

theorem TicketMove.counter_le (m : TicketMove h h') : h.conn.nextTicket ≤ h'.conn.nextTicket := by
  cases m <;> omega

/-- A new ticket is larger than every one in line, so the line stays in ticket order. -/
theorem TicketMove.keeps_ordered (m : TicketMove h h') (ho : h.Ordered) : h'.Ordered := by
  obtain ⟨hrise, hissued⟩ := ordered_iff.1 ho
  rw [ordered_iff]
  cases m with
  | leave sub counter => exact ⟨hrise.sublist sub, fun n hn => counter ▸ hissued n (sub.subset hn)⟩
  | issue l sub ids counter =>
    have hl : ∀ n ∈ l, n < h.conn.nextTicket := fun n hn => hissued n (sub.subset hn)
    rw [ids, counter]
    refine ⟨List.pairwise_append.2 ⟨hrise.sublist sub, List.pairwise_singleton _ _, ?_⟩, fun n hn => ?_⟩
    · simpa using hl
    · rcases List.mem_append.1 hn with hn | hn
      · exact Nat.lt_succ_of_lt (hl n hn)
      · exact List.mem_singleton.1 hn ▸ Nat.lt_succ_self _

theorem submitOp_queue (c : Config) (op : CallerOp) (h : HostSide) : (submitOp c op h).conn.queue =
    h.conn.queue ++ [{ id := h.conn.nextTicket, created := h.now, caller := h.conn.nextTicket, job := jobOf c op }] := rfl

theorem submitOp_tickets (c : Config) (op : CallerOp) (h : HostSide) : TicketMove h (submitOp c op h) :=
  .issue h.ids (.refl _) (by simp [HostSide.ids, submitOp_queue]) rfl

theorem evict_tickets (c : Config) (h : HostSide) : TicketMove h (evict c h) := by
  cases hq : h.conn.queue with
  | nil => exact .of_conn (by simp [evict, hq])
  | cons tk rest =>
    rw [evict_of_head hq]
    refine .leave ?_ rfl
    rw [ids_of_head hq]
    exact (List.filter_sublist.map Ticket.id).cons_cons _

theorem release_tickets (hq : h.conn.queue = tk :: rest) (o : HostOutcome) : TicketMove h (release o h) := by
  rw [release_of_head hq]
  exact .leave (by rw [ids_of_head hq]; exact List.sublist_cons_self _ _) (after_nextTicket _ _ _)

theorem continueJob_tickets (hq : h.conn.queue = tk :: rest) (j : Job) : TicketMove h (continueJob j h) := by
  rw [continueJob_of_head hq]
  exact .leave (by rw [ids_of_head hq]; exact .refl _) rfl

theorem advanceJob_tickets (hq : h.conn.queue = tk :: rest) (c : Config) (j : Job) :
    TicketMove h (advanceJob c j h) := by
  rcases advanceJob_of_head hq c j with e | ⟨-, e⟩
  · exact e ▸ continueJob_tickets hq j
  · rw [e]
    refine .issue (rest.map Ticket.id) ?_ (by simp [HostSide.ids]) rfl
    rw [ids_of_head hq]
    exact List.sublist_cons_self _ _

theorem HeadMove.tickets (hq : h.conn.queue = tk :: rest) (m : HeadMove s tk h h') : TicketMove h h' := by
  cases m with
  | stay e => exact .of_conn (congrArg _ e)
  | present w _ _ _ e => subst e; exact .of_conn rfl
  | reopen b _ _ _ e => subst e; exact .leave (.refl _) rfl
  | pause ms _ _ e => subst e; exact .of_conn rfl
  | release o _ _ e => exact e ▸ release_tickets hq o
  | advance _ _ e => exact e ▸ advanceJob_tickets hq _ _
  | lost _ e => exact e ▸ continueJob_tickets hq _
  | resume till _ e => exact e ▸ continueJob_tickets hq _

theorem HostMove.tickets (m : HostMove s h h' ev) : TicketMove h h' := by
  cases m with
  | submit op e => exact e ▸ submitOp_tickets _ _ _
  | msPassed e => exact e ▸ (evict_tickets s.cfg { h with now := h.now + 1 }).of_line rfl rfl
  | idle _ e => exact .of_conn (congrArg _ e)
  | act tk rest hq m => exact m.tickets hq
  | answered opened tk rest hq b _ e =>
    subst e
    exact (continueJob_tickets (rest := rest) (by exact hq) _).of_line rfl rfl

/-- Settles O53: every move of the host software leaves the line in order and never lowers the counter. -/
theorem stepKeepsTicketOrder : Obligations.StepKeepsTicketOrder := by
  refine ⟨⟨.nil, nofun⟩, fun s t ho hs => ?_⟩
  refine step_host_keeps (P := fun h => h.Ordered ∧ s.host.conn.nextTicket ≤ h.conn.nextTicket)
    (fun h ⟨ho, hn⟩ => ?_) (fun u h h' ev _ m ⟨ho, hn⟩ => ?_) hs ⟨ho, Nat.le_refl _⟩
  · have m : TicketMove h (hostObserve s h) := .of_conn (hostObserve_conn s h)
    exact ⟨m.keeps_ordered ho, hn.trans m.counter_le⟩
  · exact ⟨m.tickets.keeps_ordered ho, hn.trans m.tickets.counter_le⟩

/-! ## Eviction -/

theorem expired_eq_true {c : Config} {now : Nat} : tk.expired c now = true ↔ c.tArb < now - tk.created := by
  simp [Ticket.expired]

theorem not_expired_eq_true {c : Config} {now : Nat} : (!tk.expired c now) = true ↔ now - tk.created ≤ c.tArb := by
  simp [Ticket.expired]

/-- Whoever waits under a ticket of its own is told the reason itself (R255). -/
theorem abandoned_of_own {o : HostOutcome} (ht : tk.caller = tk.id ∨ ∀ st u, tk.job ≠ .upgrade st u) :
    tk.abandoned o = o := by
  unfold Ticket.abandoned
  split
  · next st u hj => exact if_pos (ht.resolve_right fun hn => hn st u hj)
  · rfl

/-- The caller of an upgrade whose later ticket ends is told the failure of the upgrade's state (R273, R317). -/
theorem abandoned_of_later {o : HostOutcome} {st : UpStage} {u : UpgradeData} (ht : tk.caller ≠ tk.id)
    (hj : tk.job = .upgrade st u) : tk.abandoned o = .upgradeFailed st.failure := by
  simp [Ticket.abandoned, hj, ht]

/-- Settles O54: the waiters are split by their age, those within the bound kept and the others told. -/
theorem evictionKeepsRemainingOrder : Obligations.EvictionKeepsRemainingOrder := by
  intro s h head rest hq
  have he : hostEvent s .msPassed h = _ := evict_of_head (h := { h with now := h.now + 1 }) hq s.cfg
  rw [he]
  refine ⟨rest.filter fun w => !w.expired s.cfg (h.now + 1), rest.filter fun w => w.expired s.cfg (h.now + 1), rfl, rfl,
    fun t => abandoned_of_own, fun t st u => abandoned_of_later, List.filter_sublist, List.filter_sublist, fun t => ?_,
    fun t => ?_, ?_, rfl, rfl⟩
  · rw [List.mem_filter, not_expired_eq_true]
  · rw [List.mem_filter, expired_eq_true]
  · rw [Nat.add_comm]
    exact (List.length_eq_length_filter_add _).symm

end Sys2Proof.Machine
end

section
/-! SUPPORT. The command port as the host software uses it (47_host_sequences.md R251, R252, R256): when its stage changes, and what
puts a word on the port. -/

namespace Sys2Proof.Machine

variable {s t pre : State} {h h' : HostSide} {tk : Ticket} {rest : List Ticket} {ev : HostEvent} {w : Word}

/-! ## Watching the ports -/

/-- Unless watching the ports ends in waiting, in having seen `done` or in abandoned, it changes nothing. -/
theorem hostObserve_eq_self (hw : (hostObserve pre h).stage ≠ .waiting) (hd : (hostObserve pre h).stage ≠ .seenDone)
    (ha : (hostObserve pre h).stage ≠ .abandoned) : hostObserve pre h = h := by
  rcases hostObserve_cases pre h with e | ⟨-, e⟩ | ⟨-, e⟩ | ⟨-, e⟩
  · exact e
  · exact absurd (congrArg HostSide.stage e) hw
  · exact absurd (congrArg HostSide.stage e) hd
  · exact absurd (congrArg HostSide.stage e) ha

theorem hostObserve_of_ready (hr : (hostObserve pre h).stage = .ready) : hostObserve pre h = h :=
  hostObserve_eq_self (by simp [hr]) (by simp [hr]) (by simp [hr])

theorem hostObserve_of_presenting (hp : (hostObserve pre h).stage = .presenting w) : hostObserve pre h = h :=
  hostObserve_eq_self (by simp [hp]) (by simp [hp]) (by simp [hp])

/-- The edge at which the block takes the host's word (R23). -/
theorem hostObserve_taken (hs : h.stage = .presenting w)
    (ht : pre.cmdReady = true ∧ pre.pins.cmdValid = true ∧ pre.pins.cmd = w) : (hostObserve pre h).stage = .waiting := by
  simp [hostObserve, hs, ht]

theorem hostObserve_not_taken (hs : h.stage = .presenting w)
    (ht : ¬ (pre.cmdReady = true ∧ pre.pins.cmdValid = true ∧ pre.pins.cmd = w)) : hostObserve pre h = h := by
  unfold hostObserve
  rw [hs]
  exact if_neg ht

/-! ## The stage along a host event -/

theorem release_stage (hq : h.conn.queue = tk :: rest) (o : HostOutcome) : (release o h).stage = .ready := by
  rw [release_of_head hq]

theorem continueJob_stage (hq : h.conn.queue = tk :: rest) (j : Job) : (continueJob j h).stage = .ready := by
  rw [continueJob_of_head hq]

theorem advanceJob_stage (hq : h.conn.queue = tk :: rest) (c : Config) (j : Job) :
    (advanceJob c j h).stage = .ready := by
  rcases advanceJob_of_head hq c j with e | ⟨-, e⟩
  · rw [e]; exact continueJob_stage hq j
  · rw [e]

@[simp] theorem evict_stage (c : Config) (h : HostSide) : (evict c h).stage = h.stage := by
  unfold evict; split <;> rfl

/-- The action of the head ticket is to put `w` on the port (R251, R252). -/
def HostSide.Offers (c : Config) (h : HostSide) (w : Word) : Prop :=
  ∃ tk rest, h.conn.queue = tk :: rest ∧
    (headAct c h.conn tk = .offer w ∨ ∃ i, headAct c h.conn tk = .present i ∧ encode i = some w)

/-- What one event can do to the stage: nothing; or, unless the port is in use, go to another one, which is never waiting and is
presenting a word only by the head ticket's action. -/
inductive StageMove (c : Config) (ev : HostEvent) (h h' : HostSide) : Prop where
  | same (e : h'.stage = h.stage)
  | other (notPresenting : ∀ w, h.stage ≠ .presenting w) (notWaiting : h.stage ≠ .waiting)
      (quiet : ∀ w, h'.stage ≠ .presenting w) (notWaits : h'.stage ≠ .waiting)
  | present (w : Word) (act : ev = .act) (ready : h.stage = .ready) (offers : h.Offers c w)
      (e : h'.stage = .presenting w)

/-- From a stage that does not use the port to one that does not use it either. -/
theorem StageMove.of_stages {c : Config} {a b : HostStage} (ha : h.stage = a) (hb : h'.stage = b)
    (hap : ∀ w, a ≠ .presenting w) (haw : a ≠ .waiting) (hbp : ∀ w, b ≠ .presenting w) (hbw : b ≠ .waiting) :
    StageMove c ev h h' :=
  .other (ha ▸ hap) (ha ▸ haw) (hb ▸ hbp) (hb ▸ hbw)

theorem StageMove.to_ready {c : Config} {a : HostStage} (ha : h.stage = a) (hb : h'.stage = .ready)
    (hap : ∀ w, a ≠ .presenting w) (haw : a ≠ .waiting) : StageMove c ev h h' :=
  .of_stages ha hb hap haw nofun nofun

theorem HeadMove.stage (hq : h.conn.queue = tk :: rest) (m : HeadMove s tk h h') : StageMove s.cfg .act h h' := by
  cases m with
  | stay e => exact .same (e ▸ rfl)
  | present w _ ready act e => exact .present w rfl ready ⟨tk, rest, hq, act⟩ (e ▸ rfl)
  | reopen b _ ready _ e => exact .of_stages ready (b := .opening b) (e ▸ rfl) nofun nofun nofun nofun
  | pause ms ready _ e => exact .of_stages ready (b := .pausing (pauseEnd s.cfg ms h)) (e ▸ rfl) nofun nofun nofun nofun
  | release o ready _ e => exact .to_ready ready (e ▸ release_stage hq o) nofun nofun
  | advance _ seen e => exact .to_ready seen (e ▸ advanceJob_stage hq _ _) nofun nofun
  | lost abandoned e => exact .to_ready abandoned (e ▸ continueJob_stage hq _) nofun nofun
  | resume till paused e => exact .to_ready paused (e ▸ continueJob_stage hq _) nofun nofun

theorem HostMove.stage (m : HostMove s h h' ev) : StageMove s.cfg ev h h' := by
  cases m with
  | submit op e => exact .same (e ▸ rfl)
  | msPassed e => exact .same (e ▸ evict_stage _ _)
  | idle _ e => exact .same (e ▸ rfl)
  | act tk rest hq m => exact m.stage hq
  | answered opened tk rest hq b opening e =>
    exact .to_ready opening (e ▸ continueJob_stage (rest := rest) (by exact hq) _) nofun nofun

/-- Along a step the stage goes as the ports of its clock say, and then as its host event says. -/
theorem step_stage (hs : step s = .next t) : t.host.stage = (hostObserve s s.host).stage ∨
    ∃ ev, s.pins.host = some ev ∧ StageMove s.cfg ev (hostObserve s s.host) t.host := by
  obtain ⟨u, hcfg, -, -, ⟨-, e⟩ | ⟨ev, hev, m⟩⟩ := step_host hs
  · exact .inl (e ▸ rfl)
  · exact .inr ⟨ev, hev, hcfg ▸ m.stage⟩

/-- While the port is in use, or the block works on the command, no host event changes the stage. -/
theorem step_stage_in_use (hs : step s = .next t)
    (hu : (∃ w, (hostObserve s s.host).stage = .presenting w) ∨ (hostObserve s s.host).stage = .waiting) :
    t.host.stage = (hostObserve s s.host).stage := by
  rcases step_stage hs with e | ⟨ev, -, e | ⟨np, nw⟩ | ⟨w, -, ready⟩⟩
  · exact e
  · exact e
  · rcases hu with ⟨w, hw⟩ | hw
    · exact absurd hw (np w)
    · exact absurd hw nw
  · rcases hu with ⟨w, hw⟩ | hw <;> simp [hw] at ready

/-! ## What stands on the port -/

theorem step_pins (hs : step s = .next t) : t.pins = hostDrive t.host (s.inputs.headD Pins.quiet) := by
  obtain ⟨u, -, -, e, -⟩ := step_host hs
  exact e

theorem hostDrive_of_presenting {p : Pins} (hp : h.stage = .presenting w) :
    hostDrive h p = { p with cmdValid := true, cmd := w } := by simp [hostDrive, hp]

theorem hostDrive_of_hasPort {p : Pins} (hn : ∀ w, h.stage ≠ .presenting w) (hp : h.hasPort = true) :
    hostDrive h p = { p with cmdValid := false } := by
  unfold hostDrive
  split
  · next w hw => exact absurd hw (hn w)
  · exact if_pos hp

theorem hasPort_iff : h.hasPort = true ↔ h.conn.owner ≠ none ∨ h.conn.queue ≠ [] := by
  simp [HostSide.hasPort, Option.isSome_iff_ne_none]

/-- A word that was not presented before is put on the port by the head ticket's action. -/
theorem step_presents (hs : step s = .next t) (hp : t.host.stage = .presenting w) (hn : s.host.stage ≠ .presenting w) :
    s.pins.host = some .act ∧ s.host.stage = .ready ∧ s.host.Offers s.cfg w := by
  have hno : (hostObserve s s.host).stage ≠ .presenting w := fun h => hn (hostObserve_of_presenting h ▸ h)
  rcases step_stage hs with e | ⟨ev, hev, e | ⟨_, _, quiet, _⟩ | ⟨w', act, ready, offers, e⟩⟩
  · exact absurd (e.symm.trans hp) hno
  · exact absurd (e.symm.trans hp) hno
  · exact absurd hp (quiet w)
  · obtain rfl : w' = w := by simpa using e.symm.trans hp
    have hobs : hostObserve s s.host = s.host := hostObserve_of_ready ready
    exact ⟨act ▸ hev, hobs ▸ ready, hobs ▸ offers⟩

/-- A host does not go on waiting on an idle block, and no event makes it wait. -/
theorem step_not_waiting (hs : step s = .next t) (hw : s.host.stage = .waiting) (hb : s.busy = false) :
    t.host.stage ≠ .waiting := by
  have hno := hostObserve_not_waiting hb hw
  rcases step_stage hs with e | ⟨ev, -, e | ⟨_, _, _, notWaits⟩ | ⟨w, _, _, _, e⟩⟩
  · exact e ▸ hno
  · exact e ▸ hno
  · exact notWaits
  · exact e ▸ nofun

/-- Settles O58: the port carries the host's word, which only the head ticket's action puts there and only the block takes. -/
theorem hostPresentsThroughCommandPort : Obligations.HostPresentsThroughCommandPort := by
  refine ⟨fun s t w hs hp => ?_, fun s t w hs hp hn => step_presents hs hp hn, fun s t hs ho hn => ?_,
    fun s t w hs hp => ⟨fun ht => ?_, fun ht => ?_⟩, fun s t hs hw hb => step_not_waiting hs hw hb⟩
  · rw [step_pins hs, hostDrive_of_presenting hp]
    exact ⟨rfl, rfl⟩
  · rw [step_pins hs, hostDrive_of_hasPort hn (hasPort_iff.2 ho)]
  · have hobs := hostObserve_taken hp ht
    exact (step_stage_in_use hs (.inr hobs)).trans hobs
  · have hobs : (hostObserve s s.host).stage = .presenting w := by rw [hostObserve_not_taken hp ht, hp]
    exact (step_stage_in_use hs (.inl ⟨w, hobs⟩)).trans hobs

end Sys2Proof.Machine
end

section
/-! SUPPORT. The action of the head ticket and the life of the Connection (47_host_sequences.md R250, R280): what a release does to
the owner, and that nothing else changes it. -/

namespace Sys2Proof.Machine

variable {s t pre : State} {h h' : HostSide} {tk : Ticket} {rest : List Ticket} {ev : HostEvent} {c : Config}
  {conn : Connection} {o : HostOutcome}

/-! ## The action of the head ticket -/

theorem headAct_of_job (hn : tk.job.needsConnection = false) : headAct c conn tk = jobAct c tk.job := by
  simp [headAct, hn]

theorem headAct_of_unusable (hn : tk.job.needsConnection = true) (hu : conn.usable = false) :
    headAct c conn tk = .deliver (tk.abandoned .notConnected) := by
  simp [headAct, hn, hu]

theorem headAct_cases (c : Config) (conn : Connection) (tk : Ticket) :
    headAct c conn tk = .deliver (tk.abandoned .notConnected) ∨ headAct c conn tk = jobAct c tk.job := by
  unfold headAct
  split
  · exact .inl rfl
  · exact .inr rfl

theorem usable_eq_false (hu : conn.owner = none ∨ conn.transport = false) : conn.usable = false := by
  rcases hu with hu | hu <;> simp [Connection.usable, hu]

/-- A ticket that ends without its command ends for that reason or fails its upgrade. -/
theorem abandoned_cases (o : HostOutcome) (tk : Ticket) : tk.abandoned o = o ∨ ∃ f, tk.abandoned o = .upgradeFailed f := by
  unfold Ticket.abandoned
  split
  · split
    · exact .inl rfl
    · exact .inr ⟨_, rfl⟩
  · exact .inl rfl

theorem fillAct_not_deliver (f : FillStage) : fillAct c f ≠ .deliver o := by cases f <;> nofun

theorem upgradeAct_not_deliver (u : UpgradeData) (st : UpStage) : upgradeAct c u st ≠ .deliver o := by cases st <;> nofun

/-- A negotiation tells an outcome itself only where its rung is not on the ladder. -/
theorem negotiateAct_deliver {rung : Nat} {st : NegStage} (h : negotiateAct c rung st = .deliver o) : o = .baudError := by
  cases st with
  | opening =>
    simp only [negotiateAct] at h
    split at h
    · cases h
    · exact (HostAct.deliver.inj h).symm
  | fill f => exact absurd h (fillAct_not_deliver f)
  | flush => cases h
  | probe => cases h

/-- An outcome is delivered by a finished job, but for the ladder's end. -/
theorem jobAct_deliver {j : Job} (h : jobAct c j = .deliver o) : j = .finish o ∨ o = .baudError := by
  cases j with
  | command i => cases h
  | word w => cases h
  | negotiate rung st => exact .inr (negotiateAct_deliver h)
  | upgrade st u => exact absurd h (upgradeAct_not_deliver u st)
  | recover f o' => exact absurd h (fillAct_not_deliver f)
  | close => cases h
  | finish o' => exact .inl (congrArg Job.finish (HostAct.deliver.inj h))

/-- Only a negotiation that ended well tells its caller that it is connected. -/
theorem headAct_connected {b : Nat} (h : headAct c conn tk = .deliver (.connected b)) :
    tk.job = .finish (.connected b) := by
  rcases headAct_cases c conn tk with e | e
  · rcases abandoned_cases .notConnected tk with ea | ⟨f, ea⟩ <;> simp [e, ea] at h
  · exact (jobAct_deliver (e ▸ h)).resolve_right nofun

/-! ## What an outcome does to the Connection -/

theorem after_of_abandoned (n : Nat) (conn : Connection) (tk : Ticket) :
    conn.after n (tk.abandoned .notConnected) = conn := by
  rcases abandoned_cases .notConnected tk with e | ⟨f, e⟩ <;> rw [e] <;> rfl

theorem after_cases (n : Nat) (conn : Connection) (o : HostOutcome) :
    (conn.after n o).owner = conn.owner ∨ (∃ b, o = .connected b ∧ (conn.after n o).owner = some n) ∨
      (o = .portError ∨ o = .baudError ∨ o = .disconnected) ∧ (conn.after n o).owner = none ∧
        (conn.after n o).transport = false := by
  cases o with
  | connected b => exact .inr (.inl ⟨b, rfl, rfl⟩)
  | portError => exact .inr (.inr ⟨.inl rfl, rfl, rfl⟩)
  | baudError => exact .inr (.inr ⟨.inr (.inl rfl), rfl, rfl⟩)
  | disconnected => exact .inr (.inr ⟨.inr (.inr rfl), rfl, rfl⟩)
  | arbiterTimeout => exact .inl rfl
  | completed => exact .inl rfl
  | results => exact .inl rfl
  | commandAbandoned => exact .inl rfl
  | upgradeDone => exact .inl rfl
  | upgradeFailed => exact .inl rfl
  | notConnected => exact .inl rfl
  | dataRefused => exact .inl rfl

/-! ## Where the owner changes -/

/-- The head ticket is released with an outcome that begins or ends the life of the Connection (R250, R264, R280). -/
def OwnerChange (tk : Ticket) (h h' : HostSide) : Prop :=
  (∃ b, tk.job = .finish (.connected b) ∧ h'.conn.owner = some tk.caller ∧
    h'.outcomes = h.outcomes ++ [(tk.caller, .connected b)]) ∨
  (h'.conn.owner = none ∧ h'.conn.transport = false ∧
    ∃ o, h'.outcomes = h.outcomes ++ [(tk.caller, o)] ∧ (o = .portError ∨ o = .baudError ∨ o = .disconnected))

theorem release_owner (hq : h.conn.queue = tk :: rest)
    (act : headAct c h.conn tk = .deliver o ∨ headAct c h.conn tk = .close ∧ o = .disconnected) :
    (release o h).conn.owner = h.conn.owner ∨ OwnerChange tk h (release o h) := by
  rw [release_of_head hq]
  rcases after_cases tk.caller h.conn o with e | ⟨b, rfl, e⟩ | ⟨ho, hown, htrans⟩
  · exact .inl e
  · exact .inr (.inl ⟨b, headAct_connected (act.resolve_right nofun), e, rfl⟩)
  · exact .inr (.inr ⟨hown, htrans, o, rfl, ho⟩)

theorem continueJob_owner (j : Job) (h : HostSide) : (continueJob j h).conn.owner = h.conn.owner := by
  unfold continueJob; split <;> rfl

theorem advanceJob_owner (c : Config) (j : Job) (h : HostSide) : (advanceJob c j h).conn.owner = h.conn.owner := by
  unfold advanceJob
  split
  · split <;> rfl
  · exact continueJob_owner j h

theorem evict_owner (c : Config) (h : HostSide) : (evict c h).conn.owner = h.conn.owner := by
  unfold evict; split <;> rfl

theorem HeadMove.owner (hq : h.conn.queue = tk :: rest) (m : HeadMove s tk h h') :
    h'.conn.owner = h.conn.owner ∨ h'.conn.queue = rest ∧ OwnerChange tk h h' := by
  cases m with
  | stay e => exact .inl (e ▸ rfl)
  | present w _ _ _ e => exact .inl (e ▸ rfl)
  | reopen b _ _ _ e => exact .inl (e ▸ rfl)
  | pause ms _ _ e => subst e; exact .inl rfl
  | release o _ act e =>
    subst e
    exact (release_owner hq act).imp_right fun hc => ⟨by rw [release_of_head hq], hc⟩
  | advance _ _ e => exact .inl (e ▸ advanceJob_owner _ _ _)
  | lost _ e => exact .inl (e ▸ continueJob_owner _ _)
  | resume till _ e => exact .inl (e ▸ continueJob_owner _ _)

theorem HostMove.owner (m : HostMove s h h' ev) : h'.conn.owner = h.conn.owner ∨
    ∃ tk rest, h.conn.queue = tk :: rest ∧ ev = .act ∧ h'.conn.queue = rest ∧ OwnerChange tk h h' := by
  cases m with
  | submit op e => exact .inl (e ▸ rfl)
  | msPassed e => exact .inl (e ▸ evict_owner _ _)
  | idle _ e => exact .inl (e ▸ rfl)
  | act tk rest hq m => exact (m.owner hq).imp_right fun ⟨hr, hc⟩ => ⟨tk, rest, hq, rfl, hr, hc⟩
  | answered opened tk rest hq b _ e => exact .inl (e ▸ continueJob_owner _ _)

/-- A step changes the owner only as the head ticket is released; a reset of the block does not. -/
theorem step_owner (hs : step s = .next t) : t.host.conn.owner = s.host.conn.owner ∨
    ∃ tk rest, s.host.conn.queue = tk :: rest ∧ s.pins.host = some .act ∧ t.host.conn.queue = rest ∧
      OwnerChange tk s.host t.host := by
  obtain ⟨u, -, -, -, ⟨-, e⟩ | ⟨ev, hev, m⟩⟩ := step_host hs
  · exact .inl (by rw [e, hostObserve_conn])
  · have hm := m.owner
    unfold OwnerChange at hm ⊢
    simp only [hostObserve_conn, hostObserve_outcomes] at hm
    exact hm.imp_right fun ⟨tk, rest, hq, hact, hr, hc⟩ => ⟨tk, rest, hq, hact ▸ hev, hr, hc⟩

/-! ## The head ticket's action, when it ends the ticket -/

theorem hostEvent_act_of_ready (s : State) (hq : h.conn.queue = tk :: rest) (hr : h.stage = .ready) :
    hostEvent s .act h = startAct s (headAct s.cfg h.conn tk) h := by
  simp [hostEvent, hq, headStep, hr]

/-- A job whose outcome is known is returned and its ticket released. -/
theorem act_of_finish (s : State) (hq : h.conn.queue = tk :: rest) (hr : h.stage = .ready) (hj : tk.job = .finish o) :
    hostEvent s .act h = { h with
      conn := { h.conn.after tk.caller o with queue := rest }, stage := .ready
      outcomes := h.outcomes ++ [(tk.caller, o)] } := by
  have hact : headAct s.cfg h.conn tk = .deliver o := by rw [headAct_of_job (by rw [hj]; rfl), hj]; rfl
  rw [hostEvent_act_of_ready s hq hr, hact]
  exact release_of_head hq o

theorem act_of_close (s : State) (hq : h.conn.queue = tk :: rest) (hr : h.stage = .ready) (hj : tk.job = .close) :
    hostEvent s .act h = { h with
      conn := { h.conn with owner := none, transport := false, queue := rest }, stage := .ready
      outcomes := h.outcomes ++ [(tk.caller, .disconnected)] } := by
  have hact : headAct s.cfg h.conn tk = .close := by rw [headAct_of_job (by rw [hj]; rfl), hj]; rfl
  rw [hostEvent_act_of_ready s hq hr, hact]
  exact release_of_head hq .disconnected

/-- An operation without a Connection is answered without a command, and the Connection stays as it is (log 23). -/
theorem act_of_unusable (s : State) (hq : h.conn.queue = tk :: rest) (hr : h.stage = .ready)
    (hn : tk.job.needsConnection = true) (hu : h.conn.usable = false) :
    hostEvent s .act h = { h with
      conn := { h.conn with queue := rest }, stage := .ready
      outcomes := h.outcomes ++ [(tk.caller, tk.abandoned .notConnected)] } := by
  rw [hostEvent_act_of_ready s hq hr, headAct_of_unusable hn hu]
  exact (release_of_head hq _).trans (by rw [after_of_abandoned])

/-- Settles O60: only the release of the head ticket touches the owner, and it does so as its outcome says. -/
theorem connectionLivesFromConnectToClose : Obligations.ConnectionLivesFromConnectToClose := by
  refine ⟨rfl, fun s t hs => step_owner hs, fun s h tk rest hq hr => ⟨fun b hj => ?_, fun hj => ?_, fun o hj ho => ?_⟩,
    fun s h tk rest hq hr hj hu => ?_⟩
  · rw [act_of_finish s hq hr hj, ← hr]
    rfl
  · rw [act_of_close s hq hr hj, ← hr]
  · rw [act_of_finish s hq hr hj, ← hr]
    rcases ho with rfl | rfl <;> rfl
  · have hn : tk.job.needsConnection = true := by
      rcases hj with ⟨i, hj⟩ | ⟨w, hj⟩ | ⟨st, u, hj⟩ <;> rw [hj] <;> rfl
    exact ⟨_, act_of_unusable s hq hr hn (usable_eq_false hu), fun hown => abandoned_of_own (.inl hown),
      fun st u hj hlater => abandoned_of_later hlater hj⟩

end Sys2Proof.Machine
end

section
/-! SUPPORT. The Firmware Upgrade State Machine (47_host_sequences.md R266 to R273): what a completed command and an answered open can
make of an upgrade, said once. -/

namespace Sys2Proof.Machine

variable {s : State} {c : Config} {st st' : UpStage} {u u' : UpgradeData}

/-! ## How an upgrade goes on -/

/-- The order of R266, one state at most at a time; Streaming is left, or left out, with nothing to send only (R269, log 18). -/
def UpgradePhase.Leads (payload : List Byte) (p p' : UpgradePhase) : Prop :=
  p' = p ∨ (p = .aborting ∧ p' = .initiating) ∨ (p = .initiating ∧ p' = .streaming) ∨
    (p = .initiating ∧ p' = .finalizing ∧ payload = []) ∨ (p = .streaming ∧ p' = .finalizing ∧ payload = []) ∨
    (p = .finalizing ∧ p' = .verifying) ∨ (p = .verifying ∧ p' = .restoring)

section
variable {payload : List Byte} {p : UpgradePhase}

theorem leads_initiating : UpgradePhase.Leads payload .aborting .initiating := .inr (.inl ⟨rfl, rfl⟩)

theorem leads_streaming (hp : p = .initiating ∨ p = .streaming) : p.Leads payload .streaming := by
  rcases hp with rfl | rfl
  · exact .inr (.inr (.inl ⟨rfl, rfl⟩))
  · exact .inl rfl

theorem leads_finalizing (hp : p = .initiating ∨ p = .streaming) (he : payload = []) : p.Leads payload .finalizing := by
  rcases hp with rfl | rfl
  · exact .inr (.inr (.inr (.inl ⟨rfl, rfl, he⟩)))
  · exact .inr (.inr (.inr (.inr (.inl ⟨rfl, rfl, he⟩))))

theorem leads_verifying : UpgradePhase.Leads payload .finalizing .verifying :=
  .inr (.inr (.inr (.inr (.inr (.inl ⟨rfl, rfl⟩)))))

theorem leads_restoring : UpgradePhase.Leads payload .verifying .restoring :=
  .inr (.inr (.inr (.inr (.inr (.inr ⟨rfl, rfl⟩)))))

end

/-- What an upgrade in stage `st` can become: Failed with the failure of its state; Done, from the last serial check (R272); or a
stage of the same or the next state, with the serial number of the first read. -/
inductive UpgradeMove (s : State) (st : UpStage) (u : UpgradeData) : Job → Prop where
  | fail : UpgradeMove s st u (upgradeFail st)
  | done (last : st = .checkSerialOrig) (noError : s.err = .noError) (equal : s.result = u.serial) :
      UpgradeMove s st u (.finish .upgradeDone)
  | go (st' : UpStage) (u' : UpgradeData) (serial : st ≠ .readSerial → u'.serial = u.serial)
      (order : st.phase.Leads u'.payload st'.phase) : UpgradeMove s st u (.upgrade st' u')

theorem upgradeIfOk_of_noError (he : s.err = .noError) : upgradeIfOk s st st' u = .upgrade st' u := if_pos he

theorem upgradeIfOk_of_error (he : s.err ≠ .noError) : upgradeIfOk s st st' u = upgradeFail st := if_neg he

theorem upgradeIfOk_move (serial : st ≠ .readSerial → u'.serial = u.serial)
    (order : st.phase.Leads u'.payload st'.phase) : UpgradeMove s st u (upgradeIfOk s st st' u') := by
  unfold upgradeIfOk
  split
  · exact .go st' u' serial order
  · exact .fail

/-- Streaming goes on while there is something left to send (R269). -/
theorem streamOrDone_move (serial : u'.serial = u.serial) (hp : st.phase = .initiating ∨ st.phase = .streaming) :
    UpgradeMove s st u (if s.err = .noError then streamOrDone u' else upgradeFail st) := by
  unfold streamOrDone
  split
  · split
    · next hnil => exact .go _ _ (fun _ => serial) (leads_finalizing hp hnil)
    · exact .go _ _ (fun _ => serial) (leads_streaming hp)
  · exact .fail

/-- Every way an upgrade can go when the command of its stage has completed (R267 to R273). -/
theorem upgradeDone_move (s : State) (st : UpStage) (u : UpgradeData) : UpgradeMove s st u (upgradeDone s u st) := by
  have keeps {st : UpStage} : st ≠ .readSerial → u.serial = u.serial := fun _ => rfl
  cases st with
  | readSerial => exact upgradeIfOk_move (fun hne => absurd rfl hne) (.inl rfl)
  | writeAbort => exact upgradeIfOk_move keeps leads_initiating
  | writeIocapFast => exact upgradeIfOk_move keeps (.inl rfl)
  | reopenFast => exact .go _ _ keeps (.inl rfl)
  | flushFast => exact upgradeIfOk_move keeps (.inl rfl)
  | checkSerialFast =>
    simp only [upgradeDone]
    split
    · exact upgradeIfOk_move keeps (.inl rfl)
    · exact .fail
  | writeInit => exact streamOrDone_move rfl (.inl rfl)
  | stream => exact streamOrDone_move (u' := { u with payload := u.payload.drop 2 }) rfl (.inr rfl)
  | writeDone =>
    simp only [upgradeDone]
    split
    · exact .go _ _ keeps (.inl rfl)
    · exact upgradeIfOk_move keeps leads_verifying
  | pollDone => exact upgradeIfOk_move keeps leads_verifying
  | writeInitCheck => exact upgradeIfOk_move keeps (.inl rfl)
  | readStatus =>
    simp only [upgradeDone]
    split
    · exact upgradeIfOk_move keeps leads_restoring
    · exact .fail
  | writeRun => exact upgradeIfOk_move keeps (.inl rfl)
  | writeIocapOrig => exact upgradeIfOk_move keeps (.inl rfl)
  | reopenOrig => exact .go _ _ keeps (.inl rfl)
  | flushOrig => exact upgradeIfOk_move keeps (.inl rfl)
  | checkSerialOrig =>
    simp only [upgradeDone]
    split
    · next h => exact .done rfl h.1 h.2
    · exact .fail

/-- Every way an upgrade can go when the platform answers; one that asked for nothing stays as it is. -/
theorem jobOpened_move (s : State) (c : Config) (opened : Bool) (st : UpStage) (u : UpgradeData) :
    UpgradeMove s st u (jobOpened c opened (.upgrade st u)) := by
  cases st with
  | reopenFast =>
    simp only [jobOpened]
    split
    · exact .go _ _ (fun _ => rfl) (.inl rfl)
    · exact .fail
  | reopenOrig =>
    simp only [jobOpened]
    split
    · exact .go _ _ (fun _ => rfl) (.inl rfl)
    · exact .fail
  | _ => exact .go _ _ (fun _ => rfl) (.inl rfl)

theorem UpgradeMove.of_upgrade (m : UpgradeMove s st u (.upgrade st' u')) :
    (st ≠ .readSerial → u'.serial = u.serial) ∧ st.phase.Leads u'.payload st'.phase := by
  cases m with
  | go _ _ serial order => exact ⟨serial, order⟩

theorem UpgradeMove.of_done (m : UpgradeMove s st u (.finish .upgradeDone)) :
    st = .checkSerialOrig ∧ s.err = .noError ∧ s.result = u.serial := by
  cases m with
  | done last noError equal => exact ⟨last, noError, equal⟩

/-- Settles O57: each move of an upgrade follows the order of R266, and FLUSH stands between an open and the serial check. -/
theorem upgradePhasesInOrder : Obligations.UpgradePhasesInOrder := by
  refine ⟨fun s u => ⟨⟨.flushFast, rfl, rfl, fun he => upgradeIfOk_of_noError he⟩,
    ⟨.flushOrig, rfl, rfl, fun he => upgradeIfOk_of_noError he⟩⟩, fun s opened st st' u u' h => ?_⟩
  rcases h with h | h
  · have m : UpgradeMove s st u (.upgrade st' u') := h ▸ upgradeDone_move s st u
    exact m.of_upgrade
  · have m : UpgradeMove s st u (.upgrade st' u') := h ▸ jobOpened_move s s.cfg opened st u
    exact m.of_upgrade

/-! ## How an upgrade ends -/

/-- The failure of each state (R267, R271, R273, log 20). -/
theorem failure_eq (st : UpStage) : st.failure = if st.phase = .aborting then .preFlightDiscrepancy
    else if st.phase = .verifying then .statusInvalid else .stoppedIn st.phase := by
  cases st <;> rfl

/-- "any ErrorCode other than NoError aborts the whole upgrade" (R273), but CommandPending at the done write (R270). -/
theorem upgradeDone_of_error (he : s.err ≠ .noError) (hd : ¬ (st = .writeDone ∧ s.err = .commandPending))
    (hf : st ≠ .reopenFast) (ho : st ≠ .reopenOrig) : upgradeDone s u st = upgradeFail st := by
  have fails {next : UpStage} {u : UpgradeData} : upgradeIfOk s st next u = upgradeFail st := upgradeIfOk_of_error he
  cases st with
  | readSerial => exact fails
  | writeAbort => exact fails
  | writeIocapFast => exact fails
  | reopenFast => exact absurd rfl hf
  | flushFast => exact fails
  | checkSerialFast => exact (if_congr Iff.rfl fails rfl).trans (ite_self _)
  | writeInit => exact if_neg he
  | stream => exact if_neg he
  | writeDone => exact (if_neg fun hp => hd ⟨rfl, hp⟩).trans fails
  | pollDone => exact fails
  | writeInitCheck => exact fails
  | readStatus => exact (if_congr Iff.rfl fails rfl).trans (ite_self _)
  | writeRun => exact fails
  | writeIocapOrig => exact fails
  | reopenOrig => exact absurd rfl ho
  | flushOrig => exact fails
  | checkSerialOrig => exact if_neg fun h => he h.1

theorem readStatus_of_clear (hb : s.value.getLsbD 0 = false) : upgradeDone s u .readStatus = upgradeFail .readStatus :=
  if_neg (by rw [hb]; nofun)

theorem readStatus_of_set (he : s.err = .noError) (hb : s.value.getLsbD 0 = true) :
    upgradeDone s u .readStatus = .upgrade .writeRun u :=
  (if_pos hb).trans (upgradeIfOk_of_noError he)

theorem checkSerialFast_of_equal (he : s.err = .noError) (hs : s.result = u.serial) :
    upgradeDone s u .checkSerialFast = .upgrade .writeInit u :=
  (if_pos hs).trans (upgradeIfOk_of_noError he)

/-- Settles O56: the errors, and the outcomes of the status read and of the two serial checks. -/
theorem upgradeAbortsOnAnyError : Obligations.UpgradeAbortsOnAnyError := by
  intro s st u hf ho
  refine ⟨fun he hd => ?_, ?_, ?_, ?_, ?_, ?_, ?_, ?_, ?_, fun h => ?_⟩
  · rw [← failure_eq]
    exact upgradeDone_of_error he hd hf ho
  · rintro rfl hp; exact if_pos hp
  · rintro rfl hb; exact readStatus_of_clear hb
  · rintro rfl he hb; exact readStatus_of_set he hb
  · rintro rfl he; exact ⟨_, upgradeIfOk_of_noError he, rfl, rfl⟩
  · rintro rfl - hs; exact if_neg hs
  · rintro rfl he hs; exact checkSerialFast_of_equal he hs
  · rintro rfl - hs; exact if_neg fun h => hs h.2
  · rintro rfl he hs; exact if_pos ⟨he, hs⟩
  · have m : UpgradeMove s st u (.finish .upgradeDone) := h ▸ upgradeDone_move s st u
    exact m.of_done

end Sys2Proof.Machine
end

section
/-! SUPPORT. The Baud Negotiator (47_host_sequences.md R260 to R264): which jobs are negotiations, how each stage of an attempt follows
the one before, and that the Connection's rate is the rung's from the flush before the probe on. -/

namespace Sys2Proof.Machine

variable {s t u pre : State} {h h' : HostSide} {tk : Ticket} {rest : List Ticket} {ev : HostEvent} {c : Config}
  {rung baud b : Nat} {st : NegStage}

/-! ## The stages of an attempt -/

theorem fillAct_not_reopen (f : FillStage) : fillAct c f ≠ .reopen b := by cases f <;> nofun

/-- The platform is asked for the rate of the rung, at the beginning of an attempt only. -/
theorem negotiateAct_reopen (h : negotiateAct c rung st = .reopen b) : st = .opening ∧ c.baudLadder[rung]? = some b := by
  cases st with
  | opening =>
    simp only [negotiateAct] at h
    split at h
    · next b' hb => exact ⟨rfl, HostAct.reopen.inj h ▸ hb⟩
    · cases h
  | fill f => exact absurd h (fillAct_not_reopen f)
  | flush => cases h
  | probe => cases h

theorem negotiateAct_opening (hb : c.baudLadder[rung]? = some b) : negotiateAct c rung .opening = .reopen b := by
  simp [negotiateAct, hb]

theorem nextRung_of_more (hn : rung + 1 < c.baudLadder.length) :
    nextRung c rung = .negotiate (rung + 1) (.fill (startFiller c)) := if_pos hn

theorem nextRung_of_last (hn : c.baudLadder.length ≤ rung + 1) : nextRung c rung = .finish .baudError :=
  if_neg (Nat.not_lt.2 hn)

theorem jobDone_probe_of_noError (s : State) (rung : Nat) (he : s.err = .noError) :
    jobDone s (.negotiate rung .probe) = .finish (.connected s.host.conn.baud) := if_pos he

theorem jobDone_probe_of_error (s : State) (rung : Nat) (he : s.err ≠ .noError) :
    jobDone s (.negotiate rung .probe) = nextRung s.cfg rung := if_neg he

/-- Settles O55: the probe's outcome selects the rate or sends the negotiation on. -/
theorem negotiationStopsAtFirstGoodRate : Obligations.NegotiationStopsAtFirstGoodRate := by
  refine ⟨fun s tk rest rung hr hq hj he => ?_, fun s rung => ⟨jobDone_probe_of_noError s rung, fun he hn => ?_,
    fun he hn => ?_, rfl, rfl, rfl, fun b => negotiateAct_opening, rfl⟩⟩
  · have hrate : s.cfg.baudLadder[rung]? = some s.host.conn.baud := hr.head tk rest rung .probe hq hj
    exact ⟨_, hrate, hj ▸ jobDone_probe_of_noError s rung he⟩
  · exact ⟨_, (jobDone_probe_of_error s rung he).trans (nextRung_of_more hn)⟩
  · exact (jobDone_probe_of_error s rung he).trans (nextRung_of_last hn)

/-! ## The rate of a job -/

/-- The rate of the link fits the job: the rate of a negotiation is the one its stage needs. -/
def Job.RateOk (c : Config) (baud : Nat) (j : Job) : Prop := ∀ rung st, j = .negotiate rung st → st.RateOk c rung baud

/-- The job has not begun to negotiate. -/
def Job.Fresh (j : Job) : Prop := ∀ rung st, j = .negotiate rung st → st = .opening

theorem Job.Fresh.rateOk {j : Job} (hf : j.Fresh) (c : Config) (baud : Nat) : j.RateOk c baud := by
  rintro rung st hj
  rw [hf rung st hj]
  trivial

theorem Job.rateOk_negotiate : (Job.negotiate rung st).RateOk c baud ↔ st.RateOk c rung baud :=
  ⟨fun h => h rung st rfl, fun h _ _ e => by obtain ⟨rfl, rfl⟩ := Job.negotiate.inj e; exact h⟩

/-- An operation that a caller submits has not begun. -/
theorem jobOf_fresh (c : Config) (op : CallerOp) : (jobOf c op).Fresh := by
  intro rung st hj
  cases op with
  | connect => exact (Job.negotiate.inj hj).2.symm
  | read reg => cases hj
  | write reg v => simp only [jobOf] at hj; split at hj <;> cases hj
  | transact reg v rw =>
    simp only [jobOf] at hj
    split at hj
    · split at hj <;> cases hj
    · cases hj
  | readExtended n => cases hj
  | upgradeFirmware image => cases hj
  | disconnect => cases hj
  | issue w => cases hj

/-- An upgrade stays an upgrade or is finished. -/
theorem UpgradeMove.fresh {st : UpStage} {d : UpgradeData} {j : Job} (m : UpgradeMove s st d j) : j.Fresh := by
  cases m <;> nofun

theorem nextRung_rateOk (c : Config) (rung baud : Nat) : (nextRung c rung).RateOk c baud := by
  unfold nextRung
  split
  · exact Job.rateOk_negotiate.2 nofun
  · nofun

/-- The stages of an attempt between two changes of the rate need the same rate (R261, R263). -/
theorem negotiateDone_rateOk (hr : st.RateOk s.cfg rung baud) : (negotiateDone s rung st).RateOk s.cfg baud := by
  cases st with
  | opening => exact Job.rateOk_negotiate.2 trivial
  | fill f =>
    cases f with
    | byte k => exact Job.rateOk_negotiate.2 hr
    | gap k => exact Job.rateOk_negotiate.2 hr
    | drain =>
      refine Job.rateOk_negotiate.2 ?_
      split
      · next h0 => exact hr h0
      · trivial
  | flush => exact Job.rateOk_negotiate.2 hr
  | probe =>
    simp only [negotiateDone]
    split
    · nofun
    · exact nextRung_rateOk _ _ _

theorem jobDone_rateOk {j : Job} (hr : j.RateOk s.cfg baud) : (jobDone s j).RateOk s.cfg baud := by
  cases j with
  | command i => nofun
  | word w => nofun
  | negotiate rung st => exact negotiateDone_rateOk (hr rung st rfl)
  | upgrade st d => exact (upgradeDone_move s st d).fresh.rateOk _ _
  | recover f o => cases f <;> nofun
  | close => nofun
  | finish o => nofun

theorem jobAbandoned_rateOk (c : Config) (baud : Nat) (j : Job) : (jobAbandoned c j).RateOk c baud := by
  cases j with
  | negotiate rung st => exact nextRung_rateOk c rung baud
  | command i => nofun
  | word w => nofun
  | upgrade st d => nofun
  | recover f o => nofun
  | close => nofun
  | finish o => nofun

theorem jobPaused_rateOk {j : Job} (hr : j.RateOk c baud) : (jobPaused s j).RateOk c baud := by
  cases j with
  | negotiate rung st =>
    have hst := hr rung st rfl
    cases st <;> exact Job.rateOk_negotiate.2 hst
  | command i => nofun
  | word w => nofun
  | upgrade st d => nofun
  | recover f o => nofun
  | close => nofun
  | finish o => nofun

/-- The open that a negotiation waits for, at its rung's rate, begins the attempt at that rate (R261). -/
theorem jobOpened_rateOk {j : Job} {opened : Bool}
    (hw : ∀ rung st, j = .negotiate rung st → st = .opening ∧ s.cfg.baudLadder[rung]? = some b) :
    (jobOpened s.cfg opened j).RateOk s.cfg (if opened then b else baud) := by
  cases j with
  | negotiate rung st =>
    obtain ⟨rfl, hb⟩ := hw rung st rfl
    cases opened with
    | false => nofun
    | true =>
      refine Job.rateOk_negotiate.2 ?_
      change NegStage.RateOk s.cfg rung b (if _ then _ else _)
      split
      · exact fun _ => hb
      · exact hb
  | upgrade st d => exact (jobOpened_move s s.cfg opened st d).fresh.rateOk _ _
  | command i => nofun
  | word w => nofun
  | recover f o => nofun
  | close => nofun
  | finish o => nofun

/-! ## The rate along a step -/

theorem HostSide.RateKnown.headOk (hr : h.RateKnown c) (hq : h.conn.queue = tk :: rest) : tk.job.RateOk c h.conn.baud :=
  fun rung st => hr.head tk rest rung st hq

theorem HostSide.RateKnown.rest_fresh (hr : h.RateKnown c) (hq : h.conn.queue = tk :: rest) : ∀ w ∈ rest, w.job.Fresh :=
  fun w hw rung st => hr.waiting tk rest w rung st hq hw

theorem rateKnown_of_head (hq : h.conn.queue = tk :: rest) (head : tk.job.RateOk c h.conn.baud)
    (waiting : ∀ w ∈ rest, w.job.Fresh)
    (opening : ∀ b, h.stage = .opening b → ∀ rung st, tk.job = .negotiate rung st →
      st = .opening ∧ c.baudLadder[rung]? = some b) : h.RateKnown c where
  opening t r rung st b he hj ho := by
    obtain ⟨rfl, rfl⟩ := List.cons.inj (hq.symm.trans he)
    exact opening b ho rung st hj
  nobody b he := by simp [hq] at he
  head t r rung st he hj := by
    obtain ⟨rfl, rfl⟩ := List.cons.inj (hq.symm.trans he)
    exact head rung st hj
  waiting t r w rung st he hw hj := by
    obtain ⟨rfl, rfl⟩ := List.cons.inj (hq.symm.trans he)
    exact waiting w hw rung st hj

/-- Nothing is asked of the platform, and nobody in line has begun. -/
theorem rateKnown_of_fresh (hs : ∀ b, h.stage ≠ .opening b) (hf : ∀ w ∈ h.conn.queue, w.job.Fresh) : h.RateKnown c := by
  cases hq : h.conn.queue with
  | nil =>
    exact { opening := by simp [hq], nobody := fun b _ => hs b, head := by simp [hq], waiting := by simp [hq] }
  | cons tk rest =>
    rw [hq] at hf
    exact rateKnown_of_head hq ((hf tk (List.mem_cons_self ..)).rateOk c _) (fun w hw => hf w (List.mem_cons_of_mem _ hw))
      fun b ho => absurd ho (hs b)

/-- The Connection stays, and nothing new is asked of the platform. -/
theorem HostSide.RateKnown.of_conn (hr : h.RateKnown c) (hc : h'.conn = h.conn)
    (hs : ∀ b, h'.stage = .opening b → h.stage = .opening b) : h'.RateKnown c where
  opening t r rung st b he hj ho := hr.opening t r rung st b (hc ▸ he) hj (hs b ho)
  nobody b he ho := hr.nobody b (hc ▸ he) (hs b ho)
  head t r rung st he := hc ▸ hr.head t r rung st (hc ▸ he)
  waiting t r w rung st he := hr.waiting t r w rung st (hc ▸ he)

theorem hostObserve_rateKnown (pre : State) (hr : h.RateKnown c) : (hostObserve pre h).RateKnown c := by
  refine hr.of_conn (hostObserve_conn pre h) fun b hb => ?_
  rwa [hostObserve_eq_self (by simp [hb]) (by simp [hb]) (by simp [hb])] at hb

theorem submitOp_rateKnown (hr : h.RateKnown c) (op : CallerOp) : (submitOp c op h).RateKnown c := by
  cases hq : h.conn.queue with
  | nil =>
    refine rateKnown_of_fresh (fun b => hr.nobody b hq) fun w hw => ?_
    rw [submitOp_queue, hq] at hw
    exact List.mem_singleton.1 hw ▸ jobOf_fresh c op
  | cons tk rest =>
    refine rateKnown_of_head ((submitOp_queue c op h).trans (congrArg (· ++ [_]) hq)) (hr.headOk hq) (fun w hw => ?_)
      fun b ho rung st hj => hr.opening tk rest rung st b hq hj ho
    rcases List.mem_append.1 hw with hw | hw
    · exact hr.rest_fresh hq w hw
    · exact List.mem_singleton.1 hw ▸ jobOf_fresh c op

theorem evict_rateKnown (hr : h.RateKnown c) : (evict c h).RateKnown c := by
  cases hq : h.conn.queue with
  | nil => exact hr.of_conn (by simp [evict, hq]) fun b hb => evict_stage c h ▸ hb
  | cons tk rest =>
    rw [evict_of_head hq]
    exact rateKnown_of_head rfl (hr.headOk hq) (fun w hw => hr.rest_fresh hq w (List.mem_of_mem_filter hw))
      fun b ho rung st hj => hr.opening tk rest rung st b hq hj ho

theorem release_rateKnown (hr : h.RateKnown c) (hq : h.conn.queue = tk :: rest) (o : HostOutcome) :
    (release o h).RateKnown c := by
  rw [release_of_head hq]
  exact rateKnown_of_fresh nofun (hr.rest_fresh hq)

theorem continueJob_rateKnown {j : Job} (hq : h.conn.queue = tk :: rest) (hw : ∀ w ∈ rest, w.job.Fresh)
    (hj : j.RateOk c h.conn.baud) : (continueJob j h).RateKnown c := by
  rw [continueJob_of_head hq]
  exact rateKnown_of_head rfl hj hw nofun

theorem advanceJob_rateKnown {j : Job} (hq : h.conn.queue = tk :: rest) (hw : ∀ w ∈ rest, w.job.Fresh)
    (hj : j.RateOk c h.conn.baud) : (advanceJob c j h).RateKnown c := by
  rcases advanceJob_of_head hq c j with e | ⟨⟨st, d, rfl⟩, e⟩
  · exact e ▸ continueJob_rateKnown hq hw hj
  · rw [e]
    refine rateKnown_of_fresh nofun fun w hm => ?_
    rcases List.mem_append.1 hm with hm | hm
    · exact hw w hm
    · rw [List.mem_singleton.1 hm]
      nofun

/-- The platform is asked for a rate by a negotiation at its rung's (R261). -/
theorem headAct_reopen (ha : headAct c h.conn tk = .reopen b) (hj : tk.job = .negotiate rung st) :
    st = .opening ∧ c.baudLadder[rung]? = some b := by
  rw [headAct_of_job (by rw [hj]; rfl), hj] at ha
  exact negotiateAct_reopen ha

theorem HeadMove.rateKnown (hq : h.conn.queue = tk :: rest) (hr : h.RateKnown s.cfg) (m : HeadMove s tk h h') :
    h'.RateKnown s.cfg := by
  have head := hr.headOk hq
  have fresh := hr.rest_fresh hq
  cases m with
  | stay e => exact e ▸ hr
  | present w _ _ _ e => subst e; exact hr.of_conn rfl nofun
  | reopen b _ _ act e =>
    subst e
    refine rateKnown_of_head hq head fresh fun b' hb rung st hj => ?_
    exact HostStage.opening.inj hb ▸ headAct_reopen act hj
  | pause ms _ _ e => subst e; exact hr.of_conn rfl nofun
  | release o _ _ e => exact e ▸ release_rateKnown hr hq o
  | advance _ _ e => exact e ▸ advanceJob_rateKnown hq fresh (jobDone_rateOk head)
  | lost _ e => exact e ▸ continueJob_rateKnown hq fresh (jobAbandoned_rateOk _ _ _)
  | resume till _ e => exact e ▸ continueJob_rateKnown hq fresh (jobPaused_rateOk head)

theorem HostMove.rateKnown (hr : h.RateKnown s.cfg) (m : HostMove s h h' ev) : h'.RateKnown s.cfg := by
  cases m with
  | submit op e => exact e ▸ submitOp_rateKnown hr op
  | msPassed e =>
    subst e
    exact evict_rateKnown (hr.of_conn rfl fun _ ho => ho)
  | idle _ e => exact e ▸ hr
  | act tk rest hq m => exact m.rateKnown hq hr
  | answered opened tk rest hq b opening e =>
    subst e
    exact continueJob_rateKnown (rest := rest) (by exact hq) (hr.rest_fresh hq)
      (jobOpened_rateOk fun rung st hj => hr.opening tk rest rung st b hq hj opening)

/-- Settles O59: each move of the host software keeps what is known of the rate. -/
theorem stepKeepsNegotiatedRate : Obligations.StepKeepsNegotiatedRate := by
  refine ⟨rateKnown_of_fresh nofun nofun, fun s t hr hs => ?_⟩
  rw [step_keeps_cfg hs]
  exact step_host_keeps (P := HostSide.RateKnown s.cfg) (fun h => hostObserve_rateKnown s)
    (fun u h h' ev hcfg m hr => hcfg ▸ m.rateKnown (hcfg ▸ hr)) hs hr

end Sys2Proof.Machine
end

section
/-! SUPPORT. A block that meets the invariant does not stop (60_exceptions.md R300): the only stop within reach of a step is a store
past the end of the AEA buffer, in the GOT of an extended-address read, whose counters have room for it. -/

namespace Sys2Proof.Machine

variable {s : State}

/-- A continuation frame of a read whose remaining bytes fit the AEA buffer is handled without a stop (R221). -/
theorem gotAea_answers (f : Frame) (st : BitVec 2) (hpos : 1 ≤ s.rem.toNat)
    (hroom : s.aeaLen.toNat + s.rem.toNat ≤ Memory.size) : ∃ t, gotAea f st s = .next t := by
  by_cases hst : st = 0#2
  · obtain ⟨k, -, hstore⟩ := aeaPayload_stores (s := { s with rxbuf := f }) f hpos hroom
    exact ⟨_, hst ▸ (gotAea_of_success f s).trans hstore⟩
  · exact ⟨_, if_neg hst⟩

theorem gotGood_answers (f : Frame) (st : BitVec 2) (hf : s.FlightOk) : ∃ t, gotGood f st s = .next t := by
  by_cases hd : s.drains
  · exact ⟨_, if_pos hd⟩
  · rw [gotGood, if_neg hd]
    cases hc : s.ctx with
    | main => exact ⟨_, rfl⟩
    | aea =>
      simp only [State.FlightOk, hc] at hf
      obtain ⟨-, -, hpos, hroom⟩ := hf
      exact gotAea_answers f st hpos hroom
    | poll => exact ⟨_, rfl⟩

/-- A waiting block pops a frame without a stop, whatever the frame is (R161). -/
theorem got_answers (hp : s.phase = .wait) (h4 : 4 ≤ s.rxCount) (hf : s.FlightOk) : ∃ t, got s = .next t := by
  obtain ⟨f, rest, hpop⟩ := popFrame_isSome h4
  rw [got_of_frame hp (popFrame_eq_some.1 hpop)]
  split
  · exact gotGood_answers f _ hf
  · exact ⟨_, rfl⟩

/-- A command answers a next state in every state, accepted or not (R23, R168). -/
theorem exec_command_answers {i : Instr} (hi : i.space = .command) (s : State) : ∃ t, exec i s = .next t := by
  obtain ⟨f, hf, -⟩ := exec_command hi s
  by_cases hr : s.cmdReady
  · exact ⟨_, hf.trans (whenReady_of_ready hr)⟩
  · exact ⟨_, hf.trans (whenReady_of_busy (Bool.eq_false_iff.2 hr))⟩

/-- An edge in WAIT answers a next state: GOT does, and TIMEOUT and the bare tick always do (R161). -/
theorem edge_wait_answers (h : Inv s) (hr : s.pins.rst = false) (hp : s.phase = .wait) :
    ∃ u, performAll (edgeSteps s) (endPulse s) = .next u := by
  rw [edge_wait hr hp]
  split
  · next h4 =>
    have hf : (ticked s.pins (endPulse s)).FlightOk := by
      obtain ⟨n, e⟩ := ticked_eq s.pins (endPulse s)
      exact e ▸ (h.flight (.inr hp)).2
    obtain ⟨v, hv⟩ := got_answers (by simpa using hp) (by simpa using h4) hf
    exact ⟨_, andThen_eq_next.2 ⟨v, hv, rfl⟩⟩
  · split
    · exact ⟨_, rfl⟩
    · exact ⟨_, rfl⟩

theorem edge_answers (h : Inv s) : ∃ u, performAll (edgeSteps s) (endPulse s) = .next u := by
  by_cases hr : s.pins.rst
  · exact ⟨_, edge_reset hr⟩
  · have hr : s.pins.rst = false := Bool.eq_false_iff.2 hr
    rcases phase_kinds s with hi | hi | hi | hi
    · rw [edge_idle hr hi]
      split
      · exact exec_command_answers (decodeCommand_space _) _
      · exact ⟨_, rfl⟩
    · exact ⟨_, edge_offering hr hi⟩
    · exact edge_wait_answers h hr hi
    · exact ⟨_, edge_bwait hr hi⟩

/-- Settles O39: the agent steps of the edge answer a next state, and the next clock stops nothing. -/
theorem invStatesNeverStop : Obligations.InvStatesNeverStop := by
  intro s h
  obtain ⟨u, hu⟩ := edge_answers h
  exact ⟨_, step_eq_next.2 ⟨u, hu, rfl⟩⟩

end Sys2Proof.Machine
end
